-- ==== Sys2Proof/Word.lean ====
section
/-! DEFINITION. The words of the block: bytes, 16-bit values and chip addresses (R12). Every value is unsigned. -/

namespace Sys2Proof

/-- A byte: an unsigned 8-bit value (R12). -/
abbrev Byte := BitVec 8

/-- A u16: an unsigned 16-bit value (R12). -/
abbrev U16 := BitVec 16

/-- A chip register address, `ADDR_W` = 16 bits (R10, R50). -/
abbrev Addr := BitVec 16

end Sys2Proof
end

