-- ==== Sys2Proof/Config.lean ====
section
/-! DEFINITION. The configuration: what R10 fixes for this hardware, the parameters it leaves to the configuration
(`Params`), and the free values of the chip, which is an oracle (R63). -/

namespace Sys2Proof

/-- What the bus port returns for one exchange (R29): the four bytes the chip returned, or `fail`. Whether a failed
write took effect in the chip is left open (R222, U3): the answer carries it (log 3). -/
inductive BusAnswer where
  | ok (r0 r1 r2 r3 : Byte)
  | fail (stored : Bool)
deriving DecidableEq, Repr, Inhabited

/-- `RING_SIZE` (R10, R140): bytes in each ring. -/
def Config.ringSize : Nat := 8192

/-- `RING_MASK` (R10, R140): the offset mask of each ring. -/
def Config.ringMask : U16 := 0x1FFF#16

/-- `HDR_LEN` (R10): bytes of the receive length header. -/
def Config.hdrLen : Nat := 2

/-- `SR_MACRAW` (R10, R82): the socket-0 status that means raw-frame mode is active. -/
def Config.srMacraw : Byte := 0x42#8

/-- `PLACEHOLDER` (R10, R71, D5): byte 3 of a read exchange. -/
def Config.placeholder : Byte := 0x00#8

/-- `RESET_SETTLE` (R10, R121, D27): the delay after the software reset. OPEN; no model effect (log 16). -/
opaque Config.resetSettle : Nat

/-- `POLL_INTERVAL` (R10, R201, R204, D27): the sleep between two poll attempts. OPEN; no model effect (log 16). -/
opaque Config.pollInterval : Nat

/-- The free value of the chip (R63, U1 to U4): what it answers to an exchange that no given answer covers. It has no
body, so nothing can be proved of its values (log 2). -/
opaque Config.chipAnswer : Nat → BusAnswer

/-- The parameters that R10 marks as configuration arguments: direction markers, chip addresses, ring bases, register
bits, command codes, and the header's byte order (U19). `memorySizes` is the chip's memory-size configuration as far as it is
known: which ring size a value of RMSR and TMSR gives socket 0; R11 ties the ring to it (log 30). -/
structure Params where
  dirRead : Byte
  dirWrite : Byte
  addrMr : Addr
  addrGar : Addr
  addrSubr : Addr
  addrShar : Addr
  addrSipr : Addr
  addrRmsr : Addr
  addrTmsr : Addr
  addrS0Mr : Addr
  addrS0Cr : Addr
  addrS0Ir : Addr
  addrS0Sr : Addr
  addrS0TxFsr : Addr
  addrS0TxRd : Addr
  addrS0TxWr : Addr
  addrS0RxRsr : Addr
  addrS0RxRd : Addr
  addrS0RxWr : Addr
  txBase : Addr
  rxBase : Addr
  mrRst : Byte
  mrPb : Byte
  msrSock0All : Byte
  memorySizes : List (Byte × Nat)
  s0MrMacraw : Byte
  cmdOpen : Byte
  cmdClose : Byte
  cmdSend : Byte
  cmdRecv : Byte
  cmdIdle : Byte
  hdrBigEndian : Bool
deriving DecidableEq, Repr

/-- The default values of R10 (general knowledge, marked [gk] there; PRESUMED, log 4). -/
def Params.default : Params where
  dirRead := 0x0F#8
  dirWrite := 0xF0#8
  addrMr := 0x0000#16
  addrGar := 0x0001#16
  addrSubr := 0x0005#16
  addrShar := 0x0009#16
  addrSipr := 0x000F#16
  addrRmsr := 0x001A#16
  addrTmsr := 0x001B#16
  addrS0Mr := 0x0400#16
  addrS0Cr := 0x0401#16
  addrS0Ir := 0x0402#16
  addrS0Sr := 0x0403#16
  addrS0TxFsr := 0x0420#16
  addrS0TxRd := 0x0422#16
  addrS0TxWr := 0x0424#16
  addrS0RxRsr := 0x0426#16
  addrS0RxRd := 0x0428#16
  addrS0RxWr := 0x042A#16
  txBase := 0x4000#16
  rxBase := 0x6000#16
  mrRst := 0x80#8
  mrPb := 0x10#8
  msrSock0All := 0x03#8
  memorySizes := [(0x03#8, 8192)]
  s0MrMacraw := 0x04#8
  cmdOpen := 0x01#8
  cmdClose := 0x10#8
  cmdSend := 0x20#8
  cmdRecv := 0x40#8
  cmdIdle := 0x00#8
  hdrBigEndian := true

/-- The registers of R10's table with their first address and their length in bytes. -/
def Params.registers (c : Params) : List (Addr × Nat) :=
  [(c.addrMr, 1), (c.addrGar, 4), (c.addrSubr, 4), (c.addrShar, 6), (c.addrSipr, 4), (c.addrRmsr, 1), (c.addrTmsr, 1),
   (c.addrS0Mr, 1), (c.addrS0Cr, 1), (c.addrS0Ir, 1), (c.addrS0Sr, 1), (c.addrS0TxFsr, 2), (c.addrS0TxRd, 2),
   (c.addrS0TxWr, 2), (c.addrS0RxRsr, 2), (c.addrS0RxRd, 2), (c.addrS0RxWr, 2)]

/-- Two address ranges, each given by its first address and its length, share no address. -/
def rangesApart (a : Nat) (n : Nat) (b : Nat) (m : Nat) : Bool := a + n ≤ b || b + m ≤ a

/-- None of the `n` addresses of a register, which go on modulo 65536, lies in the ring that starts at `base`. -/
def outsideRing (base : Addr) (a : Addr) (n : Nat) : Bool :=
  (List.range n).all fun k =>
    (a.toNat + k) % 65536 < base.toNat || base.toNat + Config.ringSize ≤ (a.toNat + k) % 65536

/-- `RING_SIZE` is what the chip's memory-size configuration gives socket 0 under `MSR_SOCK0_ALL`, so that neither can be
altered without the other (R11, log 30). -/
def Params.memoryTied (c : Params) : Bool := c.memorySizes.lookup c.msrSock0All == some Config.ringSize

/-- The constraints of R10 on the configuration, with R11's tie of the ring size and R74's that the two markers differ. -/
def Params.wf (c : Params) : Bool :=
  (c.dirRead != c.dirWrite)
    && (c.rxBase.toNat + Config.ringSize ≤ 65536) && (c.txBase.toNat + Config.ringSize ≤ 65536)
    && rangesApart c.rxBase.toNat Config.ringSize c.txBase.toNat Config.ringSize
    && c.memoryTied
    && c.registers.all fun r => outsideRing c.rxBase r.1 r.2 && outsideRing c.txBase r.1 r.2

end Sys2Proof
end

