-- ==== Sys2Proof/Syntax.lean ====
section
/-! DEFINITION. The instructions: the two bus-exchange forms (R71, R72) and the fourteen host commands (R77), one
constructor for each row of the opcode table, and the pseudo-instructions of R87. -/

namespace Sys2Proof

/-- Four bytes in register address order: an IP, gateway or subnet argument (R32, R76). -/
structure Bytes4 where
  b0 : Byte
  b1 : Byte
  b2 : Byte
  b3 : Byte
deriving DecidableEq, Repr

/-- Six bytes in register address order: a MAC argument, or the register RB (R24, R32, R76). -/
structure Bytes6 where
  b0 : Byte
  b1 : Byte
  b2 : Byte
  b3 : Byte
  b4 : Byte
  b5 : Byte
deriving DecidableEq, Repr

/-- The six 16-bit registers a ring selector names (R78). -/
inductive RingPair where
  | rxRsr
  | rxRd
  | rxWr
  | txFsr
  | txRd
  | txWr
deriving DecidableEq, Repr

/-- An instruction: a bus exchange or a host command. A selector is the byte the command carries, legal or not, since
acceptance latches it and reports it (R100, R223). -/
inductive Instr where
  | busRead (a : Addr)
  | busWrite (a : Addr) (v : Byte)
  | readReg (a : Addr)
  | writeReg (a : Addr) (v : Byte)
  | configure (mac : Bytes6) (ip gw sn : Bytes4)
  | disableEcho
  | getMac
  | getIp
  | getGateway
  | getSubnet
  | enableRaw
  | frameAvailable
  | receiveFrame (cap : U16)
  | sendFrame (len : U16) (data : List Byte)
  | ringRead (sel : Byte)
  | ringWrite (sel : Byte) (val : U16)
deriving DecidableEq, Repr

/-- The pseudo-instructions of R87. -/
inductive Pseudo where
  | read16 (a : Addr)
  | write16 (a : Addr) (v : U16)
  | sockCmd (c : Byte)
  | getStatus
  | receiveFrame
deriving DecidableEq, Repr

end Sys2Proof
end

