-- ==== Sys2Proof/WellFormed.lean ====
section
/-! DEFINITION. Well-formed instructions: SEND_FRAME carries exactly LEN bytes (R76, R77), and a ring command carries a
selector that R78 marks legal for it. Every other field admits every value (R74, R76). -/

namespace Sys2Proof

/-- The selectors R78 marks "legal in RING_READ". -/
def legalReadSelector (sel : Byte) : Bool := sel.toNat ≤ 5

/-- The selectors R78 marks "legal in RING_WRITE". -/
def legalWriteSelector (sel : Byte) : Bool := sel.toNat == 1 || sel.toNat == 5

/-- The checks on an instruction's fields. -/
def Instr.wf : Instr → Bool
  | .busRead _ => true
  | .busWrite _ _ => true
  | .readReg _ => true
  | .writeReg _ _ => true
  | .configure _ _ _ _ => true
  | .disableEcho => true
  | .getMac => true
  | .getIp => true
  | .getGateway => true
  | .getSubnet => true
  | .enableRaw => true
  | .frameAvailable => true
  | .receiveFrame _ => true
  | .sendFrame len data => data.length == len.toNat
  | .ringRead sel => legalReadSelector sel
  | .ringWrite sel _ => legalWriteSelector sel

/-- A bus exchange, which the block emits and does not decode (R70). -/
def Instr.isExchange : Instr → Bool
  | .busRead _ => true
  | .busWrite _ _ => true
  | .readReg _ => false
  | .writeReg _ _ => false
  | .configure _ _ _ _ => false
  | .disableEcho => false
  | .getMac => false
  | .getIp => false
  | .getGateway => false
  | .getSubnet => false
  | .enableRaw => false
  | .frameAvailable => false
  | .receiveFrame _ => false
  | .sendFrame _ _ => false
  | .ringRead _ => false
  | .ringWrite _ _ => false

end Sys2Proof
end

