-- ==== Sys2Proof/Decode.lean ====
section
/-! DEFINITION. The encodings of `30_encoding.md`: byte order (R75, R76), the decoder of host commands (R77, R80), the
decoder of bus exchanges (R70 to R72), and after them the encoder. Decoding is total and rejects by name. -/

namespace Sys2Proof

/-! ### Byte order -/

/-- Bits 15:8 (R75). -/
def hiByte (v : U16) : Byte := v.extractLsb' 8 8

/-- Bits 7:0 (R75). -/
def loByte (v : U16) : Byte := v.extractLsb' 0 8

/-- `hi ++ lo` = hi * 256 + lo (R12, R75). -/
def join16 (hi lo : Byte) : U16 := hi ++ lo

/-- The bytes of a four-byte field, in address order (R55). -/
def Bytes4.toList (b : Bytes4) : List Byte := [b.b0, b.b1, b.b2, b.b3]

/-- The bytes of a six-byte field, in address order (R55). -/
def Bytes6.toList (b : Bytes6) : List Byte := [b.b0, b.b1, b.b2, b.b3, b.b4, b.b5]

/-! ### The opcode map (R77) -/

def opReadReg : Byte := 0x01#8
def opWriteReg : Byte := 0x02#8
def opConfigure : Byte := 0x10#8
def opDisableEcho : Byte := 0x11#8
def opGetMac : Byte := 0x12#8
def opGetIp : Byte := 0x13#8
def opGetGateway : Byte := 0x14#8
def opGetSubnet : Byte := 0x15#8
def opEnableRaw : Byte := 0x20#8
def opFrameAvailable : Byte := 0x21#8
def opReceiveFrame : Byte := 0x22#8
def opSendFrame : Byte := 0x23#8
def opRingRead : Byte := 0x30#8
def opRingWrite : Byte := 0x31#8

/-- The legal opcodes: those in the table of R77. -/
def legalOpcodes : List Byte :=
  [opReadReg, opWriteReg, opConfigure, opDisableEcho, opGetMac, opGetIp, opGetGateway, opGetSubnet, opEnableRaw,
   opFrameAvailable, opReceiveFrame, opSendFrame, opRingRead, opRingWrite]

/-- The register pair a selector byte names (R78); `none` for 0x06 .. 0xFF. -/
def ringPair (sel : Byte) : Option RingPair :=
  if sel = 0x00#8 then some .rxRsr
  else if sel = 0x01#8 then some .rxRd
  else if sel = 0x02#8 then some .rxWr
  else if sel = 0x03#8 then some .txFsr
  else if sel = 0x04#8 then some .txRd
  else if sel = 0x05#8 then some .txWr
  else none

/-- The pairs RING_WRITE may write: the two host-maintained pointers (R78). -/
def RingPair.writable : RingPair → Bool
  | .rxRsr => false
  | .rxRd => true
  | .rxWr => false
  | .txFsr => false
  | .txRd => false
  | .txWr => true

/-! ### Decoding -/

/-- Why a byte string is rejected. -/
inductive DecodeError where
  /-- byte 0 is not in the opcode map (R79); one byte long (R80) -/
  | illegalOpcode (op : Byte)
  /-- fewer bytes than the command's length: not a command (R79) -/
  | truncated
  /-- byte 0 of an exchange is neither direction marker: reserved (R74) -/
  | reservedMarker (b0 : Byte)
  /-- byte 3 of a read exchange is not the placeholder (R74) -/
  | badPlaceholder (b3 : Byte)
deriving DecidableEq, Repr

/-- What a decoder answers: an instruction with the rest of the bytes, or a rejection by name. -/
inductive Decoded where
  | ok (i : Instr) (rest : List Byte)
  | error (e : DecodeError)
deriving DecidableEq, Repr

/-- A command whose argument is one 16-bit field. -/
def decodeU16 (f : U16 → Instr) : List Byte → Decoded
  | h :: l :: rest => .ok (f (join16 h l)) rest
  | _ => .error .truncated

/-- WRITE_REG: `02 AH AL DD` (R77). -/
def decodeWriteReg : List Byte → Decoded
  | h :: l :: d :: rest => .ok (.writeReg (join16 h l) d) rest
  | _ => .error .truncated

/-- Four bytes in address order, with the rest (R76). -/
def Bytes4.take : List Byte → Option (Bytes4 × List Byte)
  | a :: b :: c :: d :: rest => some (⟨a, b, c, d⟩, rest)
  | _ => none

/-- Six bytes in address order, with the rest (R76). -/
def Bytes6.take : List Byte → Option (Bytes6 × List Byte)
  | a :: b :: c :: d :: e :: f :: rest => some (⟨a, b, c, d, e, f⟩, rest)
  | _ => none

/-- CONFIGURE's arguments: MAC, IP, GW, SN (R77). -/
def configureArgs (bs : List Byte) : Option (Instr × List Byte) :=
  (Bytes6.take bs).bind fun m =>
  (Bytes4.take m.2).bind fun i =>
  (Bytes4.take i.2).bind fun g =>
  (Bytes4.take g.2).map fun s =>
  (.configure m.1 i.1 g.1 s.1, s.2)

/-- CONFIGURE (R77). -/
def decodeConfigure (bs : List Byte) : Decoded :=
  match configureArgs bs with
  | some a => .ok a.1 a.2
  | none => .error .truncated

/-- SEND_FRAME: `23 LH LL D0 .. D(LEN-1)` (R77). -/
def decodeSendFrame : List Byte → Decoded
  | h :: l :: rest =>
      if rest.length < (join16 h l).toNat then .error .truncated
      else .ok (.sendFrame (join16 h l) (rest.take (join16 h l).toNat)) (rest.drop (join16 h l).toNat)
  | _ => .error .truncated

/-- RING_READ: `30 SS` (R77). -/
def decodeRingRead : List Byte → Decoded
  | s :: rest => .ok (.ringRead s) rest
  | _ => .error .truncated

/-- RING_WRITE: `31 SS VH VL` (R77). -/
def decodeRingWrite : List Byte → Decoded
  | s :: h :: l :: rest => .ok (.ringWrite s (join16 h l)) rest
  | _ => .error .truncated

/-- The decoder of host commands (R76, R77, R79, R80). -/
def decodeHost : List Byte → Decoded
  | [] => .error .truncated
  | op :: rest =>
      if op = opReadReg then decodeU16 .readReg rest
      else if op = opWriteReg then decodeWriteReg rest
      else if op = opConfigure then decodeConfigure rest
      else if op = opDisableEcho then .ok .disableEcho rest
      else if op = opGetMac then .ok .getMac rest
      else if op = opGetIp then .ok .getIp rest
      else if op = opGetGateway then .ok .getGateway rest
      else if op = opGetSubnet then .ok .getSubnet rest
      else if op = opEnableRaw then .ok .enableRaw rest
      else if op = opFrameAvailable then .ok .frameAvailable rest
      else if op = opReceiveFrame then decodeU16 .receiveFrame rest
      else if op = opSendFrame then decodeSendFrame rest
      else if op = opRingRead then decodeRingRead rest
      else if op = opRingWrite then decodeRingWrite rest
      else .error (.illegalOpcode op)

/-- The decoder of bus exchanges: one format, four bytes (R70 to R72); every other marker is reserved (R74). -/
def decodeExchange (c : Params) : List Byte → Decoded
  | b0 :: b1 :: b2 :: b3 :: rest =>
      if b0 = c.dirRead then
        if b3 = Config.placeholder then .ok (.busRead (join16 b1 b2)) rest else .error (.badPlaceholder b3)
      else if b0 = c.dirWrite then .ok (.busWrite (join16 b1 b2) b3) rest
      else .error (.reservedMarker b0)
  | _ => .error .truncated

/-- The decoder for the interface an instruction crosses: the bus port or the host command port. -/
def decodeAt (c : Params) (exchange : Bool) (bs : List Byte) : Decoded :=
  if exchange then decodeExchange c bs else decodeHost bs

/-- The length of the command that starts with these bytes (R80): fixed by byte 0, but for SEND_FRAME, whose length is
`3 + (b1 ++ b2)`; an illegal opcode is one byte long. -/
def commandLength (bs : List Byte) : Nat :=
  let op := bs.getD 0 0#8
  if op = opReadReg then 3
  else if op = opWriteReg then 4
  else if op = opConfigure then 19
  else if op = opReceiveFrame then 3
  else if op = opSendFrame then 3 + (join16 (bs.getD 1 0#8) (bs.getD 2 0#8)).toNat
  else if op = opRingRead then 2
  else if op = opRingWrite then 4
  else 1

/-! ### Encoding -/

/-- The bytes of a 16-bit field, high byte first (R76). -/
def bytes16 (v : U16) : List Byte := [hiByte v, loByte v]

/-- The opcode of a host command (R77); for a bus exchange its direction marker (R71, R72). -/
def Instr.firstByte (c : Params) : Instr → Byte
  | .busRead _ => c.dirRead
  | .busWrite _ _ => c.dirWrite
  | .readReg _ => opReadReg
  | .writeReg _ _ => opWriteReg
  | .configure _ _ _ _ => opConfigure
  | .disableEcho => opDisableEcho
  | .getMac => opGetMac
  | .getIp => opGetIp
  | .getGateway => opGetGateway
  | .getSubnet => opGetSubnet
  | .enableRaw => opEnableRaw
  | .frameAvailable => opFrameAvailable
  | .receiveFrame _ => opReceiveFrame
  | .sendFrame _ _ => opSendFrame
  | .ringRead _ => opRingRead
  | .ringWrite _ _ => opRingWrite

/-- The bytes after the first (R71, R72, R77). -/
def Instr.fieldBytes : Instr → List Byte
  | .busRead a => bytes16 a ++ [Config.placeholder]
  | .busWrite a v => bytes16 a ++ [v]
  | .readReg a => bytes16 a
  | .writeReg a v => bytes16 a ++ [v]
  | .configure mac ip gw sn => mac.toList ++ ip.toList ++ gw.toList ++ sn.toList
  | .disableEcho => []
  | .getMac => []
  | .getIp => []
  | .getGateway => []
  | .getSubnet => []
  | .enableRaw => []
  | .frameAvailable => []
  | .receiveFrame cap => bytes16 cap
  | .sendFrame len data => bytes16 len ++ data
  | .ringRead sel => [sel]
  | .ringWrite sel val => sel :: bytes16 val

/-- The byte string of an instruction (R70 to R72, R76, R77). -/
def encode (c : Params) (i : Instr) : List Byte := i.firstByte c :: i.fieldBytes

/-! ### Words numbered as the opcode table numbers them -/

/-- The bytes of a host-command row's word: byte 0 is bits 7..0, byte 1 is bits 15..8, and so on. -/
def commandBytes : Nat → Nat → List Byte
  | 0, _ => []
  | n + 1, w => BitVec.ofNat 8 w :: commandBytes n (w / 256)

/-- The bytes of a bus-exchange row's word, the 32-bit view `b0 ++ b1 ++ b2 ++ b3` of R70. -/
def exchangeBytes (w : Nat) : List Byte := (commandBytes 4 w).reverse

/-- Zero bytes up to the length of the command that the bytes start (operand bytes the table gives no bits). -/
def padCommand (bs : List Byte) : List Byte := bs ++ List.replicate (commandLength bs - bs.length) 0#8

/-- The byte string a table word stands for, with the interface it crosses (`true`: the bus port). A 32-bit word whose
low byte is the opcode of one of the two 32-bit command rows (WRITE_REG, RING_WRITE) is that command; any other 32-bit word
is read as an exchange (log 15). -/
def tableBytes (nbits w : Nat) : Bool × List Byte :=
  let host := padCommand (commandBytes (nbits / 8) w)
  if nbits = 32 ∧ BitVec.ofNat 8 w ∉ [opWriteReg, opRingWrite] then (true, exchangeBytes w) else (false, host)

/-- The instruction the decoder reads from a word numbered as the opcode table numbers it. -/
def decodeTableWord (nbits w : Nat) : Option Instr :=
  match decodeAt Params.default (tableBytes nbits w).1 (tableBytes nbits w).2 with
  | .ok i _ => some i
  | .error _ => none

end Sys2Proof
end

