-- ==== Sys2Proof/Machine/State.lean ====
section
/-! DEFINITION. The state of the block (`10_state.md`): its control state and position, its registers, its interfaces, and
what has crossed them; the faults and refusals a step can stop with; the state right after reset (R240). -/

namespace Sys2Proof.Machine

/-! ### Positions of the command procedures (R23)

One type for each shape of procedure; a constructor is one step of its pseudocode, named after what the step does. -/

/-- READ_REG (R108), WRITE_REG (R109): one exchange, then the response. -/
inductive RegStep where
  | xfer
  | respond
deriving DecidableEq, Repr

/-- CONFIGURE (R120, R121). The four field positions are loops over the index I. -/
inductive ConfigureStep where
  | closeSock
  | softReset
  | mac
  | ip
  | gateway
  | subnet
  | respond
deriving DecidableEq, Repr

/-- DISABLE_ECHO (R123). -/
inductive EchoStep where
  | readMr
  | writeMr
  | respond
deriving DecidableEq, Repr

/-- GET_MAC, GET_IP, GET_GATEWAY, GET_SUBNET (R124 to R127): a loop of reads, then the response. -/
inductive FetchStep where
  | bytes
  | respond
deriving DecidableEq, Repr

/-- ENABLE_RAW (R161). -/
inductive EnableStep where
  | rmsr
  | tmsr
  | sockMode
  | openCmd
  | status
  | check
  | respondTrue
  | closeCmd
  | closed
  | respondFalse
deriving DecidableEq, Repr

/-- FRAME_AVAILABLE (R180). -/
inductive AvailableStep where
  | cntHi
  | cntLo
  | respond
deriving DecidableEq, Repr

/-- RECEIVE_FRAME (R181). -/
inductive ReceiveStep where
  | cntHi
  | cntLo
  | checkEmpty
  | ptrHi
  | ptrLo
  | offset
  | hdrHi
  | hdrLo
  | header
  | checkLength
  | checkCapacity
  | split
  | tail
  | base
  | advance
  | rdHi
  | rdLo
  | acknowledge
  | respond
deriving DecidableEq, Repr

/-- SEND_FRAME (R200). -/
inductive SendStep where
  | fsrHi
  | fsrLo
  | checkFree
  | ptrHi
  | ptrLo
  | split
  | tail
  | base
  | advance
  | wrHi
  | wrLo
  | sendCmd
  | poll
  | checkIdle
  | respond
deriving DecidableEq, Repr

/-- RING_READ (R152), RING_WRITE (R153): the two exchanges of a pair, then the response. -/
inductive PairStep where
  | hi
  | lo
  | respond
deriving DecidableEq, Repr

/-- The sequencer position of a command in progress (R23). -/
inductive SeqStep where
  | readReg (p : RegStep)
  | writeReg (p : RegStep)
  | configure (p : ConfigureStep)
  | disableEcho (p : EchoStep)
  | getMac (p : FetchStep)
  | getIp (p : FetchStep)
  | getGateway (p : FetchStep)
  | getSubnet (p : FetchStep)
  | enableRaw (p : EnableStep)
  | frameAvailable (p : AvailableStep)
  | receiveFrame (p : ReceiveStep)
  | sendFrame (p : SendStep)
  | ringRead (p : PairStep)
  | ringWrite (p : PairStep)
deriving DecidableEq, Repr

/-- MODE (R20), with SEQ (R23): a position exists exactly while a command is in progress. -/
inductive Mode where
  | idle
  | busy (p : SeqStep)
  | halted
deriving DecidableEq, Repr

/-- SOCK (R21): the block's own view of socket 0. -/
inductive Sock where
  | closed
  | opened
deriving DecidableEq, Repr

/-- FAULT (R22). -/
structure FaultReg where
  code : Byte
  info : U16
deriving DecidableEq, Repr

/-- The faults of the block (`60_exceptions.md`, R222 to R228). Taking one is a next state, not a stop of the model. -/
inductive BlockFault where
  | busFault
  | illegalCommand
  | socketNotOpen
  | rxEmpty
  | rxLength
  | destOverflow
  | txLength
deriving DecidableEq, Repr

/-- The latched arguments of CONFIGURE, in the order of R24. -/
structure Idb where
  mac : Bytes6
  ip : Bytes4
  gw : Bytes4
  sn : Bytes4
deriving DecidableEq, Repr

/-- The working registers (R24). `hi16` is the local `hi` of Read16 (R104; log 18). -/
structure Regs where
  cmd : Byte
  addr : Addr
  data : Byte
  sel : Byte
  val : U16
  cap : U16
  len : U16
  idb : Idb
  rb : Bytes6
  cnt : U16
  ptr : U16
  off : BitVec 13
  hi : Byte
  lo : Byte
  hdr : U16
  doff : BitVec 13
  upper : BitVec 14
  left : U16
  free : U16
  nptr : U16
  stat : Byte
  mrv : Byte
  i : BitVec 17
  hi16 : Byte
deriving DecidableEq, Repr

/-- The four bytes of a bus exchange, as the block sends them (R70). -/
structure Frame where
  b0 : Byte
  b1 : Byte
  b2 : Byte
  b3 : Byte
deriving DecidableEq, Repr

/-- One exchange that has taken place: what the block sent and what the port returned (R14, R29). -/
structure Exchange where
  sent : Frame
  answer : BusAnswer
deriving DecidableEq, Repr

/-- The responses of R27. -/
inductive Response where
  | done
  | byte (v : Byte)
  | bytes (bs : List Byte)
  | bool (b : Bool)
  | u16 (v : U16)
  | count (n : U16)
  | fault (code : Byte) (info : U16)
  | halted (code : Byte)
deriving DecidableEq, Repr

/-- A byte memory in canonical form: strictly rising addresses (`Memory.wf`). An address that is not listed holds no byte
the block has written (log 6, log 7). -/
abbrev Memory := List Host.Cell

/-- The state of the machine. -/
structure State where
  cfg : Params
  mode : Mode
  sock : Sock
  fault : FaultReg
  x : Regs
  src : List Byte
  dest : Memory
  chip : Memory
  port : List Byte
  resets : List Nat
  answers : List BusAnswer
  draws : Nat
  trace : List Exchange
  responses : List Response
deriving DecidableEq, Repr

/-- The ways the model itself stops. None is a fault of the block (those are next states, R221); no state that a run
reaches raises one (log 20). -/
inductive Fault where
  /-- raised by SEND_FRAME's data write when the index lies outside SRC[0 .. LEN-1] (R28); safe -/
  | srcOutOfRange
  /-- raised by RECEIVE_FRAME's payload read when the index lies outside DEST[0 .. CAP-1] (R28); safe -/
  | destOutOfRange
  /-- raised by RING_READ or RING_WRITE in progress when the latched selector names no pair for it (R78); safe -/
  | noSelectedPair
deriving DecidableEq, Repr

/-- The things the model gives no meaning to. -/
inductive Refusal where
  /-- raised by exec's arm of an instruction that has no meaning yet; safe -/
  | notModelled (mnemonic : String)
  /-- raised by a step that is offered an incomplete command, which cannot reach the block (R79; log 10); safe -/
  | truncatedCommand
  /-- raised by a bus exchange that the block does not issue in this state: it is the only agent that drives the bus port
  (R29) and no command emits the exchange here (R74; log 14); safe -/
  | exchangeNotIssued
deriving DecidableEq, Repr

/-- The working registers after reset: unspecified by R240, zero here (DESIGN CHOICE, log 5). -/
def Regs.reset : Regs where
  cmd := 0#8
  addr := 0#16
  data := 0#8
  sel := 0#8
  val := 0#16
  cap := 0#16
  len := 0#16
  idb := ⟨⟨0#8, 0#8, 0#8, 0#8, 0#8, 0#8⟩, ⟨0#8, 0#8, 0#8, 0#8⟩, ⟨0#8, 0#8, 0#8, 0#8⟩, ⟨0#8, 0#8, 0#8, 0#8⟩⟩
  rb := ⟨0#8, 0#8, 0#8, 0#8, 0#8, 0#8⟩
  cnt := 0#16
  ptr := 0#16
  off := 0#13
  hi := 0#8
  lo := 0#8
  hdr := 0#16
  doff := 0#13
  upper := 0#14
  left := 0#16
  free := 0#16
  nptr := 0#16
  stat := 0#8
  mrv := 0#8
  i := 0#17
  hi16 := 0#8

/-- The machine right after power-on (R240): idle, socket closed, no fault, nothing presented, nothing exchanged. The
configuration is R10's default (log 4). -/
def State.reset : State where
  cfg := Params.default
  mode := .idle
  sock := .closed
  fault := ⟨0x00#8, 0x0000#16⟩
  x := Regs.reset
  src := []
  dest := []
  chip := []
  port := []
  resets := []
  answers := []
  draws := 0
  trace := []
  responses := []

end Sys2Proof.Machine
end

