-- ==== Sys2Proof/Machine/Ops.lean ====
section
/-! DEFINITION. The operations every command shares: byte memories, the updates of the state, fault entry (R221) and block
reset (R240), the bus exchange (R101 to R103), acceptance (R100), and `Action`, what one step of a procedure does. -/

namespace Sys2Proof.Machine

/-- What one step answers. -/
abbrev Result := Host.Outcome State Fault Refusal

/-! ### Byte memories in canonical form -/

/-- The byte at an address, where the block has written one. -/
def memRead : Memory → Nat → Option Byte
  | [], _ => none
  | (b, v) :: m, a => if b = a then some v else memRead m a

/-- Write one byte, keeping the addresses strictly rising. -/
def memWrite : Memory → Nat → Byte → Memory
  | [], a, v => [(a, v)]
  | (b, w) :: m, a, v =>
      if a < b then (a, v) :: (b, w) :: m else if a = b then (a, v) :: m else (b, w) :: memWrite m a v

/-- Write a list of bytes at ascending addresses. -/
def memWriteList : Memory → Nat → List Byte → Memory
  | m, _, [] => m
  | m, a, v :: vs => memWriteList (memWrite m a v) (a + 1) vs

/-- Every address of the list is above `a`, and the addresses rise strictly. -/
def Memory.risesAbove : Nat → Memory → Bool
  | _, [] => true
  | a, (b, _) :: m => (a < b) && Memory.risesAbove b m

/-- The canonical form: strictly rising addresses. No entry can equal what an unlisted address reads as, since an unlisted
address reads as no byte. -/
def Memory.wf : Memory → Bool
  | [] => true
  | (a, _) :: m => Memory.risesAbove a m

/-! ### Updates of the state -/

/-- Move the sequencer to a position of the command in progress (R23). -/
def State.goto (s : State) (p : SeqStep) : State := { s with mode := .busy p }

/-- Update working registers (R24). -/
def State.setRegs (s : State) (f : Regs → Regs) : State := { s with x := f s.x }

/-- Set SOCK (R21). -/
def State.setSock (s : State) (k : Sock) : State := { s with sock := k }

/-- Store a byte in the image of the chip register space (log 6). -/
def State.storeChip (s : State) (a : Addr) (v : Byte) : State := { s with chip := memWrite s.chip a.toNat v }

/-- `DEST[i] <- v` (R13, R28). -/
def State.storeDest (s : State) (i : Nat) (v : Byte) : State := { s with dest := memWrite s.dest i v }

/-- Send a response to the host (R27). -/
def State.send (s : State) (r : Response) : State := { s with responses := s.responses ++ [r] }

/-- `respond(r)`: send the response and return to IDLE (R27). -/
def State.respond (s : State) (r : Response) : State := { s with mode := .idle, responses := s.responses ++ [r] }

/-- `wait(PARAM)`: a delay; it is no step and has no effect (R234; log 16). -/
def State.wait (s : State) (_delay : Nat) : State := s

/-! ### Fault entry, and the only way out of it -/

/-- The code of a fault (R222 to R228). -/
def BlockFault.code : BlockFault → Byte
  | .busFault => 0x01#8
  | .illegalCommand => 0x02#8
  | .socketNotOpen => 0x03#8
  | .rxEmpty => 0x04#8
  | .rxLength => 0x05#8
  | .destOverflow => 0x06#8
  | .txLength => 0x07#8

/-- Fault entry `raise F(info)` (R221): FAULT is set, the block halts, the FAULT response is sent, nothing else changes. -/
def State.raise (s : State) (f : BlockFault) (info : U16) : State :=
  { s with
    mode := .halted
    fault := ⟨f.code, info⟩
    responses := s.responses ++ [.fault f.code info] }

/-- Block reset (R240 to R242): the block's own state returns to its reset values; the chip, the host's buffers and the
host's next commands are untouched, and the abandoned command gets no response. Working registers: log 5. -/
def State.blockReset (s : State) : State :=
  { s with mode := .idle, sock := .closed, fault := ⟨0x00#8, 0x0000#16⟩, x := Regs.reset }

/-! ### The bus exchange -/

/-- `[DIR_READ, a[15:8], a[7:0], PLACEHOLDER]` (R71). -/
def readFrame (c : Params) (a : Addr) : Frame := ⟨c.dirRead, hiByte a, loByte a, Config.placeholder⟩

/-- `[DIR_WRITE, a[15:8], a[7:0], v]` (R72). -/
def writeFrame (c : Params) (a : Addr) (v : Byte) : Frame := ⟨c.dirWrite, hiByte a, loByte a, v⟩

/-- What the bus port will return for the next exchange (R29, R63): the next given answer, or the chip's free value. -/
def State.nextAnswer (s : State) : BusAnswer :=
  match s.answers with
  | [] => Config.chipAnswer s.draws
  | r :: _ => r

/-- One exchange has taken place: its answer is used up and the trace holds it. -/
def State.exchanged (s : State) (f : Frame) : State :=
  { s with answers := s.answers.tail, draws := s.draws + 1, trace := s.trace ++ [⟨f, s.nextAnswer⟩] }

/-- A failed exchange raises BUS_FAULT with the exchange's address `b1 ++ b2` (R101, R222). -/
def State.busFault (s : State) (f : Frame) : State := s.raise .busFault (join16 f.b1 f.b2)

/-- `BusRead(a)` (R102): the read exchange; `k` is given the last byte returned and does the rest of the step. -/
def busRead (a : Addr) (k : Byte → State → State) (s : State) : State :=
  match s.nextAnswer with
  | .ok _ _ _ r3 => k r3 (s.exchanged (readFrame s.cfg a))
  | .fail _ => (s.exchanged (readFrame s.cfg a)).busFault (readFrame s.cfg a)

/-- `BusWrite(a, v)` (R103): the write exchange. A failed write may have been stored or not (U3; log 3). -/
def busWrite (a : Addr) (v : Byte) (k : State → State) (s : State) : State :=
  match s.nextAnswer with
  | .ok _ _ _ _ => k ((s.exchanged (writeFrame s.cfg a v)).storeChip a v)
  | .fail true => ((s.exchanged (writeFrame s.cfg a v)).storeChip a v).busFault (writeFrame s.cfg a v)
  | .fail false => (s.exchanged (writeFrame s.cfg a v)).busFault (writeFrame s.cfg a v)

/-! ### One step of a procedure -/

/-- What a procedure does at a position (R23): a read or write exchange with what follows it in the same step, an internal
computation, the response, a fault entry, or a stop of the model. -/
inductive Action where
  | read (a : Addr) (k : Byte → State → State)
  | write (a : Addr) (v : Byte) (k : State → State)
  | compute (t : State)
  | respond (r : Response)
  | raise (f : BlockFault) (info : U16)
  | stop (f : Fault)

/-- Perform the step. -/
def perform (act : Action) (s : State) : Result :=
  match act with
  | .read a k => .next (busRead a k s)
  | .write a v k => .next (busWrite a v k s)
  | .compute t => .next t
  | .respond r => .next (s.respond r)
  | .raise f info => .next (s.raise f info)
  | .stop f => .fault f

/-! ### Acceptance -/

/-- Acceptance (R100): MODE becomes BUSY at the command's first position, the opcode and the arguments are latched. The
checks that follow in the same step are the command's own. -/
def State.accept (s : State) (op : Byte) (latch : Regs → Regs) (p : SeqStep) : State :=
  { s with mode := .busy p, x := latch { s.x with cmd := op } }

/-- The answer to any command while HALTED (R230): `HALTED(FAULT.CODE)`, and no state of the block changes. -/
def State.answerHalted (s : State) : State := s.send (.halted s.fault.code)

/-- A command at the host port (R100): answered while HALTED, accepted while IDLE; while BUSY the port takes no command,
so a command makes its next step when it is the one in progress, and waits when it is not (log 13). -/
def onPort (s : State) (accepted : State) (inProgress : SeqStep → Option Action) : Result :=
  match s.mode with
  | .halted => .next s.answerHalted
  | .idle => .next accepted
  | .busy p =>
    match inProgress p with
    | some act => perform act s
    | none => .next s

/-- A byte string whose opcode is not in the map is accepted and raises ILLEGAL_COMMAND(opcode ++ 0x00) (R100, R223); a
halted block answers it as any other command (R229, R230). A busy port takes nothing. -/
def State.acceptIllegal (s : State) (op : Byte) : State :=
  match s.mode with
  | .halted => s.answerHalted
  | .idle => (s.setRegs fun x => { x with cmd := op }).raise .illegalCommand (join16 op 0x00#8)
  | .busy _ => s

/-! ### Response bytes -/

/-- The byte string of a response (R85). -/
def Response.encode : Response → List Byte
  | .done => [0x00#8]
  | .byte v => [0x00#8, v]
  | .bytes bs => 0x00#8 :: bs
  | .bool b => [0x00#8, if b then 0x01#8 else 0x00#8]
  | .u16 v => 0x00#8 :: bytes16 v
  | .count n => 0x00#8 :: bytes16 n
  | .fault code info => 0xE0#8 :: code :: bytes16 info
  | .halted code => [0xE1#8, code]

end Sys2Proof.Machine
end

