-- ==== Sys2Proof/Machine/Operands.lean ====
section
/-! DEFINITION. The operands of the commands: ring translation and the split (R141 to R143, R154), the register pairs
(R144 to R151), the bytes of the identity fields (R122), and the receive header's value (R54). -/

namespace Sys2Proof

/-! ### Bytes of the identity fields -/

/-- Byte `i` of a four-byte field (R122); a loop asks for bytes 0 .. 3 only. -/
def Bytes4.byte (b : Bytes4) (i : Nat) : Byte := b.toList.getD i 0x00#8

/-- Byte `i` of a six-byte field (R122); a loop asks for bytes 0 .. 5 only. -/
def Bytes6.byte (b : Bytes6) (i : Nat) : Byte := b.toList.getD i 0x00#8

/-- `RB[i] <- v` (R124 to R127). -/
def Bytes6.put (b : Bytes6) (i : Nat) (v : Byte) : Bytes6 :=
  match i with
  | 0 => { b with b0 := v }
  | 1 => { b with b1 := v }
  | 2 => { b with b2 := v }
  | 3 => { b with b3 := v }
  | 4 => { b with b4 := v }
  | 5 => { b with b5 := v }
  | _ => b

/-! ### Register pairs -/

/-- The first address of a register pair (R144 to R149). -/
def RingPair.address (c : Params) : RingPair → Addr
  | .rxRsr => c.addrS0RxRsr
  | .rxRd => c.addrS0RxRd
  | .rxWr => c.addrS0RxWr
  | .txFsr => c.addrS0TxFsr
  | .txRd => c.addrS0TxRd
  | .txWr => c.addrS0TxWr

end Sys2Proof

namespace Sys2Proof.Machine

/-! ### Addresses -/

/-- `n` addresses above `a`: `(a + n) mod 65536` (R104 to R107). -/
def addrPlus (a : Addr) (n : Nat) : Addr := a + BitVec.ofNat 16 n

/-- `p & RING_MASK` (R12, R140): the ring offset of a logical pointer. -/
def ringOffset (p : U16) : BitVec 13 := (p &&& Config.ringMask).setWidth 13

/-- `RxPhys(p) = RX_BASE + (p & RING_MASK)` (R141). -/
def rxPhys (c : Params) (p : U16) : Addr := c.rxBase + (p &&& Config.ringMask)

/-- `TxPhys(p) = TX_BASE + (p & RING_MASK)` (R142). -/
def txPhys (c : Params) (p : U16) : Addr := c.txBase + (p &&& Config.ringMask)

/-- `Advance(p, n) = (p + n) mod 65536` (R143). -/
def advancePtr (p n : U16) : U16 := p + n

/-- `Split(off, n)` (R154): how many bytes of a run come from the ring's tail, and how many from its base. -/
def ringSplit (off n : Nat) : Nat × Nat :=
  if off + n > Config.ringSize then (Config.ringSize - off, n - (Config.ringSize - off)) else (n, 0)

/-- The pair RING_READ reads for a selector (R78, R152). -/
def readPair (sel : Byte) : Option RingPair := ringPair sel

/-- The pair RING_WRITE writes for a selector (R78, R153). -/
def writePair (sel : Byte) : Option RingPair :=
  match ringPair sel with
  | some r => if r.writable then some r else none
  | none => none

/-! ### The receive header -/

/-- `HDR = HI ++ LO` (R54, R181), or the other order where the configuration says so (U19; log 17). -/
def headerValue (c : Params) (first second : Byte) : U16 :=
  if c.hdrBigEndian then join16 first second else join16 second first

end Sys2Proof.Machine
end

