-- ==== Sys2Proof/Machine/Flags.lean ====
section
/-! DEFINITION. The block has no condition flags (R47): the outcomes of a command are its response and FAULT. What stands
here are the comparisons its procedures branch on, each unsigned and exact (R12). -/

namespace Sys2Proof.Machine

/-- `CNT ≠ 0` (R180, R183 check 1). -/
def frameQueued (cnt : U16) : Bool := cnt != 0x0000#16

/-- `OFF + 2 > RING_SIZE`: the header's two bytes straddle the ring end (R182). -/
def headerStraddles (off : Nat) : Bool := off + Config.hdrLen > Config.ringSize

/-- `HDR + 2 > RING_SIZE` (R183 check 2). -/
def headerTooLong (hdr : U16) : Bool := hdr.toNat + Config.hdrLen > Config.ringSize

/-- `HDR > CAP` (R183 check 3). -/
def overflowsDest (hdr cap : U16) : Bool := hdr.toNat > cap.toNat

/-- `LEN > RING_SIZE` (R100, R228). -/
def frameTooLong (len : U16) : Bool := len.toNat > Config.ringSize

/-- `FREE ≥ LEN` (R201). -/
def enoughFree (free len : U16) : Bool := free.toNat ≥ len.toNat

/-- `STAT = SR_MACRAW`, exact equality of all eight bits (R82, R161). -/
def rawActive (stat : Byte) : Bool := stat == Config.srMacraw

/-- `STAT = CMD_IDLE` (R204). -/
def commandIdle (c : Params) (stat : Byte) : Bool := stat == c.cmdIdle

end Sys2Proof.Machine
end

