-- ==== Sys2Proof/Machine/Primitives.lean ====
section
/-! DEFINITION. The procedures the commands are built from (R104 to R107): the two exchanges of Read16 and Write16, and the
loops of ReadSeq and WriteSeq over the index I, each as the action at one position. -/

namespace Sys2Proof.Machine

/-- Set the loop index to 0 and move on: how a loop is entered (R13). The same step leaves every loop, also a command's last
one: that I holds 0 after it, where R13 and R24 give no value, is the model's choice (DESIGN CHOICE, log 28). -/
def State.enter (s : State) (p : SeqStep) : State := (s.setRegs fun x => { x with i := 0#17 }).goto p

/-- Count one pass of a loop; the position stays. -/
def State.bump (s : State) : State := s.setRegs fun x => { x with i := x.i + 1#17 }

/-- Read16, first exchange: the high byte, from `a` (R104). -/
def readHi (a : Addr) (p : SeqStep) : Action :=
  .read a fun v t => (t.setRegs fun x => { x with hi16 := v }).goto p

/-- Read16, second exchange: the low byte, from `a + 1`; `f` stores `hi ++ lo` (R104). -/
def readLo (a : Addr) (f : U16 → Regs → Regs) (p : SeqStep) : Action :=
  .read (addrPlus a 1) fun v t => (t.setRegs fun x => f (join16 x.hi16 v) x).goto p

/-- Write16, first exchange: bits 15:8 at `a` (R105). -/
def writeHi (a : Addr) (v : U16) (p : SeqStep) : Action := .write a (hiByte v) fun t => t.goto p

/-- Write16, second exchange: bits 7:0 at `a + 1` (R105). -/
def writeLo (a : Addr) (v : U16) (p : SeqStep) : Action := .write (addrPlus a 1) (loByte v) fun t => t.goto p

/-- ReadSeq(a, n) into RB (R106, R124 to R127): read byte I while I < n, else leave the loop. The local array b of R106 stands
in RB: each byte goes there with its own exchange, so a BUS_FAULT partway leaves RB partly new (DESIGN CHOICE, log 29). Leaving
the loop sets I to 0 (log 28). -/
def readSeq (a : Addr) (n : Nat) (next : SeqStep) (s : State) : Action :=
  if s.x.i.toNat < n then
    .read (addrPlus a s.x.i.toNat) fun v t => (t.setRegs fun x => { x with rb := x.rb.put x.i.toNat v }).bump
  else .compute (s.enter next)

/-- WriteSeq(a, bs) (R107) with `n` bytes, byte I being `byte I`: write it while I < n, else leave the loop,
which sets I to 0 (log 28). -/
def writeSeq (a : Addr) (n : Nat) (byte : Nat → Byte) (next : SeqStep) (s : State) : Action :=
  if s.x.i.toNat < n then .write (addrPlus a s.x.i.toNat) (byte s.x.i.toNat) fun t => t.bump
  else .compute (s.enter next)

end Sys2Proof.Machine
end

