-- ==== Sys2Proof/Machine/Configuration.lean ====
section
/-! DEFINITION. Device configuration (`41_config.md`): CONFIGURE (R120, R121), DISABLE_ECHO (R123), and the read-back
commands GET_MAC, GET_IP, GET_GATEWAY, GET_SUBNET (R124 to R127). None checks SOCK. -/

namespace Sys2Proof.Machine

/-- CONFIGURE's procedure (R120): SOCK closes, the chip is reset (R121), then the four identity fields are written. -/
def configureAction (p : ConfigureStep) (s : State) : Action :=
  match p with
  | .closeSock => .compute ((s.setSock .closed).goto (.configure .softReset))
  | .softReset => .write s.cfg.addrMr s.cfg.mrRst fun t => (t.wait Config.resetSettle).enter (.configure .mac)
  | .mac => writeSeq s.cfg.addrShar 6 s.x.idb.mac.byte (.configure .ip) s
  | .ip => writeSeq s.cfg.addrSipr 4 s.x.idb.ip.byte (.configure .gateway) s
  | .gateway => writeSeq s.cfg.addrGar 4 s.x.idb.gw.byte (.configure .subnet) s
  | .subnet => writeSeq s.cfg.addrSubr 4 s.x.idb.sn.byte (.configure .respond) s
  | .respond => .respond .done

/-- CONFIGURE (R100, R120). -/
def execConfigure (mac : Bytes6) (ip gw sn : Bytes4) (s : State) : Result :=
  onPort s (s.accept opConfigure (fun x => { x with idb := ⟨mac, ip, gw, sn⟩ }) (.configure .closeSock)) fun q =>
    match q with
    | .configure p => if s.x.idb = ⟨mac, ip, gw, sn⟩ then some (configureAction p s) else none
    | _ => none

/-- DISABLE_ECHO's procedure (R123): read MR, write it back with the ping-block bit set. -/
def disableEchoAction (p : EchoStep) (s : State) : Action :=
  match p with
  | .readMr => .read s.cfg.addrMr fun v t => (t.setRegs fun x => { x with mrv := v }).goto (.disableEcho .writeMr)
  | .writeMr => .write s.cfg.addrMr (s.x.mrv ||| s.cfg.mrPb) fun t => t.goto (.disableEcho .respond)
  | .respond => .respond .done

/-- DISABLE_ECHO (R100, R123). -/
def execDisableEcho (s : State) : Result :=
  onPort s (s.accept opDisableEcho id (.disableEcho .readMr)) fun q =>
    match q with
    | .disableEcho p => some (disableEchoAction p s)
    | _ => none

/-- GET_MAC's procedure (R124). -/
def getMacAction (p : FetchStep) (s : State) : Action :=
  match p with
  | .bytes => readSeq s.cfg.addrShar 6 (.getMac .respond) s
  | .respond => .respond (.bytes s.x.rb.toList)

/-- GET_MAC (R100, R124). -/
def execGetMac (s : State) : Result :=
  onPort s (s.accept opGetMac (fun x => { x with i := 0#17 }) (.getMac .bytes)) fun q =>
    match q with
    | .getMac p => some (getMacAction p s)
    | _ => none

/-- GET_IP's procedure (R125). -/
def getIpAction (p : FetchStep) (s : State) : Action :=
  match p with
  | .bytes => readSeq s.cfg.addrSipr 4 (.getIp .respond) s
  | .respond => .respond (.bytes (s.x.rb.toList.take 4))

/-- GET_IP (R100, R125). -/
def execGetIp (s : State) : Result :=
  onPort s (s.accept opGetIp (fun x => { x with i := 0#17 }) (.getIp .bytes)) fun q =>
    match q with
    | .getIp p => some (getIpAction p s)
    | _ => none

/-- GET_GATEWAY's procedure (R126). -/
def getGatewayAction (p : FetchStep) (s : State) : Action :=
  match p with
  | .bytes => readSeq s.cfg.addrGar 4 (.getGateway .respond) s
  | .respond => .respond (.bytes (s.x.rb.toList.take 4))

/-- GET_GATEWAY (R100, R126). -/
def execGetGateway (s : State) : Result :=
  onPort s (s.accept opGetGateway (fun x => { x with i := 0#17 }) (.getGateway .bytes)) fun q =>
    match q with
    | .getGateway p => some (getGatewayAction p s)
    | _ => none

/-- GET_SUBNET's procedure (R127). -/
def getSubnetAction (p : FetchStep) (s : State) : Action :=
  match p with
  | .bytes => readSeq s.cfg.addrSubr 4 (.getSubnet .respond) s
  | .respond => .respond (.bytes (s.x.rb.toList.take 4))

/-- GET_SUBNET (R100, R127). -/
def execGetSubnet (s : State) : Result :=
  onPort s (s.accept opGetSubnet (fun x => { x with i := 0#17 }) (.getSubnet .bytes)) fun q =>
    match q with
    | .getSubnet p => some (getSubnetAction p s)
    | _ => none

end Sys2Proof.Machine
end

