-- ==== Sys2Proof/Machine/Socket.lean ====
section
/-! DEFINITION. Socket initialization (`43_socket.md`): ENABLE_RAW (R161), and the check that a frame command finds the
socket open (R100, R224). -/

namespace Sys2Proof.Machine

/-- The acceptance of a frame command ends in SOCKET_NOT_OPEN(0x00 ++ opcode) when SOCK is not OPEN (R100, R224). -/
def State.requireOpen (s : State) : State :=
  match s.sock with
  | .opened => s
  | .closed => s.raise .socketNotOpen (join16 0x00#8 s.x.cmd)

/-- ENABLE_RAW's procedure (R161). -/
def enableRawAction (p : EnableStep) (s : State) : Action :=
  match p with
  | .rmsr => .write s.cfg.addrRmsr s.cfg.msrSock0All fun t => t.goto (.enableRaw .tmsr)
  | .tmsr => .write s.cfg.addrTmsr s.cfg.msrSock0All fun t => t.goto (.enableRaw .sockMode)
  | .sockMode => .write s.cfg.addrS0Mr s.cfg.s0MrMacraw fun t => t.goto (.enableRaw .openCmd)
  | .openCmd => .write s.cfg.addrS0Cr s.cfg.cmdOpen fun t => t.goto (.enableRaw .status)
  | .status => .read s.cfg.addrS0Sr fun v t => (t.setRegs fun x => { x with stat := v }).goto (.enableRaw .check)
  | .check =>
    if rawActive s.x.stat then .compute ((s.setSock .opened).goto (.enableRaw .respondTrue))
    else .compute (s.goto (.enableRaw .closeCmd))
  | .respondTrue => .respond (.bool true)
  | .closeCmd => .write s.cfg.addrS0Cr s.cfg.cmdClose fun t => t.goto (.enableRaw .closed)
  | .closed => .compute ((s.setSock .closed).goto (.enableRaw .respondFalse))
  | .respondFalse => .respond (.bool false)

/-- ENABLE_RAW (R100, R161). -/
def execEnableRaw (s : State) : Result :=
  onPort s (s.accept opEnableRaw id (.enableRaw .rmsr)) fun q =>
    match q with
    | .enableRaw p => some (enableRawAction p s)
    | _ => none

end Sys2Proof.Machine
end

