-- ==== Sys2Proof/Machine/Receive.lean ====
section
/-! DEFINITION. The receive sequence (`44_receive.md`): FRAME_AVAILABLE (R180), RECEIVE_FRAME (R181 to R187). -/

namespace Sys2Proof.Machine

/-- FRAME_AVAILABLE's procedure (R180). -/
def frameAvailableAction (p : AvailableStep) (s : State) : Action :=
  match p with
  | .cntHi => readHi s.cfg.addrS0RxRsr (.frameAvailable .cntLo)
  | .cntLo => readLo s.cfg.addrS0RxRsr (fun v x => { x with cnt := v }) (.frameAvailable .respond)
  | .respond => .respond (.bool (frameQueued s.x.cnt))

/-- FRAME_AVAILABLE (R100, R180). -/
def execFrameAvailable (s : State) : Result :=
  onPort s (s.accept opFrameAvailable id (.frameAvailable .cntHi)).requireOpen fun q =>
    match q with
    | .frameAvailable p => some (frameAvailableAction p s)
    | _ => none

/-- One pass of a payload loop (R184): `DEST[index] <- BusRead(address)` while I < n, else leave the loop. -/
def payloadLoop (n : Nat) (index : Nat) (a : Addr) (next : SeqStep) (s : State) : Action :=
  if s.x.i.toNat < n then
    if index < s.x.cap.toNat then .read a fun v t => (t.storeDest index v).bump
    else .stop .destOutOfRange
  else .compute (s.enter next)

/-- RECEIVE_FRAME's procedure (R181). -/
def receiveFrameAction (p : ReceiveStep) (s : State) : Action :=
  match p with
  | .cntHi => readHi s.cfg.addrS0RxRsr (.receiveFrame .cntLo)
  | .cntLo => readLo s.cfg.addrS0RxRsr (fun v x => { x with cnt := v }) (.receiveFrame .checkEmpty)
  | .checkEmpty =>
    if frameQueued s.x.cnt then .compute (s.goto (.receiveFrame .ptrHi)) else .raise .rxEmpty 0x0000#16
  | .ptrHi => readHi s.cfg.addrS0RxRd (.receiveFrame .ptrLo)
  | .ptrLo => readLo s.cfg.addrS0RxRd (fun v x => { x with ptr := v }) (.receiveFrame .offset)
  | .offset =>
    .compute ((s.setRegs fun x => { x with off := ringOffset x.ptr }).goto (.receiveFrame .hdrHi))
  | .hdrHi =>
    .read (addrPlus s.cfg.rxBase s.x.off.toNat) fun v t =>
      (t.setRegs fun x => { x with hi := v }).goto (.receiveFrame .hdrLo)
  | .hdrLo =>
    .read (if headerStraddles s.x.off.toNat then s.cfg.rxBase else addrPlus s.cfg.rxBase (s.x.off.toNat + 1)) fun v t =>
      (t.setRegs fun x => { x with lo := v }).goto (.receiveFrame .header)
  | .header =>
    .compute ((s.setRegs fun x =>
      { x with
        doff := ringOffset (BitVec.ofNat 16 (x.off.toNat + Config.hdrLen))
        hdr := headerValue s.cfg x.hi x.lo }).goto (.receiveFrame .checkLength))
  | .checkLength =>
    if headerTooLong s.x.hdr then .raise .rxLength s.x.hdr else .compute (s.goto (.receiveFrame .checkCapacity))
  | .checkCapacity =>
    if overflowsDest s.x.hdr s.x.cap then .raise .destOverflow s.x.hdr
    else .compute (s.goto (.receiveFrame .split))
  | .split =>
    .compute ((s.setRegs fun x =>
      { x with
        upper := BitVec.ofNat 14 (ringSplit x.doff.toNat x.hdr.toNat).1
        left := BitVec.ofNat 16 (ringSplit x.doff.toNat x.hdr.toNat).2 }).enter (.receiveFrame .tail))
  | .tail =>
    payloadLoop s.x.upper.toNat s.x.i.toNat (addrPlus s.cfg.rxBase (s.x.doff.toNat + s.x.i.toNat))
      (.receiveFrame .base) s
  | .base =>
    payloadLoop s.x.left.toNat (s.x.upper.toNat + s.x.i.toNat) (addrPlus s.cfg.rxBase s.x.i.toNat)
      (.receiveFrame .advance) s
  | .advance =>
    .compute ((s.setRegs fun x => { x with nptr := advancePtr x.ptr x.cnt }).goto (.receiveFrame .rdHi))
  | .rdHi => writeHi s.cfg.addrS0RxRd s.x.nptr (.receiveFrame .rdLo)
  | .rdLo => writeLo s.cfg.addrS0RxRd s.x.nptr (.receiveFrame .acknowledge)
  | .acknowledge => .write s.cfg.addrS0Cr s.cfg.cmdRecv fun t => t.goto (.receiveFrame .respond)
  | .respond => .respond (.count s.x.cnt)

/-- RECEIVE_FRAME (R100, R181). -/
def execReceiveFrame (cap : U16) (s : State) : Result :=
  onPort s (s.accept opReceiveFrame (fun x => { x with cap := cap }) (.receiveFrame .cntHi)).requireOpen fun q =>
    match q with
    | .receiveFrame p => if s.x.cap = cap then some (receiveFrameAction p s) else none
    | _ => none

end Sys2Proof.Machine
end

