-- ==== Sys2Proof/Machine/Ring.lean ====
section
/-! DEFINITION. The ring commands (`42_ring.md`): RING_READ (R152), RING_WRITE (R153). Neither checks SOCK. -/

namespace Sys2Proof.Machine

/-- RING_READ's procedure (R152): Read16 of the selected pair into VAL. -/
def ringReadAction (p : PairStep) (s : State) : Action :=
  match p with
  | .hi =>
    match readPair s.x.sel with
    | some r => readHi (r.address s.cfg) (.ringRead .lo)
    | none => .stop .noSelectedPair
  | .lo =>
    match readPair s.x.sel with
    | some r => readLo (r.address s.cfg) (fun v x => { x with val := v }) (.ringRead .respond)
    | none => .stop .noSelectedPair
  | .respond => .respond (.u16 s.x.val)

/-- RING_READ's acceptance: an illegal selector raises ILLEGAL_COMMAND(opcode ++ SEL) (R100, R223). -/
def ringReadAccepted (sel : Byte) (s : State) : State :=
  let t := s.accept opRingRead (fun x => { x with sel := sel }) (.ringRead .hi)
  match readPair sel with
  | some _ => t
  | none => t.raise .illegalCommand (join16 t.x.cmd t.x.sel)

/-- RING_READ (R100, R152). -/
def execRingRead (sel : Byte) (s : State) : Result :=
  onPort s (ringReadAccepted sel s) fun q =>
    match q with
    | .ringRead p => if s.x.sel = sel then some (ringReadAction p s) else none
    | _ => none

/-- RING_WRITE's procedure (R153): Write16 of VAL, as given, to the selected pair. -/
def ringWriteAction (p : PairStep) (s : State) : Action :=
  match p with
  | .hi =>
    match writePair s.x.sel with
    | some r => writeHi (r.address s.cfg) s.x.val (.ringWrite .lo)
    | none => .stop .noSelectedPair
  | .lo =>
    match writePair s.x.sel with
    | some r => writeLo (r.address s.cfg) s.x.val (.ringWrite .respond)
    | none => .stop .noSelectedPair
  | .respond => .respond .done

/-- RING_WRITE's acceptance: a selector R78 marks "no" raises ILLEGAL_COMMAND(opcode ++ SEL) (R100, R223). -/
def ringWriteAccepted (sel : Byte) (val : U16) (s : State) : State :=
  let t := s.accept opRingWrite (fun x => { x with sel := sel, val := val }) (.ringWrite .hi)
  match writePair sel with
  | some _ => t
  | none => t.raise .illegalCommand (join16 t.x.cmd t.x.sel)

/-- RING_WRITE (R100, R153). -/
def execRingWrite (sel : Byte) (val : U16) (s : State) : Result :=
  onPort s (ringWriteAccepted sel val s) fun q =>
    match q with
    | .ringWrite p => if s.x.sel = sel ∧ s.x.val = val then some (ringWriteAction p s) else none
    | _ => none

end Sys2Proof.Machine
end

