-- ==== Sys2Proof/Machine/Transmit.lean ====
section
/-! DEFINITION. The transmit sequence (`45_transmit.md`): SEND_FRAME (R200 to R205). -/

namespace Sys2Proof.Machine

/-- One pass of a frame loop (R202): `BusWrite(address, SRC[index])` while I < n, else leave the loop. -/
def frameLoop (n : Nat) (index : Nat) (a : Addr) (next : SeqStep) (s : State) : Action :=
  if s.x.i.toNat < n then
    match s.src[index]? with
    | some v => .write a v fun t => t.bump
    | none => .stop .srcOutOfRange
  else .compute (s.enter next)

/-- SEND_FRAME's procedure (R200). -/
def sendFrameAction (p : SendStep) (s : State) : Action :=
  match p with
  | .fsrHi => readHi s.cfg.addrS0TxFsr (.sendFrame .fsrLo)
  | .fsrLo => readLo s.cfg.addrS0TxFsr (fun v x => { x with free := v }) (.sendFrame .checkFree)
  | .checkFree =>
    if enoughFree s.x.free s.x.len then .compute (s.goto (.sendFrame .ptrHi))
    else .compute ((s.wait Config.pollInterval).goto (.sendFrame .fsrHi))
  | .ptrHi => readHi s.cfg.addrS0TxWr (.sendFrame .ptrLo)
  | .ptrLo => readLo s.cfg.addrS0TxWr (fun v x => { x with ptr := v }) (.sendFrame .split)
  | .split =>
    .compute ((s.setRegs fun x =>
      { x with
        off := ringOffset x.ptr
        upper := BitVec.ofNat 14 (ringSplit (ringOffset x.ptr).toNat x.len.toNat).1
        left := BitVec.ofNat 16 (ringSplit (ringOffset x.ptr).toNat x.len.toNat).2 }).enter (.sendFrame .tail))
  | .tail =>
    frameLoop s.x.upper.toNat s.x.i.toNat (addrPlus s.cfg.txBase (s.x.off.toNat + s.x.i.toNat)) (.sendFrame .base) s
  | .base =>
    frameLoop s.x.left.toNat (s.x.upper.toNat + s.x.i.toNat) (addrPlus s.cfg.txBase s.x.i.toNat)
      (.sendFrame .advance) s
  | .advance =>
    .compute ((s.setRegs fun x => { x with nptr := advancePtr x.ptr x.len }).goto (.sendFrame .wrHi))
  | .wrHi => writeHi s.cfg.addrS0TxWr s.x.nptr (.sendFrame .wrLo)
  | .wrLo => writeLo s.cfg.addrS0TxWr s.x.nptr (.sendFrame .sendCmd)
  | .sendCmd => .write s.cfg.addrS0Cr s.cfg.cmdSend fun t => t.goto (.sendFrame .poll)
  | .poll => .read s.cfg.addrS0Cr fun v t => (t.setRegs fun x => { x with stat := v }).goto (.sendFrame .checkIdle)
  | .checkIdle =>
    if commandIdle s.cfg s.x.stat then .compute (s.goto (.sendFrame .respond))
    else .compute ((s.wait Config.pollInterval).goto (.sendFrame .poll))
  | .respond => .respond (.bool true)

/-- SEND_FRAME's acceptance: LEN is latched and SRC is the command's data (R28, R100; log 8); then SOCK is checked, and
after it the length (R228, R229). -/
def sendFrameAccepted (len : U16) (data : List Byte) (s : State) : State :=
  let t := ({ s with src := data }).accept opSendFrame (fun x => { x with len := len }) (.sendFrame .fsrHi)
  match t.sock with
  | .closed => t.requireOpen
  | .opened => if frameTooLong t.x.len then t.raise .txLength t.x.len else t

/-- SEND_FRAME (R100, R200). -/
def execSendFrame (len : U16) (data : List Byte) (s : State) : Result :=
  onPort s (sendFrameAccepted len data s) fun q =>
    match q with
    | .sendFrame p => if s.x.len = len ∧ s.src = data then some (sendFrameAction p s) else none
    | _ => none

end Sys2Proof.Machine
end

