-- ==== Sys2Proof/Machine/Transport.lean ====
section
/-! DEFINITION. The raw register commands (`40_transport.md`): READ_REG (R108), WRITE_REG (R109). -/

namespace Sys2Proof.Machine

/-- READ_REG's procedure (R108). -/
def readRegAction (p : RegStep) (s : State) : Action :=
  match p with
  | .xfer => .read s.x.addr fun v t => (t.setRegs fun x => { x with data := v }).goto (.readReg .respond)
  | .respond => .respond (.byte s.x.data)

/-- READ_REG (R100, R108). -/
def execReadReg (a : Addr) (s : State) : Result :=
  onPort s (s.accept opReadReg (fun x => { x with addr := a }) (.readReg .xfer)) fun q =>
    match q with
    | .readReg p => if s.x.addr = a then some (readRegAction p s) else none
    | _ => none

/-- WRITE_REG's procedure (R109). -/
def writeRegAction (p : RegStep) (s : State) : Action :=
  match p with
  | .xfer => .write s.x.addr s.x.data fun t => t.goto (.writeReg .respond)
  | .respond => .respond .done

/-- WRITE_REG (R100, R109). -/
def execWriteReg (a : Addr) (v : Byte) (s : State) : Result :=
  onPort s (s.accept opWriteReg (fun x => { x with addr := a, data := v }) (.writeReg .xfer)) fun q =>
    match q with
    | .writeReg p => if s.x.addr = a ∧ s.x.data = v then some (writeRegAction p s) else none
    | _ => none

end Sys2Proof.Machine
end

