-- ==== Sys2Proof/Machine/Bus.lean ====
section
/-! DEFINITION. The bus exchanges BUS_READ (R102) and BUS_WRITE (R103) as the block issues them: the command in progress
is at a position whose action is the exchange, and the exchange with what belongs to it is one step (R23, R101). -/

namespace Sys2Proof.Machine

/-- What the procedure of the command in progress does at its position (R23, R88). -/
def SeqStep.action (q : SeqStep) (s : State) : Action :=
  match q with
  | .readReg p => readRegAction p s
  | .writeReg p => writeRegAction p s
  | .configure p => configureAction p s
  | .disableEcho p => disableEchoAction p s
  | .getMac p => getMacAction p s
  | .getIp p => getIpAction p s
  | .getGateway p => getGatewayAction p s
  | .getSubnet p => getSubnetAction p s
  | .enableRaw p => enableRawAction p s
  | .frameAvailable p => frameAvailableAction p s
  | .receiveFrame p => receiveFrameAction p s
  | .sendFrame p => sendFrameAction p s
  | .ringRead p => ringReadAction p s
  | .ringWrite p => ringWriteAction p s

/-- The exchange an action makes, if it makes one. -/
def Action.exchange : Action → Option Instr
  | .read a _ => some (.busRead a)
  | .write a v _ => some (.busWrite a v)
  | .compute _ => none
  | .respond _ => none
  | .raise _ _ => none
  | .stop _ => none

/-- The exchange the block issues in this state: none while IDLE or HALTED (R20, R29). -/
def State.issued (s : State) : Option Instr :=
  match s.mode with
  | .idle => none
  | .busy q => (q.action s).exchange
  | .halted => none

/-- An exchange the block issues is performed, with what belongs to the same step; any other is not the block's to make
(R29, R74; log 14). -/
def performIssued (b : Instr) (s : State) : Result :=
  match s.mode with
  | .idle => .refused .exchangeNotIssued
  | .halted => .refused .exchangeNotIssued
  | .busy q => if (q.action s).exchange = some b then perform (q.action s) s else .refused .exchangeNotIssued

/-- BUS_READ (R102). -/
def execBusRead (a : Addr) (s : State) : Result := performIssued (.busRead a) s

/-- BUS_WRITE (R103). -/
def execBusWrite (a : Addr) (v : Byte) (s : State) : Result := performIssued (.busWrite a v) s

end Sys2Proof.Machine
end

