-- ==== Sys2Proof/Machine/Dispatch.lean ====
section
/-! DEFINITION. The dispatch: one arm for each constructor of Instr, each a direct call of its meaning. -/

namespace Sys2Proof.Machine

def exec (i : Instr) (s : State) : Host.Outcome State Fault Refusal :=
  match i with
  | .busRead a => Sys2Proof.Machine.execBusRead a s
  | .busWrite a v => Sys2Proof.Machine.execBusWrite a v s
  | .readReg a => Sys2Proof.Machine.execReadReg a s
  | .writeReg a v => Sys2Proof.Machine.execWriteReg a v s
  | .configure mac ip gw sn => Sys2Proof.Machine.execConfigure mac ip gw sn s
  | .disableEcho => Sys2Proof.Machine.execDisableEcho s
  | .getMac => Sys2Proof.Machine.execGetMac s
  | .getIp => Sys2Proof.Machine.execGetIp s
  | .getGateway => Sys2Proof.Machine.execGetGateway s
  | .getSubnet => Sys2Proof.Machine.execGetSubnet s
  | .enableRaw => Sys2Proof.Machine.execEnableRaw s
  | .frameAvailable => Sys2Proof.Machine.execFrameAvailable s
  | .receiveFrame cap => Sys2Proof.Machine.execReceiveFrame cap s
  | .sendFrame len data => Sys2Proof.Machine.execSendFrame len data s
  | .ringRead sel => Sys2Proof.Machine.execRingRead sel s
  | .ringWrite sel val => Sys2Proof.Machine.execRingWrite sel val s

end Sys2Proof.Machine
end

