-- ==== Sys2Proof/Machine/Fetch.lean ====
section
/-! DEFINITION. Where a step finds what it runs: the command in progress (R23), the next command at the host port (R26,
R100), the host's reset input (R242); and how a table word is placed there (log 15). -/

namespace Sys2Proof.Machine

/-- The command in progress, from its position and its latched arguments (R23, R24). -/
def SeqStep.instr (q : SeqStep) (s : State) : Instr :=
  match q with
  | .readReg _ => .readReg s.x.addr
  | .writeReg _ => .writeReg s.x.addr s.x.data
  | .configure _ => .configure s.x.idb.mac s.x.idb.ip s.x.idb.gw s.x.idb.sn
  | .disableEcho _ => .disableEcho
  | .getMac _ => .getMac
  | .getIp _ => .getIp
  | .getGateway _ => .getGateway
  | .getSubnet _ => .getSubnet
  | .enableRaw _ => .enableRaw
  | .frameAvailable _ => .frameAvailable
  | .receiveFrame _ => .receiveFrame s.x.cap
  | .sendFrame _ => .sendFrame s.x.len s.src
  | .ringRead _ => .ringRead s.x.sel
  | .ringWrite _ => .ringWrite s.x.sel s.x.val

/-- One step passes on the host's reset schedule (log 12): the head is the number of steps until its next reset. -/
def State.tick (s : State) : State :=
  match s.resets with
  | [] => s
  | n :: r => { s with resets := (n - 1) :: r }

/-- The host asserts block reset in front of this step. -/
def State.resetDue (s : State) : Bool :=
  match s.resets with
  | [] => false
  | n :: _ => n == 0

/-- The step of a block that no command keeps busy: it takes the next command, or waits (R26, R100; log 9 to log 11). -/
def takeCommand (s : State) : Result :=
  match s.port with
  | [] => .next s
  | bs =>
    match decodeHost bs with
    | .ok i rest => exec i { s with port := rest }
    | .error (.illegalOpcode op) => .next ({ s with port := bs.tail }.acceptIllegal op)
    | .error _ => .refused .truncatedCommand

/-- The step of the block when no reset is asserted (R23). -/
def advanceBlock (s : State) : Result :=
  match s.mode with
  | .busy q => exec (q.instr s) s
  | .idle => takeCommand s
  | .halted => takeCommand s

/-- Make the next step one that takes a command: no reset in front of it, no command in progress. -/
def State.readyToTake (s : State) : State :=
  { s with
    resets := s.resets.dropWhile (· == 0)
    mode := match s.mode with
      | .busy _ => .idle
      | .idle => .idle
      | .halted => .halted }

/-- Present a command's bytes in front of the host's further ones. -/
def State.present (s : State) (bs : List Byte) : State := { s.readyToTake with port := bs ++ s.port }

/-- An exchange is answered: by the answer the state already gives, else by four zero bytes (log 15). -/
def State.answered (s : State) : State :=
  { s with answers := match s.answers with
      | [] => [.ok 0#8 0#8 0#8 0#8]
      | r :: rs => r :: rs }

/-- The block at the position of READ_REG that issues the read exchange of `a` (log 15). -/
def State.placeRead (s : State) (a : Addr) : State :=
  s.readyToTake.answered.accept opReadReg (fun x => { x with addr := a }) (.readReg .xfer)

/-- The block at the position of WRITE_REG that issues the write exchange of `v` at `a` (log 15). -/
def State.placeWrite (s : State) (a : Addr) (v : Byte) : State :=
  s.readyToTake.answered.accept opWriteReg (fun x => { x with addr := a, data := v }) (.writeReg .xfer)

/-- Place the byte string of a table word where the next step runs it. -/
def State.placeWord (s : State) (nbits w : Nat) : State :=
  match decodeTableWord nbits w with
  | some (.busRead a) => s.placeRead a
  | some (.busWrite a v) => s.placeWrite a v
  | some _ => s.present (tableBytes nbits w).2
  | none => s.present (tableBytes nbits w).2

end Sys2Proof.Machine
end

