-- ==== Sys2Proof/Machine/Step.lean ====
section
/-! DEFINITION. One step of the machine (R23, R242), and the state in which the next step runs a table word. -/

namespace Sys2Proof.Machine

/-- One step: the host's block reset where it is due (R229, R242), else the block's own next step. -/
def step (s : State) : Host.Outcome State Fault Refusal :=
  if s.resetDue then .next ({ s with resets := s.resets.tail }.blockReset) else advanceBlock s.tick

/-- The state `s` with a table word placed where `step` runs it next (log 15). -/
def State.withFetchWord (s : State) (nbits w : Nat) : State := s.placeWord nbits w

end Sys2Proof.Machine
end

