-- ==== Sys2Proof/Machine/Assembler.lean ====
section
/-! DEFINITION. The expansion of the pseudo-instructions (R87) and the assembler line of an instruction (R86; the trace
notation of R14 for a bus exchange). -/

namespace Sys2Proof

/-- The commands a pseudo-instruction stands for (R87). -/
def Pseudo.expand (c : Params) : Pseudo → List Instr
  | .read16 a => [.readReg a, .readReg (Machine.addrPlus a 1)]
  | .write16 a v => [.writeReg a (hiByte v), .writeReg (Machine.addrPlus a 1) (loByte v)]
  | .sockCmd cmd => [.writeReg c.addrS0Cr cmd]
  | .getStatus => [.readReg c.addrS0Sr]
  | .receiveFrame => [.receiveFrame 0xFFFF#16]

/-- One hexadecimal digit. -/
def hexDigit (n : Nat) : String :=
  ["0", "1", "2", "3", "4", "5", "6", "7", "8", "9", "A", "B", "C", "D", "E", "F"].getD (n % 16) "0"

/-- The last `k` hexadecimal digits of a number. -/
def hexDigits : Nat → Nat → String
  | 0, _ => ""
  | k + 1, n => hexDigits k (n / 16) ++ hexDigit n

/-- A byte as `0x..` (R86: numbers are decimal or `0x` hexadecimal). -/
def byteText (v : Byte) : String := "0x" ++ hexDigits 2 v.toNat

/-- A 16-bit number as `0x....`. -/
def wordText (v : U16) : String := "0x" ++ hexDigits 4 v.toNat

/-- Texts with a separator between them. -/
def joinText (sep : String) : List String → String
  | [] => ""
  | [t] => t
  | t :: u :: ts => t ++ sep ++ joinText sep (u :: ts)

/-- `hh:hh:hh:hh:hh:hh`. -/
def macText (m : Bytes6) : String := joinText ":" (m.toList.map fun v => hexDigits 2 v.toNat)

/-- `d.d.d.d`. -/
def quadText (q : Bytes4) : String := joinText "." (q.toList.map fun v => toString v.toNat)

/-- The name of a ring selector (R78, R86); the number of one that has no name. -/
def selText (sel : Byte) : String :=
  match ringPair sel with
  | some .rxRsr => "RX_RSR"
  | some .rxRd => "RX_RD"
  | some .rxWr => "RX_WR"
  | some .txFsr => "TX_FSR"
  | some .txRd => "TX_RD"
  | some .txWr => "TX_WR"
  | none => byteText sel

/-- The assembler line of a command (R86); the trace notation of an exchange (R14). -/
def Instr.line : Instr → String
  | .busRead a => "Rd(" ++ wordText a ++ ")"
  | .busWrite a v => "Wr(" ++ wordText a ++ "," ++ byteText v ++ ")"
  | .readReg a => "READ_REG " ++ wordText a
  | .writeReg a v => "WRITE_REG " ++ wordText a ++ ", " ++ byteText v
  | .configure mac ip gw sn =>
      "CONFIGURE " ++ joinText ", " [macText mac, quadText ip, quadText gw, quadText sn]
  | .disableEcho => "DISABLE_ECHO"
  | .getMac => "GET_MAC"
  | .getIp => "GET_IP"
  | .getGateway => "GET_GATEWAY"
  | .getSubnet => "GET_SUBNET"
  | .enableRaw => "ENABLE_RAW"
  | .frameAvailable => "FRAME_AVAILABLE"
  | .receiveFrame cap => "RECEIVE_FRAME " ++ toString cap.toNat
  | .sendFrame len data => "SEND_FRAME " ++ toString len.toNat ++ ", [" ++ joinText ", " (data.map byteText) ++ "]"
  | .ringRead sel => "RING_READ " ++ selText sel
  | .ringWrite sel val => "RING_WRITE " ++ selText sel ++ ", " ++ wordText val

end Sys2Proof
end

