-- ==== Sys2Proof/Safety.lean ====
section
/-! DEFINITION. The terms claims use: a command executed over several steps, the invariant of the machine, what the trace
says the block has stored in the chip, and what counts as a safe run. -/

namespace Sys2Proof.Machine

/-! ### A command over several steps -/

/-- A command is in progress (R20). -/
def State.isBusy (s : State) : Bool :=
  match s.mode with
  | .idle => false
  | .busy _ => true
  | .halted => false

/-- From `s`, `exec i` answers a next state `n + 1` times in a row: the first `n` leave the command in progress, the last
one ends it, in `t`. -/
def Completes (i : Instr) : Nat → State → State → Prop
  | 0, s, t => exec i s = .next t ∧ t.isBusy = false
  | n + 1, s, t => ∃ u, exec i s = .next u ∧ u.isBusy = true ∧ Completes i n u t

/-- From `s`, `exec i` answers a next state `n` times in a row, each leaves the command in progress, the last is `t`. -/
def Continues (i : Instr) : Nat → State → State → Prop
  | 0, s, t => s = t
  | n + 1, s, t => ∃ u, exec i s = .next u ∧ u.isBusy = true ∧ Continues i n u t

/-- From `s`, the machine takes `n` steps in a row, and the last one leads to `t`. -/
def Steps : Nat → State → State → Prop
  | 0, s, t => s = t
  | n + 1, s, t => ∃ u, step s = .next u ∧ Steps n u t

/-! ### Exchanges and the trace -/

/-- An exchange in the trace notation of R14: `Rd(a)` and `Wr(a,v)`. -/
inductive BusOp where
  | rd (a : Addr)
  | wr (a : Addr) (v : Byte)
deriving DecidableEq, Repr

/-- The four bytes of a successful exchange's return (R29, R73). -/
structure Reply where
  r0 : Byte
  r1 : Byte
  r2 : Byte
  r3 : Byte
deriving DecidableEq, Repr

/-- A successful exchange's answer. -/
def Reply.answer (r : Reply) : BusAnswer := .ok r.r0 r.r1 r.r2 r.r3

/-- The four bytes an exchange sends (R71, R72). -/
def BusOp.frame (c : Params) : BusOp → Frame
  | .rd a => readFrame c a
  | .wr a v => writeFrame c a v

/-- The trace of a list of exchanges that all succeed. -/
def busTrace (c : Params) (ops : List BusOp) (rs : List Reply) : List Exchange :=
  List.zipWith (fun o r => ⟨o.frame c, r.answer⟩) ops rs

/-- What a list of successful exchanges stores in the chip. -/
def chipWrites : Memory → List BusOp → Memory
  | m, [] => m
  | m, .rd _ :: os => chipWrites m os
  | m, .wr a v :: os => chipWrites (memWrite m a.toNat v) os

/-- What the bus port will return for the `k`-th exchange from here. -/
def State.upcoming (s : State) (k : Nat) : BusAnswer :=
  match s.answers[k]? with
  | some r => r
  | none => Config.chipAnswer (s.draws + k)

/-- The next exchanges succeed, with these four bytes each. -/
def State.repliesWith (s : State) (rs : List Reply) : Prop :=
  ∀ k r, rs[k]? = some r → s.upcoming k = r.answer

/-- The payload reads of a received frame (R155, R184): byte `i` of the run is at ring offset `(off + i) mod RING_SIZE`. -/
def rxReads (c : Params) (off n : Nat) : List BusOp :=
  (List.range n).map fun i => .rd (addrPlus c.rxBase ((off + i) % Config.ringSize))

/-- The data writes of a frame sent (R155, R202): byte `i` of the run is at ring offset `(off + i) mod RING_SIZE`. -/
def txWrites (c : Params) (off : Nat) (data : List Byte) : List BusOp :=
  data.mapIdx fun i v => .wr (addrPlus c.txBase ((off + i) % Config.ringSize)) v

/-- WriteSeq(a, bs) (R107). -/
def seqWrites (a : Addr) (bs : List Byte) : List BusOp := bs.mapIdx fun i v => .wr (addrPlus a i) v

/-- The exchanges of CONFIGURE (R120, R121): the software reset, then the four identity fields. -/
def configureWrites (c : Params) (mac : Bytes6) (ip gw sn : Bytes4) : List BusOp :=
  [.wr c.addrMr c.mrRst] ++ seqWrites c.addrShar mac.toList ++ seqWrites c.addrSipr ip.toList ++
    seqWrites c.addrGar gw.toList ++ seqWrites c.addrSubr sn.toList

/-- Read16(a) and Write16(a, v) (R104, R105). -/
def read16 (a : Addr) : List BusOp := [.rd a, .rd (addrPlus a 1)]

def write16 (a : Addr) (v : U16) : List BusOp := [.wr a (hiByte v), .wr (addrPlus a 1) (loByte v)]

/-- After `n` exchanges: the answers used up, and these added to the trace. -/
def State.afterBus (s : State) (ops : List BusOp) (rs : List Reply) : State :=
  { s with
    answers := s.answers.drop rs.length
    draws := s.draws + rs.length
    trace := s.trace ++ busTrace s.cfg ops rs
    chip := chipWrites s.chip ops }

/-- The byte an exchange stored in the chip, with its address: that of a write exchange the chip took. -/
def Exchange.stored (c : Params) (e : Exchange) : Option (Addr × Byte) :=
  if e.sent.b0 = c.dirWrite then
    match e.answer with
    | .ok _ _ _ _ => some (join16 e.sent.b1 e.sent.b2, e.sent.b3)
    | .fail true => some (join16 e.sent.b1 e.sent.b2, e.sent.b3)
    | .fail false => none
  else none

/-- The image of the chip register space after a list of exchanges. -/
def chipAfter (c : Params) : Memory → List Exchange → Memory
  | m, [] => m
  | m, e :: es =>
    match e.stored c with
    | some (a, v) => chipAfter c (memWrite m a.toNat v) es
    | none => chipAfter c m es

/-- The image of the chip is what the exchanges since power-on have stored. -/
def ChipMatchesTrace (s : State) : Prop := s.chip = chipAfter s.cfg [] s.trace

/-! ### The invariant -/

/-- The opcode of the command a position belongs to. -/
def SeqStep.opcode : SeqStep → Byte
  | .readReg _ => opReadReg
  | .writeReg _ => opWriteReg
  | .configure _ => opConfigure
  | .disableEcho _ => opDisableEcho
  | .getMac _ => opGetMac
  | .getIp _ => opGetIp
  | .getGateway _ => opGetGateway
  | .getSubnet _ => opGetSubnet
  | .enableRaw _ => opEnableRaw
  | .frameAvailable _ => opFrameAvailable
  | .receiveFrame _ => opReceiveFrame
  | .sendFrame _ => opSendFrame
  | .ringRead _ => opRingRead
  | .ringWrite _ => opRingWrite

/-- CONFIGURE: SOCK is closed from its first action on, and each loop's index is within its field (R120). -/
def ConfigureStep.ok (p : ConfigureStep) (s : State) : Prop :=
  match p with
  | .closeSock => True
  | .softReset => s.sock = .closed
  | .mac => s.sock = .closed ∧ s.x.i.toNat ≤ 6
  | .ip => s.sock = .closed ∧ s.x.i.toNat ≤ 4
  | .gateway => s.sock = .closed ∧ s.x.i.toNat ≤ 4
  | .subnet => s.sock = .closed ∧ s.x.i.toNat ≤ 4
  | .respond => s.sock = .closed

/-- A loop of `n` reads into RB: its index is within the field. -/
def FetchStep.ok (n : Nat) (p : FetchStep) (s : State) : Prop :=
  match p with
  | .bytes => s.x.i.toNat ≤ n
  | .respond => True

/-- ENABLE_RAW: its answer agrees with the status read and with SOCK (R161). -/
def EnableStep.ok (p : EnableStep) (s : State) : Prop :=
  match p with
  | .rmsr => True
  | .tmsr => True
  | .sockMode => True
  | .openCmd => True
  | .status => True
  | .check => True
  | .respondTrue => s.sock = .opened ∧ rawActive s.x.stat = true
  | .closeCmd => rawActive s.x.stat = false
  | .closed => rawActive s.x.stat = false
  | .respondFalse => s.sock = .closed ∧ rawActive s.x.stat = false

/-- What RECEIVE_FRAME's header step leaves (R181 step 2, R182). -/
def headerDone (s : State) : Prop :=
  s.x.off = ringOffset s.x.ptr ∧ s.x.hdr = headerValue s.cfg s.x.hi s.x.lo ∧
    s.x.doff = ringOffset (BitVec.ofNat 16 (s.x.off.toNat + Config.hdrLen))

/-- What RECEIVE_FRAME's checks and its split leave (R183, R184). -/
def payloadReady (s : State) : Prop :=
  headerDone s ∧ headerTooLong s.x.hdr = false ∧ overflowsDest s.x.hdr s.x.cap = false ∧
    s.x.upper.toNat = (ringSplit s.x.doff.toNat s.x.hdr.toNat).1 ∧
    s.x.left.toNat = (ringSplit s.x.doff.toNat s.x.hdr.toNat).2

/-- RECEIVE_FRAME: what each position may rely on (R181 to R185). -/
def ReceiveStep.ok (p : ReceiveStep) (s : State) : Prop :=
  match p with
  | .cntHi => True
  | .cntLo => True
  | .checkEmpty => True
  | .ptrHi => frameQueued s.x.cnt = true
  | .ptrLo => frameQueued s.x.cnt = true
  | .offset => frameQueued s.x.cnt = true
  | .hdrHi => frameQueued s.x.cnt = true ∧ s.x.off = ringOffset s.x.ptr
  | .hdrLo => frameQueued s.x.cnt = true ∧ s.x.off = ringOffset s.x.ptr
  | .header => frameQueued s.x.cnt = true ∧ s.x.off = ringOffset s.x.ptr
  | .checkLength => frameQueued s.x.cnt = true ∧ headerDone s
  | .checkCapacity => frameQueued s.x.cnt = true ∧ headerDone s ∧ headerTooLong s.x.hdr = false
  | .split =>
    frameQueued s.x.cnt = true ∧ headerDone s ∧ headerTooLong s.x.hdr = false ∧ overflowsDest s.x.hdr s.x.cap = false
  | .tail => frameQueued s.x.cnt = true ∧ payloadReady s ∧ s.x.i.toNat ≤ s.x.upper.toNat
  | .base => frameQueued s.x.cnt = true ∧ payloadReady s ∧ s.x.i.toNat ≤ s.x.left.toNat
  | .advance => frameQueued s.x.cnt = true ∧ payloadReady s
  | .rdHi => frameQueued s.x.cnt = true ∧ payloadReady s ∧ s.x.nptr = advancePtr s.x.ptr s.x.cnt
  | .rdLo => frameQueued s.x.cnt = true ∧ payloadReady s ∧ s.x.nptr = advancePtr s.x.ptr s.x.cnt
  | .acknowledge => frameQueued s.x.cnt = true ∧ payloadReady s ∧ s.x.nptr = advancePtr s.x.ptr s.x.cnt
  | .respond => frameQueued s.x.cnt = true ∧ payloadReady s ∧ s.x.nptr = advancePtr s.x.ptr s.x.cnt

/-- What SEND_FRAME's acceptance leaves (R100, R228): SRC holds LEN bytes and they fit the ring. -/
def sendAccepted (s : State) : Prop := s.src.length = s.x.len.toNat ∧ frameTooLong s.x.len = false

/-- What SEND_FRAME's split leaves (R202). -/
def frameReady (s : State) : Prop :=
  sendAccepted s ∧ enoughFree s.x.free s.x.len = true ∧ s.x.off = ringOffset s.x.ptr ∧
    s.x.upper.toNat = (ringSplit s.x.off.toNat s.x.len.toNat).1 ∧
    s.x.left.toNat = (ringSplit s.x.off.toNat s.x.len.toNat).2

/-- SEND_FRAME: what each position may rely on (R200 to R203). -/
def SendStep.ok (p : SendStep) (s : State) : Prop :=
  match p with
  | .fsrHi => sendAccepted s
  | .fsrLo => sendAccepted s
  | .checkFree => sendAccepted s
  | .ptrHi => sendAccepted s ∧ enoughFree s.x.free s.x.len = true
  | .ptrLo => sendAccepted s ∧ enoughFree s.x.free s.x.len = true
  | .split => sendAccepted s ∧ enoughFree s.x.free s.x.len = true
  | .tail => frameReady s ∧ s.x.i.toNat ≤ s.x.upper.toNat
  | .base => frameReady s ∧ s.x.i.toNat ≤ s.x.left.toNat
  | .advance => frameReady s
  | .wrHi => frameReady s ∧ s.x.nptr = advancePtr s.x.ptr s.x.len
  | .wrLo => frameReady s ∧ s.x.nptr = advancePtr s.x.ptr s.x.len
  | .sendCmd => frameReady s ∧ s.x.nptr = advancePtr s.x.ptr s.x.len
  | .poll => frameReady s ∧ s.x.nptr = advancePtr s.x.ptr s.x.len
  | .checkIdle => frameReady s ∧ s.x.nptr = advancePtr s.x.ptr s.x.len
  | .respond => frameReady s ∧ s.x.nptr = advancePtr s.x.ptr s.x.len ∧ commandIdle s.cfg s.x.stat = true

/-- What a position may rely on: a frame command runs with the socket open (R224), a ring command with a legal selector
(R223), and the conditions of its own procedure. -/
def SeqStep.ok (q : SeqStep) (s : State) : Prop :=
  match q with
  | .readReg _ => True
  | .writeReg _ => True
  | .configure p => p.ok s
  | .disableEcho _ => True
  | .getMac p => p.ok 6 s
  | .getIp p => p.ok 4 s
  | .getGateway p => p.ok 4 s
  | .getSubnet p => p.ok 4 s
  | .enableRaw p => p.ok s
  | .frameAvailable _ => s.sock = .opened
  | .receiveFrame p => s.sock = .opened ∧ p.ok s
  | .sendFrame p => s.sock = .opened ∧ p.ok s
  | .ringRead _ => legalReadSelector s.x.sel = true
  | .ringWrite _ => legalWriteSelector s.x.sel = true

/-- MODE, SEQ, CMD and FAULT agree: FAULT holds a fault's code exactly while HALTED (R20, R22, R240), and a command in
progress is the one whose opcode CMD holds (R23), at a position it may be at. -/
def Mode.ok (m : Mode) (s : State) : Prop :=
  match m with
  | .idle => s.fault = ⟨0x00#8, 0x0000#16⟩
  | .busy q => s.fault = ⟨0x00#8, 0x0000#16⟩ ∧ s.x.cmd = q.opcode ∧ q.ok s
  | .halted => 1 ≤ s.fault.code.toNat ∧ s.fault.code.toNat ≤ 7

/-- The invariant of the machine. -/
structure Inv (s : State) : Prop where
  cfgWf : s.cfg.wf = true
  chipWf : Memory.wf s.chip = true
  chipRange : ∀ c ∈ s.chip, c.1 < 65536
  destWf : Memory.wf s.dest = true
  destRange : ∀ c ∈ s.dest, c.1 < 65535
  modeOk : s.mode.ok s

/-! ### Safe runs -/

/-- The bytes the host presents hold whole commands (R79: the port delivers commands whole), as far as the next one. -/
def State.presentsWhole (s : State) : Prop := s.port = [] ∨ decodeHost s.port ≠ .error .truncated

/-- All of a byte string splits into whole commands and illegal opcodes (R80). -/
inductive WholeCommands : List Byte → Prop where
  | nil : WholeCommands []
  | command (i : Instr) (bs rest : List Byte) : decodeHost bs = .ok i rest → WholeCommands rest → WholeCommands bs
  | illegal (op : Byte) (rest : List Byte) :
      decodeHost (op :: rest) = .error (.illegalOpcode op) → WholeCommands rest → WholeCommands (op :: rest)

/-- A state right after power-on, with any configuration R10 admits, any commands and resets of the host, and any answers
of the chip. -/
def State.powerOn (c : Params) (port : List Byte) (resets : List Nat) (answers : List BusAnswer) (draws : Nat) : State :=
  { State.reset with cfg := c, port := port, resets := resets, answers := answers, draws := draws }

end Sys2Proof.Machine
end

