-- ==== Sys2Proof/Certificates/Slice0/Obligations.lean ====
section
/-! DEFINITION. The statements for the provers. A run of a command is `Completes i n s t` (n + 1 steps of `exec i` from `s`,
the last of which ends it in `t`); where `t` is written as an update of `s`, it says the whole next state, frame included.
The chip's answers are hypotheses (`repliesWith`, `upcoming`) over the answers given in the state and the opaque free values
alike, so no statement rests on a free value. -/

open Sys2Proof Sys2Proof.Machine

/-! ### Encodings -/

/-- R76, R77: every well-formed host command, followed by any bytes, decodes to itself and leaves those bytes. -/
def Obligations.HostCommandsRoundTrip : Prop :=
  ∀ (c : Params) (i : Instr) (rest : List Byte), i.wf = true → i.isExchange = false →
    decodeHost (encode c i ++ rest) = .ok i rest

/-- R70 to R72: both forms of bus exchange decode to themselves under every configuration R10 admits. -/
def Obligations.BusExchangesRoundTrip : Prop :=
  ∀ (c : Params) (i : Instr) (rest : List Byte), c.wf = true → i.isExchange = true →
    decodeExchange c (encode c i ++ rest) = .ok i rest

/-- R76, R77: what decodes is the encoding of the instruction it decodes to, and SEND_FRAME carries exactly LEN bytes. -/
def Obligations.DecodedBytesAreTheEncoding : Prop :=
  ∀ (c : Params) (bs : List Byte) (i : Instr) (rest : List Byte), decodeHost bs = .ok i rest →
    bs = encode c i ++ rest ∧ i.isExchange = false ∧
      ∀ len data, i = .sendFrame len data → data.length = len.toNat

/-- R80: the length of a command is known from byte 0, and from LEN for SEND_FRAME; an illegal opcode is one byte long. -/
def Obligations.CommandLengthFollowsFromByteZero : Prop :=
  (∀ (bs : List Byte) (i : Instr) (rest : List Byte), decodeHost bs = .ok i rest →
      bs.length = commandLength bs + rest.length) ∧
    (∀ (op : Byte) (as bs : List Byte), op ≠ 0x23#8 → commandLength (op :: as) = commandLength (op :: bs)) ∧
    (∀ (h l : Byte) (rest : List Byte), commandLength (0x23#8 :: h :: l :: rest) = 3 + (join16 h l).toNat) ∧
    (∀ (op : Byte) (rest : List Byte), op ∉ legalOpcodes →
      commandLength (op :: rest) = 1 ∧ decodeHost (op :: rest) = .error (.illegalOpcode op)) ∧
    ([0x01#8, 0x02#8, 0x10#8, 0x11#8, 0x12#8, 0x13#8, 0x14#8, 0x15#8, 0x20#8, 0x21#8, 0x22#8, 0x30#8, 0x31#8].map
      fun op => commandLength [op]) = [3, 4, 19, 1, 1, 1, 1, 1, 1, 1, 3, 2, 4]

/-- R77, R79: the opcodes the decoder rejects are exactly those not in the table. -/
def Obligations.IllegalOpcodesAreRejected : Prop :=
  ∀ (op : Byte) (rest : List Byte),
    decodeHost (op :: rest) = .error (.illegalOpcode op) ↔
      op.toNat ∉ [0x01, 0x02, 0x10, 0x11, 0x12, 0x13, 0x14, 0x15, 0x20, 0x21, 0x22, 0x23, 0x30, 0x31]

/-- R71, R72, R77: words written out from the spec's layouts decode to the instructions they stand for. -/
def Obligations.SpecWordsDecode : Prop :=
  decodeExchange Params.default [0x0F#8, 0x04#8, 0x03#8, 0x00#8] = .ok (.busRead 0x0403#16) [] ∧
    decodeExchange Params.default [0xF0#8, 0x04#8, 0x01#8, 0x01#8] = .ok (.busWrite 0x0401#16 0x01#8) [] ∧
    decodeHost [0x01#8, 0x04#8, 0x03#8] = .ok (.readReg 0x0403#16) [] ∧
    decodeHost [0x02#8, 0x04#8, 0x01#8, 0x40#8] = .ok (.writeReg 0x0401#16 0x40#8) [] ∧
    decodeHost [0x11#8] = .ok .disableEcho [] ∧
    decodeHost [0x20#8] = .ok .enableRaw [] ∧
    decodeHost [0x22#8, 0x00#8, 0x40#8] = .ok (.receiveFrame 64#16) [] ∧
    decodeHost [0x23#8, 0x00#8, 0x02#8, 0x11#8, 0x22#8] = .ok (.sendFrame 2#16 [0x11#8, 0x22#8]) [] ∧
    decodeHost [0x31#8, 0x05#8, 0x40#8, 0x02#8] = .ok (.ringWrite 0x05#8 0x4002#16) []

/-- R71, R72: the 32-bit view of the two forms, and their match and mask with the default parameters. -/
def Obligations.ExchangeFormsMatchTheirPatterns : Prop :=
  (∀ (c : Params) (a : Addr) (v : Byte),
      ((readFrame c a).b0 ++ (readFrame c a).b1 ++ (readFrame c a).b2 ++ (readFrame c a).b3 : BitVec 32) =
          (c.dirRead ++ a ++ Config.placeholder : BitVec 32) ∧
        ((writeFrame c a v).b0 ++ (writeFrame c a v).b1 ++ (writeFrame c a v).b2 ++ (writeFrame c a v).b3 : BitVec 32) =
          (c.dirWrite ++ a ++ v : BitVec 32)) ∧
    ∀ (a : Addr) (v : Byte),
      ((Params.default.dirRead ++ a ++ Config.placeholder : BitVec 32) &&& 0xFF0000FF#32) = 0x0F000000#32 ∧
        ((Params.default.dirWrite ++ a ++ v : BitVec 32) &&& 0xFF000000#32) = 0xF0000000#32

/-- R85: the byte string of every response. -/
def Obligations.ResponsesAreEncoded : Prop :=
  Response.done.encode = [0x00#8] ∧
    (∀ v : Byte, (Response.byte v).encode = [0x00#8, v]) ∧
    (∀ bs : List Byte, (Response.bytes bs).encode = 0x00#8 :: bs) ∧
    (Response.bool true).encode = [0x00#8, 0x01#8] ∧ (Response.bool false).encode = [0x00#8, 0x00#8] ∧
    (∀ v : U16, (Response.u16 v).encode = [0x00#8, v.extractLsb' 8 8, v.extractLsb' 0 8]) ∧
    (∀ n : U16, (Response.count n).encode = [0x00#8, n.extractLsb' 8 8, n.extractLsb' 0 8]) ∧
    (∀ (code : Byte) (info : U16),
      (Response.fault code info).encode = [0xE0#8, code, info.extractLsb' 8 8, info.extractLsb' 0 8]) ∧
    ∀ code : Byte, (Response.halted code).encode = [0xE1#8, code]

/-- R87: each pseudo-instruction expands to the commands shown. -/
def Obligations.PseudoInstructionsExpand : Prop :=
  ∀ (c : Params) (a : Addr) (v : U16) (k : Byte),
    (Pseudo.read16 a).expand c = [.readReg a, .readReg (a + 1#16)] ∧
      (Pseudo.write16 a v).expand c = [.writeReg a (v.extractLsb' 8 8), .writeReg (a + 1#16) (v.extractLsb' 0 8)] ∧
      (Pseudo.sockCmd k).expand c = [.writeReg c.addrS0Cr k] ∧
      Pseudo.getStatus.expand c = [.readReg c.addrS0Sr] ∧
      Pseudo.receiveFrame.expand c = [.receiveFrame 65535#16]

/-! ### The step -/

/-- R26, R100: a block that no command keeps busy runs the command that the bytes at the host port decode to; around `exec`
the step moves past the command's bytes and passes on the host's reset schedule. -/
def Obligations.StepRunsThePresentedCommand : Prop :=
  ∀ (s : State) (i : Instr) (rest : List Byte), s.resetDue = false → s.isBusy = false →
    decodeHost s.port = .ok i rest → step s = exec i { s.tick with port := rest }

/-- R23, R26: while a command is in progress, a step is that command's next step, and the host port is untouched. -/
def Obligations.StepContinuesTheCommandInProgress : Prop :=
  ∀ (s : State) (q : SeqStep), s.resetDue = false → s.mode = .busy q → step s = exec (q.instr s) s.tick

/-- R29, R101: a step at which the block issues an exchange is that exchange, and it is the step of the command in
progress. -/
def Obligations.StepPerformsTheIssuedExchange : Prop :=
  ∀ (s : State) (b : Instr), s.resetDue = false → s.issued = some b →
    step s = exec b s.tick ∧ ∃ q, s.mode = .busy q ∧ exec b s = exec (q.instr s) s

/-- R240 ("after reset it waits for a command"): with no command presented, a step changes nothing but the host's reset
schedule. -/
def Obligations.StepWaitsForACommand : Prop :=
  ∀ s : State, s.resetDue = false → s.isBusy = false → s.port = [] → step s = .next s.tick

/-- R240, R241: block reset sets MODE, SOCK and FAULT to their reset values in whatever state it comes; it makes no
exchange, touches no chip register and no host buffer, sends no response, and changes no parameter. -/
def Obligations.BlockResetSetsTheBlockOnly : Prop :=
  ∀ (s : State) (r : List Nat), s.resets = 0 :: r →
    ∃ t, step s = .next t ∧ t.mode = .idle ∧ t.sock = .closed ∧ t.fault.code = 0x00#8 ∧ t.fault.info = 0x0000#16 ∧
      t.isBusy = false ∧ t.cfg = s.cfg ∧ t.chip = s.chip ∧ t.trace = s.trace ∧ t.responses = s.responses ∧
      t.port = s.port ∧ t.src = s.src ∧ t.dest = s.dest ∧ t.answers = s.answers ∧ t.draws = s.draws ∧ t.resets = r

/-- R240: the reset state has the values of the table. -/
def Obligations.ResetStateHasTheStatedValues : Prop :=
  State.reset.mode = .idle ∧ State.reset.sock = .closed ∧ State.reset.fault.code = 0x00#8 ∧
    State.reset.fault.info = 0x0000#16 ∧ State.reset.isBusy = false ∧ State.reset.issued = none ∧
    State.reset.trace = [] ∧ State.reset.responses = []

/-- The invariant of the machine holds at reset. -/
def Obligations.ResetMeetsTheInvariant : Prop := Inv State.reset

/-- The invariant of the machine: the configuration meets R10's constraints, the memories keep their canonical form and
their range, FAULT holds a fault's code exactly while HALTED, and a command in progress is the one CMD names, at a position
that may rely on what its procedure has done. Every step keeps it. -/
def Obligations.EveryStepKeepsTheInvariant : Prop :=
  ∀ s t : State, Inv s → step s = .next t → Inv t

/-- From a state with the invariant, no step stops: the block never meets a SRC or DEST index outside its buffer nor a
selector without a pair; the one refusal is of an incomplete command, which cannot reach the block (R79). -/
def Obligations.NoStepStopsInsideTheInvariant : Prop :=
  ∀ s : State, Inv s → s.isBusy = true ∨ s.presentsWhole → ∃ t, step s = .next t

/-- From power-on, under any configuration R10 admits, any whole commands, any resets of the host and any answers of the
chip, the machine never stops, and the invariant holds all along. -/
def Obligations.RunsFromPowerOnNeverStop : Prop :=
  ∀ (c : Params) (port : List Byte) (resets : List Nat) (answers : List BusAnswer) (draws n : Nat),
    c.wf = true → WholeCommands port →
      ∃ t, Steps n (State.powerOn c port resets answers draws) t ∧ Inv t

/-- A run of a command is a run of the machine: where the host presents the command and asserts no reset, the steps of
`exec i` from acceptance to the end are the machine's own steps, one for one (R23, R62). -/
def Obligations.CommandRunsAreMachineRuns : Prop :=
  ∀ (s t : State) (i : Instr) (rest : List Byte) (n : Nat), s.resets = [] → s.isBusy = false →
    decodeHost s.port = .ok i rest → Completes i n { s with port := rest } t → Steps (n + 1) s t

/-- R25: no step changes a parameter. -/
def Obligations.NoStepChangesAParameter : Prop := ∀ s t : State, step s = .next t → t.cfg = s.cfg

/-- R58, R63: the image of the chip is what the exchanges have stored: a read stores nothing, a write that took effect
stores its byte at its address. Every step keeps it. -/
def Obligations.ChipImageFollowsTheTrace : Prop :=
  ∀ s t : State, s.cfg.wf = true → ChipMatchesTrace s → step s = .next t → ChipMatchesTrace t

/-- R61, R74: a step makes at most one exchange, the one the block issues; its marker is one of the two, which differ; a
read carries the placeholder, and a write may carry every byte; no other marker has a meaning. -/
def Obligations.ExchangesUseTheTwoMarkers : Prop :=
  (∀ s t : State, step s = .next t → t.trace = s.trace ∨
      ∃ e, t.trace = s.trace ++ [e] ∧
        ((∃ a, s.issued = some (.busRead a) ∧ e.sent = ⟨s.cfg.dirRead, hiByte a, loByte a, 0x00#8⟩) ∨
          ∃ a v, s.issued = some (.busWrite a v) ∧ e.sent = ⟨s.cfg.dirWrite, hiByte a, loByte a, v⟩)) ∧
    (∀ c : Params, c.wf = true → c.dirRead ≠ c.dirWrite) ∧
    (∀ (c : Params) (b0 b1 b2 b3 : Byte), b0 ≠ c.dirRead → b0 ≠ c.dirWrite →
      decodeExchange c [b0, b1, b2, b3] = .error (.reservedMarker b0)) ∧
    ∀ (c : Params) (b1 b2 b3 : Byte), c.wf = true →
      decodeExchange c [c.dirWrite, b1, b2, b3] = .ok (.busWrite (join16 b1 b2) b3) []

/-- The frame of chip memory: a step changes the chip's image only at the address of the write it issues, and there a
successful write leaves its byte. -/
def Obligations.StepsStoreOnlyTheIssuedWrite : Prop :=
  ∀ s t : State, step s = .next t →
    (∀ a : Addr, (∀ v, s.issued ≠ some (.busWrite a v)) → memRead t.chip a.toNat = memRead s.chip a.toNat) ∧
      ∀ (a : Addr) (v : Byte) (r : Reply), s.resetDue = false → s.issued = some (.busWrite a v) →
        s.nextAnswer = r.answer → memRead t.chip a.toNat = some v

/-- R28: the block writes DEST only in RECEIVE_FRAME's payload copy, at the index that the copy is at, and that index is
below HDR. -/
def Obligations.DestIsWrittenBelowHdrOnly : Prop :=
  ∀ s t : State, Inv s → step s = .next t → ∀ k : Nat, memRead t.dest k ≠ memRead s.dest k →
    k < s.x.hdr.toNat ∧
      ((s.mode = .busy (.receiveFrame .tail) ∧ k = s.x.i.toNat) ∨
        (s.mode = .busy (.receiveFrame .base) ∧ k = s.x.upper.toNat + s.x.i.toNat))

/-- R27, R221: a step sends at most one response. A command in progress sends none until it ends; it ends in IDLE with a
completion response, or in HALTED with FAULT(code, info). -/
def Obligations.CommandsEndWithOneResponse : Prop :=
  ∀ s t : State, s.resetDue = false → s.isBusy = true → step s = .next t →
    (t.isBusy = true ∧ t.responses = s.responses) ∨
      (t.mode = .idle ∧ ∃ r, t.responses = s.responses ++ [r] ∧ (∀ c k, r ≠ .fault c k) ∧ ∀ c, r ≠ .halted c) ∨
      (t.mode = .halted ∧ t.responses = s.responses ++ [.fault t.fault.code t.fault.info])

/-! ### Faults -/

/-- R221: a step that enters a fault sets FAULT to the fault's code and its info, halts, and sends that FAULT response; it
changes neither SOCK nor DEST, and makes at most the exchange that failed. -/
def Obligations.FaultEntrySavesCodeAndInfo : Prop :=
  ∀ s t : State, step s = .next t → s.mode ≠ .halted → t.mode = .halted →
    ∃ (f : BlockFault) (info : U16), t.fault = ⟨f.code, info⟩ ∧ t.responses = s.responses ++ [.fault f.code info] ∧
      t.sock = s.sock ∧ t.dest = s.dest ∧ f.code.toNat ∈ [1, 2, 3, 4, 5, 6, 7] ∧
      (t.trace = s.trace ∨ ∃ e b, t.trace = s.trace ++ [e] ∧ e.answer = .fail b ∧ f = .busFault)

/-- R230: while HALTED every host command is answered with HALTED(FAULT.CODE) and nothing else changes, and so is a byte
that is no opcode, one byte long (R80); and a step leaves HALTED only by block reset (R240). (The port as a byte list and the
reset schedule are the model's, logs 9 and 12.) -/
def Obligations.HaltedAnswersAndStays : Prop :=
  (∀ (i : Instr) (s : State), i.isExchange = false → s.mode = .halted →
      exec i s = .next { s with responses := s.responses ++ [.halted s.fault.code] }) ∧
    (∀ (s : State) (op : Byte) (rest : List Byte), s.mode = .halted → s.resetDue = false → s.port = op :: rest →
      op ∉ legalOpcodes →
        step s = .next { s.tick with port := rest, responses := s.responses ++ [.halted s.fault.code] }) ∧
    ∀ s t : State, s.mode = .halted → s.resetDue = false → step s = .next t →
      t.mode = .halted ∧ t.fault = s.fault ∧ t.trace = s.trace ∧ t.sock = s.sock ∧ t.x = s.x ∧ t.chip = s.chip

/-- R222: a failed exchange raises BUS_FAULT with the exchange's address; the trace holds it and nothing is retried; a failed
read leaves the chip's image, a failed write has taken effect or not. -/
def Obligations.FailedExchangesRaiseBusFault : Prop :=
  ∀ (s : State) (a : Addr) (b : Bool), s.nextAnswer = .fail b →
    (s.issued = some (.busRead a) →
        exec (.busRead a) s = .next { s with
          mode := .halted, fault := ⟨0x01#8, a⟩, answers := s.answers.tail, draws := s.draws + 1
          trace := s.trace ++ [⟨readFrame s.cfg a, .fail b⟩], responses := s.responses ++ [.fault 0x01#8 a] }) ∧
      ∀ v : Byte, s.issued = some (.busWrite a v) →
        exec (.busWrite a v) s = .next { s with
          mode := .halted, fault := ⟨0x01#8, a⟩, answers := s.answers.tail, draws := s.draws + 1
          chip := if b then memWrite s.chip a.toNat v else s.chip
          trace := s.trace ++ [⟨writeFrame s.cfg a v, .fail b⟩], responses := s.responses ++ [.fault 0x01#8 a] }

/-- R223: an opcode outside the map, and a selector that R78 marks illegal for its command, raise ILLEGAL_COMMAND at
acceptance, before any exchange, with `opcode ++ 0x00` or `opcode ++ SEL`; acceptance has latched CMD, SEL and VAL (R100), and an
illegal opcode is one byte long (R80). (The port as a byte list and the reset schedule are the model's, logs 9 and 12.) -/
def Obligations.IllegalCommandsFault : Prop :=
  (∀ (s : State) (op : Byte) (rest : List Byte), s.mode = .idle → s.resetDue = false → s.port = op :: rest →
      op ∉ legalOpcodes →
        step s = .next { s.tick with
          port := rest, mode := .halted, fault := ⟨0x02#8, join16 op 0x00#8⟩, x := { s.x with cmd := op }
          responses := s.responses ++ [.fault 0x02#8 (join16 op 0x00#8)] }) ∧
    (∀ (s : State) (sel : Byte), s.mode = .idle → sel.toNat ∉ [0, 1, 2, 3, 4, 5] →
      exec (.ringRead sel) s = .next { s with
        mode := .halted, fault := ⟨0x02#8, join16 0x30#8 sel⟩, x := { s.x with cmd := 0x30#8, sel := sel }
        responses := s.responses ++ [.fault 0x02#8 (join16 0x30#8 sel)] }) ∧
    ∀ (s : State) (sel : Byte) (val : U16), s.mode = .idle → sel.toNat ∉ [1, 5] →
      exec (.ringWrite sel val) s = .next { s with
        mode := .halted, fault := ⟨0x02#8, join16 0x31#8 sel⟩, x := { s.x with cmd := 0x31#8, sel := sel, val := val }
        responses := s.responses ++ [.fault 0x02#8 (join16 0x31#8 sel)] }

/-- R224, R229: a frame command presented while SOCK is CLOSED raises SOCKET_NOT_OPEN at acceptance, before any exchange and
before the length check, with `0x00 ++ opcode`. -/
def Obligations.FrameCommandsNeedAnOpenSocket : Prop :=
  ∀ s : State, s.mode = .idle → s.sock = .closed →
    exec .frameAvailable s = .next { s with
        mode := .halted, fault := ⟨0x03#8, 0x0021#16⟩, x := { s.x with cmd := 0x21#8 }
        responses := s.responses ++ [.fault 0x03#8 0x0021#16] } ∧
      (∀ cap : U16, exec (.receiveFrame cap) s = .next { s with
        mode := .halted, fault := ⟨0x03#8, 0x0022#16⟩, x := { s.x with cmd := 0x22#8, cap := cap }
        responses := s.responses ++ [.fault 0x03#8 0x0022#16] }) ∧
      ∀ (len : U16) (data : List Byte), exec (.sendFrame len data) s = .next { s with
        src := data, mode := .halted, fault := ⟨0x03#8, 0x0023#16⟩, x := { s.x with cmd := 0x23#8, len := len }
        responses := s.responses ++ [.fault 0x03#8 0x0023#16] }

/-- R228: SEND_FRAME with LEN > RING_SIZE raises TX_LENGTH at acceptance, after the SOCK check and before any exchange. -/
def Obligations.LongFramesAreRefused : Prop :=
  ∀ (s : State) (len : U16) (data : List Byte), s.mode = .idle → s.sock = .opened → len.toNat > 8192 →
    exec (.sendFrame len data) s = .next { s with
      src := data, mode := .halted, fault := ⟨0x07#8, len⟩, x := { s.x with cmd := 0x23#8, len := len }
      responses := s.responses ++ [.fault 0x07#8 len] }

/-- R183, R225 to R227: RECEIVE_FRAME's three checks in their order, each a fault before any payload read: RX_EMPTY after
the counter reads, RX_LENGTH and DEST_OVERFLOW after the header reads. -/
def Obligations.ReceiveChecksFault : Prop :=
  ∀ (cap : U16) (s : State) (ch cl ph pl hh hl : Reply), s.mode = .idle → s.sock = .opened →
    (s.repliesWith [ch, cl] → join16 ch.r3 cl.r3 = 0#16 →
        Completes (.receiveFrame cap) 3 s { s.afterBus (read16 s.cfg.addrS0RxRsr) [ch, cl] with
          mode := .halted, fault := ⟨0x04#8, 0x0000#16⟩
          x := { s.x with cmd := 0x22#8, cap := cap, cnt := 0#16, hi16 := ch.r3 }
          responses := s.responses ++ [.fault 0x04#8 0x0000#16] }) ∧
      (s.repliesWith [ch, cl, ph, pl, hh, hl] → join16 ch.r3 cl.r3 ≠ 0#16 → ∀ hdr : U16,
        hdr = (if s.cfg.hdrBigEndian then join16 hh.r3 hl.r3 else join16 hl.r3 hh.r3) →
          (hdr.toNat + 2 > 8192 →
            ∃ t, Completes (.receiveFrame cap) 10 s t ∧ t.mode = .halted ∧ t.fault = ⟨0x05#8, hdr⟩ ∧
              t.responses = s.responses ++ [.fault 0x05#8 hdr] ∧ t.sock = s.sock ∧
              t.dest = s.dest ∧ t.chip = s.chip ∧ t.trace.length = s.trace.length + 6) ∧
          (hdr.toNat + 2 ≤ 8192 → hdr.toNat > cap.toNat →
            ∃ t, Completes (.receiveFrame cap) 11 s t ∧ t.mode = .halted ∧ t.fault = ⟨0x06#8, hdr⟩ ∧
              t.responses = s.responses ++ [.fault 0x06#8 hdr] ∧ t.sock = s.sock ∧
              t.dest = s.dest ∧ t.chip = s.chip ∧ t.trace.length = s.trace.length + 6))

/-- R21, R160: SOCK changes only by block reset, by CONFIGURE, and by ENABLE_RAW after its status read. -/
def Obligations.SockChangesOnlyAsTheTableSays : Prop :=
  ∀ s t : State, step s = .next t → t.sock ≠ s.sock →
    (s.resetDue = true ∧ t.sock = .closed) ∨
      (s.mode = .busy (.configure .closeSock) ∧ t.sock = .closed) ∨
      (s.mode = .busy (.enableRaw .check) ∧ s.x.stat = 0x42#8 ∧ t.sock = .opened) ∨
      (s.mode = .busy (.enableRaw .closed) ∧ t.sock = .closed)

/-! ### Commands, from acceptance to response -/

/-- R100: acceptance latches the opcode and the arguments and moves to the command's first position, and changes nothing
else; the frame commands need an open socket, SEND_FRAME a length within the ring, the ring commands a legal selector. (That the
read-back commands set the loop index at acceptance is the model's choice, log 1.) -/
def Obligations.AcceptanceLatchesTheArguments : Prop :=
  ∀ s : State, s.mode = .idle →
    (∀ a, exec (.readReg a) s =
        .next { s with mode := .busy (.readReg .xfer), x := { s.x with cmd := 0x01#8, addr := a } }) ∧
      (∀ a v, exec (.writeReg a v) s =
        .next { s with mode := .busy (.writeReg .xfer), x := { s.x with cmd := 0x02#8, addr := a, data := v } }) ∧
      (∀ mac ip gw sn, exec (.configure mac ip gw sn) s = .next { s with
        mode := .busy (.configure .closeSock), x := { s.x with cmd := 0x10#8, idb := ⟨mac, ip, gw, sn⟩ } }) ∧
      exec .disableEcho s = .next { s with mode := .busy (.disableEcho .readMr), x := { s.x with cmd := 0x11#8 } } ∧
      exec .getMac s = .next { s with mode := .busy (.getMac .bytes), x := { s.x with cmd := 0x12#8, i := 0#17 } } ∧
      exec .getIp s = .next { s with mode := .busy (.getIp .bytes), x := { s.x with cmd := 0x13#8, i := 0#17 } } ∧
      exec .getGateway s =
        .next { s with mode := .busy (.getGateway .bytes), x := { s.x with cmd := 0x14#8, i := 0#17 } } ∧
      exec .getSubnet s =
        .next { s with mode := .busy (.getSubnet .bytes), x := { s.x with cmd := 0x15#8, i := 0#17 } } ∧
      exec .enableRaw s = .next { s with mode := .busy (.enableRaw .rmsr), x := { s.x with cmd := 0x20#8 } } ∧
      (s.sock = .opened → exec .frameAvailable s =
        .next { s with mode := .busy (.frameAvailable .cntHi), x := { s.x with cmd := 0x21#8 } }) ∧
      (s.sock = .opened → ∀ cap, exec (.receiveFrame cap) s =
        .next { s with mode := .busy (.receiveFrame .cntHi), x := { s.x with cmd := 0x22#8, cap := cap } }) ∧
      (s.sock = .opened → ∀ (len : U16) data, len.toNat ≤ 8192 → exec (.sendFrame len data) s = .next { s with
        src := data, mode := .busy (.sendFrame .fsrHi), x := { s.x with cmd := 0x23#8, len := len } }) ∧
      (∀ sel : Byte, sel.toNat ≤ 5 → exec (.ringRead sel) s =
        .next { s with mode := .busy (.ringRead .hi), x := { s.x with cmd := 0x30#8, sel := sel } }) ∧
      ∀ (sel : Byte) val, sel.toNat = 1 ∨ sel.toNat = 5 → exec (.ringWrite sel val) s = .next { s with
        mode := .busy (.ringWrite .hi), x := { s.x with cmd := 0x31#8, sel := sel, val := val } }

/-- R102: BUS_READ as the block issues it: the READ frame goes out, one answer is used, and the command stays in progress;
SOCK, FAULT, the responses, the parameters, the chip's image, SRC, the host port and the reset schedule are unchanged. DEST
changes in RECEIVE_FRAME's payload loops only, at the index the loop is at, and only to the byte that came back. For READ_REG
the whole next state is given, with the byte in DATA; where the byte goes in the other commands is said by their own completion
statements. -/
def Obligations.BusReadCompletes : Prop :=
  ∀ (s : State) (a : Addr) (r : Reply), s.issued = some (.busRead a) → s.nextAnswer = r.answer →
    ∃ t, exec (.busRead a) s = .next t ∧ t.isBusy = true ∧
      t.trace = s.trace ++ [⟨⟨s.cfg.dirRead, hiByte a, loByte a, 0x00#8⟩, r.answer⟩] ∧ t.chip = s.chip ∧
      t.answers = s.answers.tail ∧ t.draws = s.draws + 1 ∧ t.sock = s.sock ∧ t.fault = s.fault ∧
      t.responses = s.responses ∧ t.cfg = s.cfg ∧ t.port = s.port ∧ t.src = s.src ∧ t.resets = s.resets ∧
      (∀ k, memRead t.dest k = memRead s.dest k ∨
        (memRead t.dest k = some r.r3 ∧
          ((s.mode = .busy (.receiveFrame .tail) ∧ k = s.x.i.toNat) ∨
            (s.mode = .busy (.receiveFrame .base) ∧ k = s.x.upper.toNat + s.x.i.toNat)))) ∧
      (s.mode = .busy (.readReg .xfer) → t = { s.afterBus [.rd a] [r] with
        mode := .busy (.readReg .respond), x := { s.x with data := r.r3 } })

/-- R103: BUS_WRITE as the block issues it: the WRITE frame goes out, one answer is used and its bytes are discarded, the
byte is stored at its address and nowhere else; SOCK, FAULT, DEST and the host's inputs are unchanged, and of the working
registers only the loop index moves. -/
def Obligations.BusWriteCompletes : Prop :=
  ∀ (s : State) (a : Addr) (v : Byte) (r : Reply), s.issued = some (.busWrite a v) → s.nextAnswer = r.answer →
    ∃ (p : SeqStep) (k : BitVec 17), exec (.busWrite a v) s = .next { s.afterBus [.wr a v] [r] with
      mode := .busy p, x := { s.x with i := k } } ∧
      (s.mode = .busy (.writeReg .xfer) → p = .writeReg .respond ∧ k = s.x.i)

/-- R108: READ_REG reads one byte at any address and answers it, whatever SOCK is; a failed exchange halts it. -/
def Obligations.ReadRegCompletes : Prop :=
  ∀ (a : Addr) (s : State), s.mode = .idle →
    (∀ r : Reply, s.repliesWith [r] →
        Completes (.readReg a) 2 s { s.afterBus [.rd a] [r] with
          x := { s.x with cmd := 0x01#8, addr := a, data := r.r3 }, responses := s.responses ++ [.byte r.r3] }) ∧
      ∀ b : Bool, s.upcoming 0 = .fail b →
        Completes (.readReg a) 1 s { s with
          mode := .halted, fault := ⟨0x01#8, a⟩, x := { s.x with cmd := 0x01#8, addr := a }
          answers := s.answers.tail, draws := s.draws + 1, trace := s.trace ++ [⟨readFrame s.cfg a, .fail b⟩]
          responses := s.responses ++ [.fault 0x01#8 a] }

/-- R109: WRITE_REG writes one byte at any address and answers DONE; SOCK is unchanged even when it writes S0_CR or MR. -/
def Obligations.WriteRegCompletes : Prop :=
  ∀ (a : Addr) (v : Byte) (s : State), s.mode = .idle →
    (∀ r : Reply, s.repliesWith [r] →
        Completes (.writeReg a v) 2 s { s.afterBus [.wr a v] [r] with
          x := { s.x with cmd := 0x02#8, addr := a, data := v }, responses := s.responses ++ [.done] }) ∧
      ∀ b : Bool, s.upcoming 0 = .fail b →
        Completes (.writeReg a v) 1 s { s with
          mode := .halted, fault := ⟨0x01#8, a⟩, x := { s.x with cmd := 0x02#8, addr := a, data := v }
          chip := if b then memWrite s.chip a.toNat v else s.chip
          answers := s.answers.tail, draws := s.draws + 1, trace := s.trace ++ [⟨writeFrame s.cfg a v, .fail b⟩]
          responses := s.responses ++ [.fault 0x01#8 a] }

/-- R120 to R122: CONFIGURE closes SOCK and makes nineteen writes, none read: the software reset, then the four identity
fields in their order, each in address order. (I = 0 after the last loop is the model's choice, log 28.) -/
def Obligations.ConfigureCompletes : Prop :=
  ∀ (mac : Bytes6) (ip gw sn : Bytes4) (s : State) (rs : List Reply), s.mode = .idle → rs.length = 19 →
    s.repliesWith rs →
      Completes (.configure mac ip gw sn) 25 s { s.afterBus (configureWrites s.cfg mac ip gw sn) rs with
        sock := .closed, x := { s.x with cmd := 0x10#8, idb := ⟨mac, ip, gw, sn⟩, i := 0#17 }
        responses := s.responses ++ [.done] }

/-- R120 (faults): when the exchange after the first `k` writes of CONFIGURE fails, the block halts with BUS_FAULT and the
address of that exchange; the `k` writes stay done and SOCK is already CLOSED. -/
def Obligations.ConfigureHaltsAtAFailedWrite : Prop :=
  ∀ (mac : Bytes6) (ip gw sn : Bytes4) (s : State) (rs : List Reply) (b : Bool) (a : Addr) (v : Byte), s.mode = .idle →
    s.repliesWith rs → s.upcoming rs.length = .fail b →
    (configureWrites s.cfg mac ip gw sn)[rs.length]? = some (.wr a v) →
      ∃ n t, Completes (.configure mac ip gw sn) n s t ∧ t.mode = .halted ∧ t.fault = ⟨0x01#8, a⟩ ∧ t.sock = .closed ∧
        t.responses = s.responses ++ [.fault 0x01#8 a] ∧
        t.trace = s.trace ++ busTrace s.cfg (configureWrites s.cfg mac ip gw sn) rs ++
          [⟨writeFrame s.cfg a v, .fail b⟩] ∧
        t.chip = chipWrites s.chip ((configureWrites s.cfg mac ip gw sn).take (if b then rs.length + 1 else rs.length))

/-- R128: a second CONFIGURE with the same operands sends the same exchanges and leaves every byte the block has stored as
the first left it. -/
def Obligations.ConfigureIsIdempotent : Prop :=
  ∀ (mac : Bytes6) (ip gw sn : Bytes4) (s t u : State) (n m : Nat), s.mode = .idle →
    Completes (.configure mac ip gw sn) n s t → t.mode = .idle →
    Completes (.configure mac ip gw sn) m t u → u.mode = .idle →
      (∀ a : Nat, memRead u.chip a = memRead t.chip a) ∧
        (u.trace.drop t.trace.length).map (·.sent) = (t.trace.drop s.trace.length).map (·.sent)

/-- R123: DISABLE_ECHO reads MR and writes it back with the ping-block bit set and every other bit as read; when the read
fails, MR is not written. -/
def Obligations.DisableEchoCompletes : Prop :=
  ∀ s : State, s.mode = .idle →
    (∀ r w : Reply, s.repliesWith [r, w] →
        Completes .disableEcho 3 s
          { s.afterBus [.rd s.cfg.addrMr, .wr s.cfg.addrMr (r.r3 ||| s.cfg.mrPb)] [r, w] with
            x := { s.x with cmd := 0x11#8, mrv := r.r3 }, responses := s.responses ++ [.done] }) ∧
      ∀ b : Bool, s.upcoming 0 = .fail b →
        Completes .disableEcho 1 s { s with
          mode := .halted, fault := ⟨0x01#8, s.cfg.addrMr⟩, x := { s.x with cmd := 0x11#8 }
          answers := s.answers.tail, draws := s.draws + 1
          trace := s.trace ++ [⟨readFrame s.cfg s.cfg.addrMr, .fail b⟩]
          responses := s.responses ++ [.fault 0x01#8 s.cfg.addrMr] }

/-- R124 to R127: the four read-back commands read their field in address order and answer the bytes as read.
(I = 0 after the loop is the model's choice, log 28.) -/
def Obligations.ReadBackCommandsComplete : Prop :=
  ∀ s : State, s.mode = .idle →
    (∀ r0 r1 r2 r3 r4 r5 : Reply, s.repliesWith [r0, r1, r2, r3, r4, r5] →
        Completes .getMac 8 s
          { s.afterBus ((List.range 6).map fun k => .rd (addrPlus s.cfg.addrShar k)) [r0, r1, r2, r3, r4, r5] with
            x := { s.x with cmd := 0x12#8, rb := ⟨r0.r3, r1.r3, r2.r3, r3.r3, r4.r3, r5.r3⟩, i := 0#17 }
            responses := s.responses ++ [.bytes [r0.r3, r1.r3, r2.r3, r3.r3, r4.r3, r5.r3]] }) ∧
      ∀ r0 r1 r2 r3 : Reply, s.repliesWith [r0, r1, r2, r3] →
        Completes .getIp 6 s
            { s.afterBus ((List.range 4).map fun k => .rd (addrPlus s.cfg.addrSipr k)) [r0, r1, r2, r3] with
              x := { s.x with
                cmd := 0x13#8, rb := ⟨r0.r3, r1.r3, r2.r3, r3.r3, s.x.rb.b4, s.x.rb.b5⟩, i := 0#17 }
              responses := s.responses ++ [.bytes [r0.r3, r1.r3, r2.r3, r3.r3]] } ∧
          Completes .getGateway 6 s
            { s.afterBus ((List.range 4).map fun k => .rd (addrPlus s.cfg.addrGar k)) [r0, r1, r2, r3] with
              x := { s.x with
                cmd := 0x14#8, rb := ⟨r0.r3, r1.r3, r2.r3, r3.r3, s.x.rb.b4, s.x.rb.b5⟩, i := 0#17 }
              responses := s.responses ++ [.bytes [r0.r3, r1.r3, r2.r3, r3.r3]] } ∧
          Completes .getSubnet 6 s
            { s.afterBus ((List.range 4).map fun k => .rd (addrPlus s.cfg.addrSubr k)) [r0, r1, r2, r3] with
              x := { s.x with
                cmd := 0x15#8, rb := ⟨r0.r3, r1.r3, r2.r3, r3.r3, s.x.rb.b4, s.x.rb.b5⟩, i := 0#17 }
              responses := s.responses ++ [.bytes [r0.r3, r1.r3, r2.r3, r3.r3]] }

/-- R161, R162, R231: ENABLE_RAW makes its four writes and reads the status at once; status 0x42 opens SOCK and answers
true; every other status issues exactly one close, leaves SOCK CLOSED, answers false, and is no fault. -/
def Obligations.EnableRawCompletes : Prop :=
  ∀ s : State, s.mode = .idle →
    (∀ w0 w1 w2 w3 r : Reply, s.repliesWith [w0, w1, w2, w3, r] → r.r3 = 0x42#8 →
        Completes .enableRaw 7 s
          { s.afterBus [.wr s.cfg.addrRmsr s.cfg.msrSock0All, .wr s.cfg.addrTmsr s.cfg.msrSock0All,
              .wr s.cfg.addrS0Mr s.cfg.s0MrMacraw, .wr s.cfg.addrS0Cr s.cfg.cmdOpen, .rd s.cfg.addrS0Sr]
              [w0, w1, w2, w3, r] with
            sock := .opened, x := { s.x with cmd := 0x20#8, stat := r.r3 }
            responses := s.responses ++ [.bool true] }) ∧
      ∀ w0 w1 w2 w3 r w5 : Reply, s.repliesWith [w0, w1, w2, w3, r, w5] → r.r3 ≠ 0x42#8 →
        Completes .enableRaw 9 s
          { s.afterBus [.wr s.cfg.addrRmsr s.cfg.msrSock0All, .wr s.cfg.addrTmsr s.cfg.msrSock0All,
              .wr s.cfg.addrS0Mr s.cfg.s0MrMacraw, .wr s.cfg.addrS0Cr s.cfg.cmdOpen, .rd s.cfg.addrS0Sr,
              .wr s.cfg.addrS0Cr s.cfg.cmdClose] [w0, w1, w2, w3, r, w5] with
            sock := .closed, x := { s.x with cmd := 0x20#8, stat := r.r3 }
            responses := s.responses ++ [.bool false] }

/-- R180: FRAME_AVAILABLE reads the received-size counter, high byte first, and answers whether it is nonzero. -/
def Obligations.FrameAvailableCompletes : Prop :=
  ∀ (s : State) (h l : Reply), s.mode = .idle → s.sock = .opened → s.repliesWith [h, l] →
    Completes .frameAvailable 3 s { s.afterBus (read16 s.cfg.addrS0RxRsr) [h, l] with
      x := { s.x with cmd := 0x21#8, cnt := join16 h.r3 l.r3, hi16 := h.r3 }
      responses := s.responses ++ [.bool (decide (join16 h.r3 l.r3 ≠ 0#16))] }

/-- R144 to R149, R152: RING_READ reads the pair its selector names, high byte first, and answers `hi ++ lo`, whatever SOCK
is. -/
def Obligations.RingReadCompletes : Prop :=
  ∀ (s : State) (sel : Byte) (a : Addr) (h l : Reply), s.mode = .idle →
    (sel.toNat, a) ∈ [(0, s.cfg.addrS0RxRsr), (1, s.cfg.addrS0RxRd), (2, s.cfg.addrS0RxWr), (3, s.cfg.addrS0TxFsr),
      (4, s.cfg.addrS0TxRd), (5, s.cfg.addrS0TxWr)] → s.repliesWith [h, l] →
    Completes (.ringRead sel) 3 s { s.afterBus [.rd a, .rd (a + 1#16)] [h, l] with
      x := { s.x with cmd := 0x30#8, sel := sel, val := join16 h.r3 l.r3, hi16 := h.r3 }
      responses := s.responses ++ [.u16 (join16 h.r3 l.r3)] }

/-- R150, R151, R153: RING_WRITE writes VAL, unmasked, to the pointer its selector names, high byte first, and issues no
socket command. -/
def Obligations.RingWriteCompletes : Prop :=
  ∀ (s : State) (sel : Byte) (val : U16) (a : Addr) (h l : Reply), s.mode = .idle →
    (sel.toNat, a) ∈ [(1, s.cfg.addrS0RxRd), (5, s.cfg.addrS0TxWr)] → s.repliesWith [h, l] →
    Completes (.ringWrite sel val) 3 s
      { s.afterBus [.wr a (val.extractLsb' 8 8), .wr (a + 1#16) (val.extractLsb' 0 8)] [h, l] with
        x := { s.x with cmd := 0x31#8, sel := sel, val := val }, responses := s.responses ++ [.done] }

/-- R181 to R187: RECEIVE_FRAME, whole. With a nonzero counter and a header that passes both checks it reads the counter,
the pointer, the two header bytes and HDR payload bytes (each byte of the run at its ring offset, whether or not the run
splits), puts the payload into DEST[0 .. HDR-1], advances the pointer by the counter, acknowledges, and answers the counter:
`9 + HDR` exchanges. (I = 0 after the last loop is the model's choice, log 28.) -/
def Obligations.ReceiveFrameCompletes : Prop :=
  ∀ (cap : U16) (s : State) (ch cl ph pl hh hl w0 w1 w2 : Reply) (payload : List Reply) (cnt ptr hdr : U16) (doff : Nat),
    s.mode = .idle → s.sock = .opened →
    cnt = join16 ch.r3 cl.r3 → ptr = join16 ph.r3 pl.r3 → hdr = headerValue s.cfg hh.r3 hl.r3 →
    doff = (ptr.toNat % 8192 + 2) % 8192 →
    cnt ≠ 0#16 → hdr.toNat + 2 ≤ 8192 → hdr.toNat ≤ cap.toNat → payload.length = hdr.toNat →
    s.repliesWith ([ch, cl, ph, pl, hh, hl] ++ payload ++ [w0, w1, w2]) →
      Completes (.receiveFrame cap) (hdr.toNat + 19) s
        { s.afterBus (read16 s.cfg.addrS0RxRsr ++ read16 s.cfg.addrS0RxRd ++ rxReads s.cfg ptr.toNat 2 ++
              rxReads s.cfg doff hdr.toNat ++ write16 s.cfg.addrS0RxRd (ptr + cnt) ++ [.wr s.cfg.addrS0Cr s.cfg.cmdRecv])
            ([ch, cl, ph, pl, hh, hl] ++ payload ++ [w0, w1, w2]) with
          dest := memWriteList s.dest 0 (payload.map (·.r3))
          x := { s.x with
            cmd := 0x22#8, cap := cap, cnt := cnt, ptr := ptr, off := BitVec.ofNat 13 ptr.toNat
            hi := hh.r3, lo := hl.r3, hdr := hdr, doff := BitVec.ofNat 13 doff
            upper := BitVec.ofNat 14 (ringSplit doff hdr.toNat).1, left := BitVec.ofNat 16 (ringSplit doff hdr.toNat).2
            nptr := ptr + cnt, i := 0#17, hi16 := ph.r3 }
          responses := s.responses ++ [.count cnt] }

/-- R200 to R205: SEND_FRAME, whole. After any number of polls that find too little free space it reads the pointer, writes
the frame (each byte at its ring offset, whether or not the run splits), advances the pointer by LEN, sends, and after any
number of polls that find the command register busy answers true: `2k + 5 + LEN + m` exchanges. (I = 0 after the last
loop is the model's choice, log 28.) -/
def Obligations.SendFrameCompletes : Prop :=
  ∀ (len : U16) (data : List Byte) (s : State) (polls : List (Reply × Reply)) (fh fl ph pl w0 w1 w2 done : Reply)
    (ws waits : List Reply) (free ptr : U16),
    s.mode = .idle → s.sock = .opened → data.length = len.toNat → len.toNat ≤ 8192 →
    free = join16 fh.r3 fl.r3 → ptr = join16 ph.r3 pl.r3 →
    (∀ p ∈ polls, (join16 p.1.r3 p.2.r3).toNat < len.toNat) → free.toNat ≥ len.toNat → ws.length = len.toNat →
    (∀ r ∈ waits, r.r3 ≠ s.cfg.cmdIdle) → done.r3 = s.cfg.cmdIdle →
    s.repliesWith ((polls.flatMap fun p => [p.1, p.2]) ++ [fh, fl, ph, pl] ++ ws ++ [w0, w1, w2] ++ waits ++ [done]) →
      Completes (.sendFrame len data) (3 * polls.length + len.toNat + 2 * waits.length + 15) s
        { s.afterBus ((polls.flatMap fun _ => read16 s.cfg.addrS0TxFsr) ++ read16 s.cfg.addrS0TxFsr ++
              read16 s.cfg.addrS0TxWr ++ txWrites s.cfg ptr.toNat data ++ write16 s.cfg.addrS0TxWr (ptr + len) ++
              [.wr s.cfg.addrS0Cr s.cfg.cmdSend] ++ (waits.map fun _ => .rd s.cfg.addrS0Cr) ++ [.rd s.cfg.addrS0Cr])
            ((polls.flatMap fun p => [p.1, p.2]) ++ [fh, fl, ph, pl] ++ ws ++ [w0, w1, w2] ++ waits ++ [done]) with
          src := data
          x := { s.x with
            cmd := 0x23#8, len := len, free := free, ptr := ptr, off := BitVec.ofNat 13 ptr.toNat
            upper := BitVec.ofNat 14 (ringSplit (ptr.toNat % 8192) len.toNat).1
            left := BitVec.ofNat 16 (ringSplit (ptr.toNat % 8192) len.toNat).2
            nptr := ptr + len, stat := done.r3, i := 0#17, hi16 := ph.r3 }
          responses := s.responses ++ [.bool true] }

/-- R205: however SEND_FRAME came to answer true, the chip's image of the TX ring holds the frame: byte `i` at
`TX_BASE + ((PTR + i) & RING_MASK)`. -/
def Obligations.SentFrameStandsInTheTxRing : Prop :=
  ∀ (len : U16) (data : List Byte) (s t : State) (n : Nat), s.mode = .idle → s.cfg.wf = true →
    data.length = len.toNat → Completes (.sendFrame len data) n s t → t.mode = .idle →
      t.responses = s.responses ++ [.bool true] ∧
        ∀ (i : Nat) (v : Byte), data[i]? = some v →
          memRead t.chip (txPhys s.cfg (t.x.ptr + BitVec.ofNat 16 i)).toNat = some v

/-- R239, R201: as long as every free-size counter read is below LEN, SEND_FRAME keeps polling: MODE stays BUSY, no response
is sent, FAULT is unchanged, and only poll exchanges are made, two a poll. -/
def Obligations.SendFrameKeepsPolling : Prop :=
  ∀ (len : U16) (data : List Byte) (s : State) (polls : List (Reply × Reply)), s.mode = .idle → s.sock = .opened →
    len.toNat ≤ 8192 → (∀ p ∈ polls, (join16 p.1.r3 p.2.r3).toNat < len.toNat) →
    s.repliesWith (polls.flatMap fun p => [p.1, p.2]) →
      ∃ t, Continues (.sendFrame len data) (3 * polls.length + 1) s t ∧ t.mode = .busy (.sendFrame .fsrHi) ∧
        t.responses = s.responses ∧ t.fault = s.fault ∧ t.chip = s.chip ∧
        t.trace = s.trace ++ busTrace s.cfg (polls.flatMap fun _ => read16 s.cfg.addrS0TxFsr)
          (polls.flatMap fun p => [p.1, p.2])

/-- R239, R204: as long as S0_CR reads other than CMD_IDLE, the completion wait goes on: two steps a poll, MODE stays BUSY,
no response is sent and FAULT is unchanged. -/
def Obligations.CompletionWaitKeepsPolling : Prop :=
  ∀ (s : State) (waits : List Reply), s.mode = .busy (.sendFrame .poll) → (∀ r ∈ waits, r.r3 ≠ s.cfg.cmdIdle) →
    s.repliesWith waits →
      ∃ t, Continues (.sendFrame s.x.len s.src) (2 * waits.length) s t ∧ t.mode = .busy (.sendFrame .poll) ∧
        t.responses = s.responses ∧ t.fault = s.fault ∧ t.chip = s.chip ∧
        t.trace = s.trace ++ busTrace s.cfg (waits.map fun _ => .rd s.cfg.addrS0Cr) waits

/-- R244: after CONFIGURE, DISABLE_ECHO and an ENABLE_RAW that answered true, SOCK is OPEN, the status read was 0x42, and
the block's image of the chip is what it was before with exactly this stored: the reset, the identity, MR with the ping-block
bit, both memory sizes, the mode, the open command. No ring pointer is among it. (The order of the exchanges is that of
ConfigureCompletes, DisableEchoCompletes and EnableRawCompletes; an image does not show it.) -/
def Obligations.BootStoresExactlyTheStatedRegisters : Prop :=
  ∀ (mac : Bytes6) (ip gw sn : Bytes4) (s s1 s2 s3 : State) (n1 n2 n3 : Nat), s.mode = .idle →
    Completes (.configure mac ip gw sn) n1 s s1 → s1.mode = .idle →
    Completes .disableEcho n2 s1 s2 → s2.mode = .idle →
    Completes .enableRaw n3 s2 s3 → s3.responses = s2.responses ++ [.bool true] →
      s3.mode = .idle ∧ s3.sock = .opened ∧ s3.x.stat = 0x42#8 ∧
        ∃ mrv : Byte, s3.chip = chipWrites s.chip (configureWrites s.cfg mac ip gw sn ++
          [.wr s.cfg.addrMr (mrv ||| s.cfg.mrPb), .wr s.cfg.addrRmsr s.cfg.msrSock0All,
            .wr s.cfg.addrTmsr s.cfg.msrSock0All, .wr s.cfg.addrS0Mr s.cfg.s0MrMacraw,
            .wr s.cfg.addrS0Cr s.cfg.cmdOpen])

/-! ### Ring arithmetic -/

/-- R141, R142: ring translation gives `base + (p mod RING_SIZE)`, inside the ring. -/
def Obligations.RingTranslationStaysInTheRing : Prop :=
  ∀ (c : Params) (p : U16), c.wf = true →
    (rxPhys c p).toNat = c.rxBase.toNat + p.toNat % 8192 ∧ (rxPhys c p).toNat < c.rxBase.toNat + 8192 ∧
      (txPhys c p).toNat = c.txBase.toNat + p.toNat % 8192 ∧ (txPhys c p).toNat < c.txBase.toNat + 8192

/-- R143: pointer advance is plain 16-bit overflow, and masking it afterwards is advancing the offset modulo RING_SIZE. -/
def Obligations.PointerAdvanceWraps : Prop :=
  ∀ p n : U16, (advancePtr p n).toNat = (p.toNat + n.toNat) % 65536 ∧
    ((advancePtr p n) &&& 0x1FFF#16).toNat = ((p &&& 0x1FFF#16).toNat + n.toNat) % 8192

/-- R154: the single split, and the callers' runs: whenever a frame command splits a run, the run fits the ring. -/
def Obligations.RunsSplitAtMostOnce : Prop :=
  (∀ off n : Nat, off < 8192 →
      (off + n > 8192 → ringSplit off n = (8192 - off, n - (8192 - off))) ∧
        (off + n ≤ 8192 → ringSplit off n = (n, 0)) ∧
        (ringSplit off n).1 + (ringSplit off n).2 = n ∧
        (n ≤ 8192 → (ringSplit off n).2 ≤ off ∧ off + (ringSplit off n).1 ≤ 8192)) ∧
    ∀ s : State, Inv s →
      (s.mode = .busy (.receiveFrame .split) → s.x.hdr.toNat ≤ 8192) ∧
        (s.mode = .busy (.sendFrame .split) → s.x.len.toNat ≤ 8192)

/-- R155: the chip addresses a split run visits, tail part then base part, are those of the unsplit run with its offsets
modulo RING_SIZE, whatever the ring's base is. -/
def Obligations.SplitRunsAreTransparent : Prop :=
  ∀ base off n : Nat, off < 8192 → n ≤ 8192 →
    ((List.range (ringSplit off n).1).map fun i => base + off + i) ++
        ((List.range (ringSplit off n).2).map fun j => base + j) =
      (List.range n).map fun i => base + (off + i) % 8192

/-- R60: every ring access of RECEIVE_FRAME and SEND_FRAME stays inside its ring. -/
def Obligations.RingAccessesStayInTheirRing : Prop :=
  ∀ s : State, Inv s →
    (∀ p a, s.mode = .busy (.receiveFrame p) → p ∈ [.hdrHi, .hdrLo, .tail, .base] → s.issued = some (.busRead a) →
        s.cfg.rxBase.toNat ≤ a.toNat ∧ a.toNat < s.cfg.rxBase.toNat + 8192) ∧
      ∀ p a v, s.mode = .busy (.sendFrame p) → p ∈ [.tail, .base] → s.issued = some (.busWrite a v) →
        s.cfg.txBase.toNat ≤ a.toNat ∧ a.toNat < s.cfg.txBase.toNat + 8192

/-- R11: both masks are RING_MASK, and the ring size is tied to the chip's memory-size configuration: under R10's and R11's
constraints MSR_SOCK0_ALL is a value that gives socket 0 rings of RING_SIZE, no other value may take its place, and no step
undoes the tie. (The table of memory sizes is the model's form of the tie, log 30.) -/
def Obligations.RingSizeIsTiedToTheMemorySize : Prop :=
  (∀ (c : Params) (p : U16), rxPhys c p = c.rxBase + (p &&& 0x1FFF#16) ∧ txPhys c p = c.txBase + (p &&& 0x1FFF#16)) ∧
    (∀ c : Params, c.wf = true → c.memorySizes.lookup c.msrSock0All = some 8192) ∧
    (∀ (c : Params) (v : Byte), c.memorySizes.lookup v ≠ some 8192 → ({ c with msrSock0All := v } : Params).wf = false) ∧
    ∀ s t : State, s.cfg.wf = true → step s = .next t → t.cfg.memorySizes.lookup t.cfg.msrSock0All = some 8192
end

