-- ==== Sys2Proof/Laws/Memory.lean ====
section
/-! SUPPORT. The laws of byte memories: read after write, the canonical form, the range of addresses. -/

namespace Sys2Proof.Machine

@[simp] theorem memRead_nil (a : Nat) : memRead [] a = none := rfl

/-- A read after a write gives the written byte at that address and the old one everywhere else. -/
@[simp] theorem memRead_memWrite (m : Memory) (a b : Nat) (v : Byte) :
    memRead (memWrite m a v) b = if a = b then some v else memRead m b := by
  induction m with
  | nil => simp [memWrite, memRead]
  | cons e m ih =>
    obtain ⟨c, w⟩ := e
    by_cases h1 : a < c
    · simp [memWrite, memRead, h1]
    · by_cases h2 : a = c
      · subst h2; by_cases h4 : a = b <;> simp [memWrite, memRead, h4]
      · simp only [memWrite, memRead, h1, h2, if_false, ih]
        by_cases h3 : c = b
        · have : a ≠ b := by omega
          simp [h3, this]
        · simp [h3]

theorem risesAbove_memWrite (m : Memory) (c a : Nat) (v : Byte) (hca : c < a)
    (hm : Memory.risesAbove c m = true) : Memory.risesAbove c (memWrite m a v) = true := by
  induction m generalizing c with
  | nil => simp [memWrite, Memory.risesAbove, hca]
  | cons e m ih =>
    obtain ⟨b, w⟩ := e
    simp only [Memory.risesAbove, Bool.and_eq_true, decide_eq_true_eq] at hm
    unfold memWrite
    split
    · simp_all [Memory.risesAbove]
    · split
      · simp_all [Memory.risesAbove]
      · have : b < a := by omega
        simp [Memory.risesAbove, hm.1, ih b this hm.2]

/-- Every write keeps the canonical form. -/
theorem memWrite_wf (m : Memory) (a : Nat) (v : Byte) (hm : Memory.wf m = true) :
    Memory.wf (memWrite m a v) = true := by
  cases m with
  | nil => simp [memWrite, Memory.wf, Memory.risesAbove]
  | cons e m =>
    obtain ⟨b, w⟩ := e
    simp only [Memory.wf] at hm
    unfold memWrite
    split
    · simp_all [Memory.wf, Memory.risesAbove]
    · split
      · simp_all [Memory.wf]
      · have : b < a := by omega
        simpa [Memory.wf] using risesAbove_memWrite m b a v this hm

/-- So does a list of writes. -/
theorem memWriteList_wf (vs : List Byte) (m : Memory) (a : Nat) (hm : Memory.wf m = true) :
    Memory.wf (memWriteList m a vs) = true := by
  induction vs generalizing m a with
  | nil => exact hm
  | cons v vs ih => exact ih _ _ (memWrite_wf m a v hm)

/-- Reset memory has the canonical form. -/
theorem reset_memory_wf : Memory.wf State.reset.chip = true ∧ Memory.wf State.reset.dest = true := ⟨rfl, rfl⟩

/-- A write inside a range keeps every listed address inside it. -/
theorem memWrite_range (m : Memory) (a n : Nat) (v : Byte) (ha : a < n) (hm : ∀ c ∈ m, c.1 < n) :
    ∀ c ∈ memWrite m a v, c.1 < n := by
  induction m with
  | nil => simp [memWrite, ha]
  | cons e m ih =>
    obtain ⟨b, w⟩ := e
    have hb : b < n := hm (b, w) (by simp)
    have ht : ∀ c ∈ m, c.1 < n := fun c hc => hm c (by simp [hc])
    unfold memWrite
    split
    · intro c hc
      rcases List.mem_cons.1 hc with rfl | hc
      · exact ha
      · exact hm c hc
    · split
      · intro c hc
        rcases List.mem_cons.1 hc with rfl | hc
        · exact ha
        · exact ht c hc
      · intro c hc
        rcases List.mem_cons.1 hc with rfl | hc
        · exact hb
        · exact ih ht c hc

/-- Canonical memories that read alike everywhere are equal. -/
theorem memRead_risesAbove (m : Memory) (c a : Nat) (h : Memory.risesAbove c m = true) (ha : a ≤ c) :
    memRead m a = none := by
  induction m generalizing c with
  | nil => rfl
  | cons e m ih =>
    obtain ⟨b, w⟩ := e
    simp only [Memory.risesAbove, Bool.and_eq_true, decide_eq_true_eq] at h
    have : b ≠ a := by omega
    simp [memRead, this, ih b h.2 (by omega)]

/-- A list of bytes written at ascending addresses reads back in order, and nothing else changes. -/
theorem memRead_memWriteList (vs : List Byte) (m : Memory) (a b : Nat) :
    memRead (memWriteList m a vs) b =
      if a ≤ b ∧ b < a + vs.length then vs[b - a]? else memRead m b := by
  induction vs generalizing m a with
  | nil => simp [memWriteList]
  | cons v vs ih =>
    simp only [memWriteList, ih, memRead_memWrite, List.length_cons]
    by_cases h1 : a = b
    · subst h1; simp
    · by_cases h2 : a + 1 ≤ b ∧ b < a + 1 + vs.length
      · obtain ⟨k, hk⟩ : ∃ k, b - a = k + 1 := ⟨b - a - 1, by omega⟩
        have : b - (a + 1) = k := by omega
        rw [if_pos h2, if_pos (by omega), hk, this]; simp
      · rw [if_neg h2, if_neg h1, if_neg (by omega)]

/-- Writing one more byte after a list of bytes. -/
theorem memWriteList_append (us vs : List Byte) (m : Memory) (a : Nat) :
    memWriteList m a (us ++ vs) = memWriteList (memWriteList m a us) (a + us.length) vs := by
  induction us generalizing m a with
  | nil => simp [memWriteList]
  | cons u us ih => simp [memWriteList, ih, Nat.add_assoc, Nat.add_comm 1]

end Sys2Proof.Machine
end

