-- ==== Sys2Proof/Laws/State.lean ====
section
/-! SUPPORT. One lemma for each field and each update of the state, so that no proof unfolds a record update. -/

namespace Sys2Proof.Machine

@[simp] theorem State.goto_cfg (s : State) (p : SeqStep) : (s.goto p).cfg = s.cfg := rfl
@[simp] theorem State.goto_mode (s : State) (p : SeqStep) : (s.goto p).mode = .busy p := rfl
@[simp] theorem State.goto_sock (s : State) (p : SeqStep) : (s.goto p).sock = s.sock := rfl
@[simp] theorem State.goto_fault (s : State) (p : SeqStep) : (s.goto p).fault = s.fault := rfl
@[simp] theorem State.goto_x (s : State) (p : SeqStep) : (s.goto p).x = s.x := rfl
@[simp] theorem State.goto_src (s : State) (p : SeqStep) : (s.goto p).src = s.src := rfl
@[simp] theorem State.goto_dest (s : State) (p : SeqStep) : (s.goto p).dest = s.dest := rfl
@[simp] theorem State.goto_chip (s : State) (p : SeqStep) : (s.goto p).chip = s.chip := rfl
@[simp] theorem State.goto_port (s : State) (p : SeqStep) : (s.goto p).port = s.port := rfl
@[simp] theorem State.goto_resets (s : State) (p : SeqStep) : (s.goto p).resets = s.resets := rfl
@[simp] theorem State.goto_answers (s : State) (p : SeqStep) : (s.goto p).answers = s.answers := rfl
@[simp] theorem State.goto_draws (s : State) (p : SeqStep) : (s.goto p).draws = s.draws := rfl
@[simp] theorem State.goto_trace (s : State) (p : SeqStep) : (s.goto p).trace = s.trace := rfl
@[simp] theorem State.goto_responses (s : State) (p : SeqStep) : (s.goto p).responses = s.responses := rfl

@[simp] theorem State.setRegs_cfg (s : State) (f : Regs → Regs) : (s.setRegs f).cfg = s.cfg := rfl
@[simp] theorem State.setRegs_mode (s : State) (f : Regs → Regs) : (s.setRegs f).mode = s.mode := rfl
@[simp] theorem State.setRegs_sock (s : State) (f : Regs → Regs) : (s.setRegs f).sock = s.sock := rfl
@[simp] theorem State.setRegs_fault (s : State) (f : Regs → Regs) : (s.setRegs f).fault = s.fault := rfl
@[simp] theorem State.setRegs_x (s : State) (f : Regs → Regs) : (s.setRegs f).x = f s.x := rfl
@[simp] theorem State.setRegs_src (s : State) (f : Regs → Regs) : (s.setRegs f).src = s.src := rfl
@[simp] theorem State.setRegs_dest (s : State) (f : Regs → Regs) : (s.setRegs f).dest = s.dest := rfl
@[simp] theorem State.setRegs_chip (s : State) (f : Regs → Regs) : (s.setRegs f).chip = s.chip := rfl
@[simp] theorem State.setRegs_port (s : State) (f : Regs → Regs) : (s.setRegs f).port = s.port := rfl
@[simp] theorem State.setRegs_resets (s : State) (f : Regs → Regs) : (s.setRegs f).resets = s.resets := rfl
@[simp] theorem State.setRegs_answers (s : State) (f : Regs → Regs) : (s.setRegs f).answers = s.answers := rfl
@[simp] theorem State.setRegs_draws (s : State) (f : Regs → Regs) : (s.setRegs f).draws = s.draws := rfl
@[simp] theorem State.setRegs_trace (s : State) (f : Regs → Regs) : (s.setRegs f).trace = s.trace := rfl
@[simp] theorem State.setRegs_responses (s : State) (f : Regs → Regs) : (s.setRegs f).responses = s.responses := rfl

@[simp] theorem State.setSock_cfg (s : State) (k : Sock) : (s.setSock k).cfg = s.cfg := rfl
@[simp] theorem State.setSock_mode (s : State) (k : Sock) : (s.setSock k).mode = s.mode := rfl
@[simp] theorem State.setSock_sock (s : State) (k : Sock) : (s.setSock k).sock = k := rfl
@[simp] theorem State.setSock_fault (s : State) (k : Sock) : (s.setSock k).fault = s.fault := rfl
@[simp] theorem State.setSock_x (s : State) (k : Sock) : (s.setSock k).x = s.x := rfl
@[simp] theorem State.setSock_src (s : State) (k : Sock) : (s.setSock k).src = s.src := rfl
@[simp] theorem State.setSock_dest (s : State) (k : Sock) : (s.setSock k).dest = s.dest := rfl
@[simp] theorem State.setSock_chip (s : State) (k : Sock) : (s.setSock k).chip = s.chip := rfl
@[simp] theorem State.setSock_port (s : State) (k : Sock) : (s.setSock k).port = s.port := rfl
@[simp] theorem State.setSock_resets (s : State) (k : Sock) : (s.setSock k).resets = s.resets := rfl
@[simp] theorem State.setSock_answers (s : State) (k : Sock) : (s.setSock k).answers = s.answers := rfl
@[simp] theorem State.setSock_draws (s : State) (k : Sock) : (s.setSock k).draws = s.draws := rfl
@[simp] theorem State.setSock_trace (s : State) (k : Sock) : (s.setSock k).trace = s.trace := rfl
@[simp] theorem State.setSock_responses (s : State) (k : Sock) : (s.setSock k).responses = s.responses := rfl

@[simp] theorem State.storeChip_cfg (s : State) (a : Addr) (v : Byte) : (s.storeChip a v).cfg = s.cfg := rfl
@[simp] theorem State.storeChip_mode (s : State) (a : Addr) (v : Byte) : (s.storeChip a v).mode = s.mode := rfl
@[simp] theorem State.storeChip_sock (s : State) (a : Addr) (v : Byte) : (s.storeChip a v).sock = s.sock := rfl
@[simp] theorem State.storeChip_fault (s : State) (a : Addr) (v : Byte) : (s.storeChip a v).fault = s.fault := rfl
@[simp] theorem State.storeChip_x (s : State) (a : Addr) (v : Byte) : (s.storeChip a v).x = s.x := rfl
@[simp] theorem State.storeChip_src (s : State) (a : Addr) (v : Byte) : (s.storeChip a v).src = s.src := rfl
@[simp] theorem State.storeChip_dest (s : State) (a : Addr) (v : Byte) : (s.storeChip a v).dest = s.dest := rfl
@[simp] theorem State.storeChip_chip (s : State) (a : Addr) (v : Byte) : (s.storeChip a v).chip = memWrite s.chip a.toNat v := rfl
@[simp] theorem State.storeChip_port (s : State) (a : Addr) (v : Byte) : (s.storeChip a v).port = s.port := rfl
@[simp] theorem State.storeChip_resets (s : State) (a : Addr) (v : Byte) : (s.storeChip a v).resets = s.resets := rfl
@[simp] theorem State.storeChip_answers (s : State) (a : Addr) (v : Byte) : (s.storeChip a v).answers = s.answers := rfl
@[simp] theorem State.storeChip_draws (s : State) (a : Addr) (v : Byte) : (s.storeChip a v).draws = s.draws := rfl
@[simp] theorem State.storeChip_trace (s : State) (a : Addr) (v : Byte) : (s.storeChip a v).trace = s.trace := rfl
@[simp] theorem State.storeChip_responses (s : State) (a : Addr) (v : Byte) : (s.storeChip a v).responses = s.responses := rfl

@[simp] theorem State.storeDest_cfg (s : State) (i : Nat) (v : Byte) : (s.storeDest i v).cfg = s.cfg := rfl
@[simp] theorem State.storeDest_mode (s : State) (i : Nat) (v : Byte) : (s.storeDest i v).mode = s.mode := rfl
@[simp] theorem State.storeDest_sock (s : State) (i : Nat) (v : Byte) : (s.storeDest i v).sock = s.sock := rfl
@[simp] theorem State.storeDest_fault (s : State) (i : Nat) (v : Byte) : (s.storeDest i v).fault = s.fault := rfl
@[simp] theorem State.storeDest_x (s : State) (i : Nat) (v : Byte) : (s.storeDest i v).x = s.x := rfl
@[simp] theorem State.storeDest_src (s : State) (i : Nat) (v : Byte) : (s.storeDest i v).src = s.src := rfl
@[simp] theorem State.storeDest_dest (s : State) (i : Nat) (v : Byte) : (s.storeDest i v).dest = memWrite s.dest i v := rfl
@[simp] theorem State.storeDest_chip (s : State) (i : Nat) (v : Byte) : (s.storeDest i v).chip = s.chip := rfl
@[simp] theorem State.storeDest_port (s : State) (i : Nat) (v : Byte) : (s.storeDest i v).port = s.port := rfl
@[simp] theorem State.storeDest_resets (s : State) (i : Nat) (v : Byte) : (s.storeDest i v).resets = s.resets := rfl
@[simp] theorem State.storeDest_answers (s : State) (i : Nat) (v : Byte) : (s.storeDest i v).answers = s.answers := rfl
@[simp] theorem State.storeDest_draws (s : State) (i : Nat) (v : Byte) : (s.storeDest i v).draws = s.draws := rfl
@[simp] theorem State.storeDest_trace (s : State) (i : Nat) (v : Byte) : (s.storeDest i v).trace = s.trace := rfl
@[simp] theorem State.storeDest_responses (s : State) (i : Nat) (v : Byte) : (s.storeDest i v).responses = s.responses := rfl

@[simp] theorem State.send_cfg (s : State) (r : Response) : (s.send r).cfg = s.cfg := rfl
@[simp] theorem State.send_mode (s : State) (r : Response) : (s.send r).mode = s.mode := rfl
@[simp] theorem State.send_sock (s : State) (r : Response) : (s.send r).sock = s.sock := rfl
@[simp] theorem State.send_fault (s : State) (r : Response) : (s.send r).fault = s.fault := rfl
@[simp] theorem State.send_x (s : State) (r : Response) : (s.send r).x = s.x := rfl
@[simp] theorem State.send_src (s : State) (r : Response) : (s.send r).src = s.src := rfl
@[simp] theorem State.send_dest (s : State) (r : Response) : (s.send r).dest = s.dest := rfl
@[simp] theorem State.send_chip (s : State) (r : Response) : (s.send r).chip = s.chip := rfl
@[simp] theorem State.send_port (s : State) (r : Response) : (s.send r).port = s.port := rfl
@[simp] theorem State.send_resets (s : State) (r : Response) : (s.send r).resets = s.resets := rfl
@[simp] theorem State.send_answers (s : State) (r : Response) : (s.send r).answers = s.answers := rfl
@[simp] theorem State.send_draws (s : State) (r : Response) : (s.send r).draws = s.draws := rfl
@[simp] theorem State.send_trace (s : State) (r : Response) : (s.send r).trace = s.trace := rfl
@[simp] theorem State.send_responses (s : State) (r : Response) : (s.send r).responses = s.responses ++ [r] := rfl

@[simp] theorem State.respond_cfg (s : State) (r : Response) : (s.respond r).cfg = s.cfg := rfl
@[simp] theorem State.respond_mode (s : State) (r : Response) : (s.respond r).mode = .idle := rfl
@[simp] theorem State.respond_sock (s : State) (r : Response) : (s.respond r).sock = s.sock := rfl
@[simp] theorem State.respond_fault (s : State) (r : Response) : (s.respond r).fault = s.fault := rfl
@[simp] theorem State.respond_x (s : State) (r : Response) : (s.respond r).x = s.x := rfl
@[simp] theorem State.respond_src (s : State) (r : Response) : (s.respond r).src = s.src := rfl
@[simp] theorem State.respond_dest (s : State) (r : Response) : (s.respond r).dest = s.dest := rfl
@[simp] theorem State.respond_chip (s : State) (r : Response) : (s.respond r).chip = s.chip := rfl
@[simp] theorem State.respond_port (s : State) (r : Response) : (s.respond r).port = s.port := rfl
@[simp] theorem State.respond_resets (s : State) (r : Response) : (s.respond r).resets = s.resets := rfl
@[simp] theorem State.respond_answers (s : State) (r : Response) : (s.respond r).answers = s.answers := rfl
@[simp] theorem State.respond_draws (s : State) (r : Response) : (s.respond r).draws = s.draws := rfl
@[simp] theorem State.respond_trace (s : State) (r : Response) : (s.respond r).trace = s.trace := rfl
@[simp] theorem State.respond_responses (s : State) (r : Response) : (s.respond r).responses = s.responses ++ [r] := rfl

@[simp] theorem State.raise_cfg (s : State) (f : BlockFault) (info : U16) : (s.raise f info).cfg = s.cfg := rfl
@[simp] theorem State.raise_mode (s : State) (f : BlockFault) (info : U16) : (s.raise f info).mode = .halted := rfl
@[simp] theorem State.raise_sock (s : State) (f : BlockFault) (info : U16) : (s.raise f info).sock = s.sock := rfl
@[simp] theorem State.raise_fault (s : State) (f : BlockFault) (info : U16) : (s.raise f info).fault = ⟨f.code, info⟩ := rfl
@[simp] theorem State.raise_x (s : State) (f : BlockFault) (info : U16) : (s.raise f info).x = s.x := rfl
@[simp] theorem State.raise_src (s : State) (f : BlockFault) (info : U16) : (s.raise f info).src = s.src := rfl
@[simp] theorem State.raise_dest (s : State) (f : BlockFault) (info : U16) : (s.raise f info).dest = s.dest := rfl
@[simp] theorem State.raise_chip (s : State) (f : BlockFault) (info : U16) : (s.raise f info).chip = s.chip := rfl
@[simp] theorem State.raise_port (s : State) (f : BlockFault) (info : U16) : (s.raise f info).port = s.port := rfl
@[simp] theorem State.raise_resets (s : State) (f : BlockFault) (info : U16) : (s.raise f info).resets = s.resets := rfl
@[simp] theorem State.raise_answers (s : State) (f : BlockFault) (info : U16) : (s.raise f info).answers = s.answers := rfl
@[simp] theorem State.raise_draws (s : State) (f : BlockFault) (info : U16) : (s.raise f info).draws = s.draws := rfl
@[simp] theorem State.raise_trace (s : State) (f : BlockFault) (info : U16) : (s.raise f info).trace = s.trace := rfl
@[simp] theorem State.raise_responses (s : State) (f : BlockFault) (info : U16) : (s.raise f info).responses = s.responses ++ [.fault f.code info] := rfl

@[simp] theorem State.exchanged_cfg (s : State) (f : Frame) : (s.exchanged f).cfg = s.cfg := rfl
@[simp] theorem State.exchanged_mode (s : State) (f : Frame) : (s.exchanged f).mode = s.mode := rfl
@[simp] theorem State.exchanged_sock (s : State) (f : Frame) : (s.exchanged f).sock = s.sock := rfl
@[simp] theorem State.exchanged_fault (s : State) (f : Frame) : (s.exchanged f).fault = s.fault := rfl
@[simp] theorem State.exchanged_x (s : State) (f : Frame) : (s.exchanged f).x = s.x := rfl
@[simp] theorem State.exchanged_src (s : State) (f : Frame) : (s.exchanged f).src = s.src := rfl
@[simp] theorem State.exchanged_dest (s : State) (f : Frame) : (s.exchanged f).dest = s.dest := rfl
@[simp] theorem State.exchanged_chip (s : State) (f : Frame) : (s.exchanged f).chip = s.chip := rfl
@[simp] theorem State.exchanged_port (s : State) (f : Frame) : (s.exchanged f).port = s.port := rfl
@[simp] theorem State.exchanged_resets (s : State) (f : Frame) : (s.exchanged f).resets = s.resets := rfl
@[simp] theorem State.exchanged_answers (s : State) (f : Frame) : (s.exchanged f).answers = s.answers.tail := rfl
@[simp] theorem State.exchanged_draws (s : State) (f : Frame) : (s.exchanged f).draws = s.draws + 1 := rfl
@[simp] theorem State.exchanged_trace (s : State) (f : Frame) : (s.exchanged f).trace = s.trace ++ [⟨f, s.nextAnswer⟩] := rfl
@[simp] theorem State.exchanged_responses (s : State) (f : Frame) : (s.exchanged f).responses = s.responses := rfl

@[simp] theorem State.accept_cfg (s : State) (op : Byte) (l : Regs → Regs) (p : SeqStep) : (s.accept op l p).cfg = s.cfg := rfl
@[simp] theorem State.accept_mode (s : State) (op : Byte) (l : Regs → Regs) (p : SeqStep) : (s.accept op l p).mode = .busy p := rfl
@[simp] theorem State.accept_sock (s : State) (op : Byte) (l : Regs → Regs) (p : SeqStep) : (s.accept op l p).sock = s.sock := rfl
@[simp] theorem State.accept_fault (s : State) (op : Byte) (l : Regs → Regs) (p : SeqStep) : (s.accept op l p).fault = s.fault := rfl
@[simp] theorem State.accept_x (s : State) (op : Byte) (l : Regs → Regs) (p : SeqStep) : (s.accept op l p).x = l { s.x with cmd := op } := rfl
@[simp] theorem State.accept_src (s : State) (op : Byte) (l : Regs → Regs) (p : SeqStep) : (s.accept op l p).src = s.src := rfl
@[simp] theorem State.accept_dest (s : State) (op : Byte) (l : Regs → Regs) (p : SeqStep) : (s.accept op l p).dest = s.dest := rfl
@[simp] theorem State.accept_chip (s : State) (op : Byte) (l : Regs → Regs) (p : SeqStep) : (s.accept op l p).chip = s.chip := rfl
@[simp] theorem State.accept_port (s : State) (op : Byte) (l : Regs → Regs) (p : SeqStep) : (s.accept op l p).port = s.port := rfl
@[simp] theorem State.accept_resets (s : State) (op : Byte) (l : Regs → Regs) (p : SeqStep) : (s.accept op l p).resets = s.resets := rfl
@[simp] theorem State.accept_answers (s : State) (op : Byte) (l : Regs → Regs) (p : SeqStep) : (s.accept op l p).answers = s.answers := rfl
@[simp] theorem State.accept_draws (s : State) (op : Byte) (l : Regs → Regs) (p : SeqStep) : (s.accept op l p).draws = s.draws := rfl
@[simp] theorem State.accept_trace (s : State) (op : Byte) (l : Regs → Regs) (p : SeqStep) : (s.accept op l p).trace = s.trace := rfl
@[simp] theorem State.accept_responses (s : State) (op : Byte) (l : Regs → Regs) (p : SeqStep) : (s.accept op l p).responses = s.responses := rfl

@[simp] theorem State.blockReset_cfg (s : State) : s.blockReset.cfg = s.cfg := rfl
@[simp] theorem State.blockReset_mode (s : State) : s.blockReset.mode = .idle := rfl
@[simp] theorem State.blockReset_sock (s : State) : s.blockReset.sock = .closed := rfl
@[simp] theorem State.blockReset_fault (s : State) : s.blockReset.fault = ⟨0x00#8, 0x0000#16⟩ := rfl
@[simp] theorem State.blockReset_x (s : State) : s.blockReset.x = Regs.reset := rfl
@[simp] theorem State.blockReset_src (s : State) : s.blockReset.src = s.src := rfl
@[simp] theorem State.blockReset_dest (s : State) : s.blockReset.dest = s.dest := rfl
@[simp] theorem State.blockReset_chip (s : State) : s.blockReset.chip = s.chip := rfl
@[simp] theorem State.blockReset_port (s : State) : s.blockReset.port = s.port := rfl
@[simp] theorem State.blockReset_resets (s : State) : s.blockReset.resets = s.resets := rfl
@[simp] theorem State.blockReset_answers (s : State) : s.blockReset.answers = s.answers := rfl
@[simp] theorem State.blockReset_draws (s : State) : s.blockReset.draws = s.draws := rfl
@[simp] theorem State.blockReset_trace (s : State) : s.blockReset.trace = s.trace := rfl
@[simp] theorem State.blockReset_responses (s : State) : s.blockReset.responses = s.responses := rfl

@[simp] theorem State.wait_eq (s : State) (d : Nat) : s.wait d = s := rfl
@[simp] theorem State.enter_eq (s : State) (p : SeqStep) :
    s.enter p = (s.setRegs fun x => { x with i := 0#17 }).goto p := rfl
@[simp] theorem State.bump_eq (s : State) : s.bump = s.setRegs fun x => { x with i := x.i + 1#17 } := rfl
@[simp] theorem State.busFault_eq (s : State) (f : Frame) : s.busFault f = s.raise .busFault (join16 f.b1 f.b2) := rfl
@[simp] theorem State.answerHalted_eq (s : State) : s.answerHalted = s.send (.halted s.fault.code) := rfl

end Sys2Proof.Machine
end

