-- ==== Sys2Proof/Laws/Words.lean ====
section
/-! SUPPORT. Byte order, ring offsets and the split: the arithmetic the commands rest on. -/

namespace Sys2Proof

theorem join16_toNat (h l : Byte) : (join16 h l).toNat = h.toNat * 256 + l.toNat := by
  have h1 : (join16 h l).toNat = h.toNat <<< 8 ||| l.toNat := BitVec.toNat_append h l
  rw [h1, ← Nat.shiftLeft_add_eq_or_of_lt (show l.toNat < 2 ^ 8 by omega), Nat.shiftLeft_eq]

theorem hiByte_toNat (v : U16) : (hiByte v).toNat = v.toNat / 256 := by
  simp [hiByte, Nat.shiftRight_eq_div_pow]; omega

theorem loByte_toNat (v : U16) : (loByte v).toNat = v.toNat % 256 := by simp [loByte]

@[simp] theorem join16_hiByte_loByte (v : U16) : join16 (hiByte v) (loByte v) = v := by
  apply BitVec.eq_of_toNat_eq; rw [join16_toNat, hiByte_toNat, loByte_toNat]; omega

@[simp] theorem hiByte_join16 (h l : Byte) : hiByte (join16 h l) = h := by
  apply BitVec.eq_of_toNat_eq; rw [hiByte_toNat, join16_toNat]; omega

@[simp] theorem loByte_join16 (h l : Byte) : loByte (join16 h l) = l := by
  apply BitVec.eq_of_toNat_eq; rw [loByte_toNat, join16_toNat]; omega

/-- What R10's constraints on the configuration say. -/
theorem Params.wf_elim {c : Params} (h : c.wf = true) :
    c.dirRead ≠ c.dirWrite ∧ c.rxBase.toNat + 8192 ≤ 65536 ∧ c.txBase.toNat + 8192 ≤ 65536 ∧
      (c.rxBase.toNat + 8192 ≤ c.txBase.toNat ∨ c.txBase.toNat + 8192 ≤ c.rxBase.toNat) ∧
      ∀ r ∈ c.registers, ∀ k < r.2,
        ((r.1.toNat + k) % 65536 < c.rxBase.toNat ∨ c.rxBase.toNat + 8192 ≤ (r.1.toNat + k) % 65536) ∧
          ((r.1.toNat + k) % 65536 < c.txBase.toNat ∨ c.txBase.toNat + 8192 ≤ (r.1.toNat + k) % 65536) := by
  unfold Params.wf rangesApart outsideRing Config.ringSize at h
  simp only [Bool.and_eq_true, bne_iff_ne, List.all_eq_true, Bool.or_eq_true, decide_eq_true_eq, List.mem_range] at h
  obtain ⟨⟨⟨⟨⟨h1, h2⟩, h3⟩, h4⟩, _⟩, h5⟩ := h
  refine ⟨h1, h2, h3, h4, fun r hr k hk => ?_⟩
  exact ⟨(h5 r hr).1 k hk, (h5 r hr).2 k hk⟩

/-- The memory size the chip is configured with is the ring size (R11). -/
theorem Params.wf_memoryTied {c : Params} (h : c.wf = true) : c.memorySizes.lookup c.msrSock0All = some 8192 := by
  unfold Params.wf at h
  simp only [Bool.and_eq_true] at h
  exact beq_iff_eq.1 h.1.2

/-- A selector names a pair exactly when R78 marks it legal in RING_READ. -/
theorem ringPair_isSome (sel : Byte) : (ringPair sel).isSome = legalReadSelector sel := by
  revert sel; decide

namespace Machine

/-- A selector names a writable pair exactly when R78 marks it legal in RING_WRITE. -/
theorem writePair_isSome (sel : Byte) : (writePair sel).isSome = legalWriteSelector sel := by
  revert sel; decide

theorem ringMask_toNat (p : U16) : (p &&& Config.ringMask).toNat = p.toNat % 8192 := by
  rw [BitVec.toNat_and]; exact Nat.and_two_pow_sub_one_eq_mod p.toNat 13

@[simp] theorem ringOffset_toNat (p : U16) : (ringOffset p).toNat = p.toNat % 8192 := by
  rw [ringOffset, BitVec.toNat_setWidth, ringMask_toNat]; omega

theorem ringOffset_eq (p : U16) : ringOffset p = BitVec.ofNat 13 p.toNat := by
  apply BitVec.eq_of_toNat_eq; simp

@[simp] theorem addrPlus_zero (a : Addr) : addrPlus a 0 = a := by simp [addrPlus]

theorem addrPlus_toNat (a : Addr) (n : Nat) : (addrPlus a n).toNat = (a.toNat + n) % 65536 := by
  simp [addrPlus, BitVec.toNat_add]

theorem addrPlus_addrPlus (a : Addr) (m n : Nat) : addrPlus (addrPlus a m) n = addrPlus a (m + n) := by
  simp [addrPlus, BitVec.ofNat_add, BitVec.add_assoc]

/-- The two parts of a split run add up (R154). -/
theorem ringSplit_sum (off n : Nat) (h : off < 8192) : (ringSplit off n).1 + (ringSplit off n).2 = n := by
  unfold ringSplit Config.ringSize; split <;> simp; omega

/-- The tail part stays inside the ring, and the base part does not pass its start (R154). -/
theorem ringSplit_bounds (off n : Nat) (h : off < 8192) (hn : n ≤ 8192) :
    off + (ringSplit off n).1 ≤ 8192 ∧ (ringSplit off n).2 ≤ off ∧ (ringSplit off n).1 ≤ n := by
  unfold ringSplit Config.ringSize; split <;> simp <;> omega

/-- Byte `i` of a split run is at ring offset `(off + i) mod RING_SIZE` (R155): in the tail part ... -/
theorem ringSplit_tail (off n i : Nat) (h : off < 8192) (hi : i < (ringSplit off n).1) : (off + i) % 8192 = off + i := by
  unfold ringSplit Config.ringSize at hi; split at hi <;> simp at hi <;> omega

/-- ... and in the base part. -/
theorem ringSplit_base (off n j : Nat) (h : off < 8192) (hn : n ≤ 8192) (hj : j < (ringSplit off n).2) :
    (off + ((ringSplit off n).1 + j)) % 8192 = j := by
  unfold ringSplit Config.ringSize at *; split at hj <;> rename_i hc <;> simp [hc] at hj ⊢; omega

end Machine

end Sys2Proof
end

