-- ==== Sys2Proof/Laws/Bus.lean ====
section
/-! SUPPORT. The bus exchange: what the port answers next, what a successful and a failed exchange do, and what an action
does when it answers a next state. -/

namespace Sys2Proof.Machine

/-! ### Upcoming answers -/

theorem State.nextAnswer_eq_upcoming (s : State) : s.nextAnswer = s.upcoming 0 := by
  unfold State.nextAnswer State.upcoming
  cases s.answers <;> simp

@[simp] theorem State.upcoming_exchanged (s : State) (f : Frame) (k : Nat) :
    (s.exchanged f).upcoming k = s.upcoming (k + 1) := by
  unfold State.upcoming
  cases h : s.answers with
  | nil => simp [h]; congr 1; omega
  | cons a as => simp [h, Nat.add_comm, Nat.add_left_comm]

/-- Upcoming answers depend on the answers given and the counter only. -/
theorem State.upcoming_congr {s t : State} (h1 : s.answers = t.answers) (h2 : s.draws = t.draws) (k : Nat) :
    s.upcoming k = t.upcoming k := by unfold State.upcoming; rw [h1, h2]

@[simp] theorem State.upcoming_goto (s : State) (p : SeqStep) (k : Nat) : (s.goto p).upcoming k = s.upcoming k := rfl
@[simp] theorem State.upcoming_setRegs (s : State) (f : Regs → Regs) (k : Nat) :
    (s.setRegs f).upcoming k = s.upcoming k := rfl
@[simp] theorem State.upcoming_setSock (s : State) (j : Sock) (k : Nat) : (s.setSock j).upcoming k = s.upcoming k := rfl
@[simp] theorem State.upcoming_storeChip (s : State) (a : Addr) (v : Byte) (k : Nat) :
    (s.storeChip a v).upcoming k = s.upcoming k := rfl
@[simp] theorem State.upcoming_storeDest (s : State) (i : Nat) (v : Byte) (k : Nat) :
    (s.storeDest i v).upcoming k = s.upcoming k := rfl
@[simp] theorem State.upcoming_accept (s : State) (op : Byte) (l : Regs → Regs) (p : SeqStep) (k : Nat) :
    (s.accept op l p).upcoming k = s.upcoming k := rfl

theorem State.repliesWith_nil (s : State) : s.repliesWith [] := by intro k r h; simp at h

theorem State.repliesWith_cons {s : State} {r : Reply} {rs : List Reply} :
    s.repliesWith (r :: rs) ↔ s.nextAnswer = r.answer ∧ ∀ f, (s.exchanged f).repliesWith rs := by
  constructor
  · intro h
    refine ⟨by rw [State.nextAnswer_eq_upcoming]; exact h 0 r rfl, fun f k q hq => ?_⟩
    rw [State.upcoming_exchanged]; exact h (k + 1) q (by simpa using hq)
  · rintro ⟨h1, h2⟩ k q hq
    cases k with
    | zero => simp at hq; subst hq; rw [← State.nextAnswer_eq_upcoming]; exact h1
    | succ k =>
      have := h2 ⟨0#8, 0#8, 0#8, 0#8⟩ k q (by simpa using hq)
      rwa [State.upcoming_exchanged] at this

theorem State.repliesWith_congr {s t : State} (h1 : s.answers = t.answers) (h2 : s.draws = t.draws) (rs : List Reply) :
    s.repliesWith rs ↔ t.repliesWith rs := by
  constructor <;> intro h k r hr
  · rw [← State.upcoming_congr h1 h2]; exact h k r hr
  · rw [State.upcoming_congr h1 h2]; exact h k r hr

theorem State.repliesWith_append {s : State} {qs rs : List Reply} :
    s.repliesWith (qs ++ rs) ↔ s.repliesWith qs ∧ ∀ ops, (s.afterBus ops qs).repliesWith rs := by
  have key : ∀ (ops : List BusOp) (k : Nat), (s.afterBus ops qs).upcoming k = s.upcoming (qs.length + k) := by
    intro ops k
    simp only [State.upcoming, State.afterBus, List.getElem?_drop]
    cases s.answers[qs.length + k]? <;> simp [Nat.add_assoc]
  constructor
  · intro h
    refine ⟨fun k r hr => h k r ?_, fun ops k r hr => ?_⟩
    · have : k < qs.length := (List.getElem?_eq_some_iff.1 hr).1
      simpa [List.getElem?_append_left this] using hr
    · rw [key]; exact h _ r (by simpa [List.getElem?_append_right] using hr)
  · rintro ⟨h1, h2⟩ k r hr
    by_cases hk : k < qs.length
    · exact h1 k r (by simpa [List.getElem?_append_left hk] using hr)
    · have := h2 [] (k - qs.length) r (by simpa [List.getElem?_append_right (Nat.le_of_not_lt hk)] using hr)
      rwa [key, Nat.add_sub_cancel' (Nat.le_of_not_lt hk)] at this

/-! ### One exchange -/

theorem busRead_ok {s : State} {r : Reply} (h : s.nextAnswer = r.answer) (a : Addr) (k : Byte → State → State) :
    busRead a k s = k r.r3 (s.exchanged (readFrame s.cfg a)) := by
  simp [busRead, h, Reply.answer]

theorem busRead_fail {s : State} {b : Bool} (h : s.nextAnswer = .fail b) (a : Addr) (k : Byte → State → State) :
    busRead a k s = (s.exchanged (readFrame s.cfg a)).raise .busFault a := by
  simp [busRead, h, readFrame]

theorem busWrite_ok {s : State} {r : Reply} (h : s.nextAnswer = r.answer) (a : Addr) (v : Byte) (k : State → State) :
    busWrite a v k s = k ((s.exchanged (writeFrame s.cfg a v)).storeChip a v) := by
  simp [busWrite, h, Reply.answer]

theorem busWrite_fail {s : State} {b : Bool} (h : s.nextAnswer = .fail b) (a : Addr) (v : Byte) (k : State → State) :
    busWrite a v k s =
      (if b then (s.exchanged (writeFrame s.cfg a v)).storeChip a v else s.exchanged (writeFrame s.cfg a v)).raise
        .busFault a := by
  cases b <;> simp [busWrite, h, writeFrame]

/-- An answer is a success or a failure. -/
theorem BusAnswer.ok_or_fail (x : BusAnswer) : (∃ r : Reply, x = r.answer) ∨ ∃ b, x = .fail b := by
  cases x with
  | ok r0 r1 r2 r3 => exact .inl ⟨⟨r0, r1, r2, r3⟩, rfl⟩
  | fail b => exact .inr ⟨b, rfl⟩

/-! ### Actions -/

/-- What an action does when it answers a next state. -/
theorem perform_cases {act : Action} {s t : State} (h : perform act s = .next t) :
    (∃ a k, act = .read a k ∧
      ((∃ r : Reply, s.nextAnswer = r.answer ∧ t = k r.r3 (s.exchanged (readFrame s.cfg a))) ∨
        ∃ b, s.nextAnswer = .fail b ∧ t = (s.exchanged (readFrame s.cfg a)).raise .busFault a)) ∨
    (∃ a v k, act = .write a v k ∧
      ((∃ r : Reply, s.nextAnswer = r.answer ∧ t = k ((s.exchanged (writeFrame s.cfg a v)).storeChip a v)) ∨
        ∃ b, s.nextAnswer = .fail b ∧
          t = (if b then (s.exchanged (writeFrame s.cfg a v)).storeChip a v
            else s.exchanged (writeFrame s.cfg a v)).raise .busFault a)) ∨
    act = .compute t ∨
    (∃ r, act = .respond r ∧ t = s.respond r) ∨
    (∃ f info, act = .raise f info ∧ t = s.raise f info) := by
  cases act with
  | read a k =>
    simp only [perform, Host.Outcome.next.injEq] at h
    left; refine ⟨a, k, rfl, ?_⟩
    rcases BusAnswer.ok_or_fail s.nextAnswer with ⟨r, hr⟩ | ⟨b, hb⟩
    · exact .inl ⟨r, hr, by rw [← h, busRead_ok hr]⟩
    · exact .inr ⟨b, hb, by rw [← h, busRead_fail hb]⟩
  | write a v k =>
    simp only [perform, Host.Outcome.next.injEq] at h
    right; left; refine ⟨a, v, k, rfl, ?_⟩
    rcases BusAnswer.ok_or_fail s.nextAnswer with ⟨r, hr⟩ | ⟨b, hb⟩
    · exact .inl ⟨r, hr, by rw [← h, busWrite_ok hr]⟩
    · exact .inr ⟨b, hb, by rw [← h, busWrite_fail hb]⟩
  | compute u => simp only [perform, Host.Outcome.next.injEq] at h; simp [h]
  | respond r => simp only [perform, Host.Outcome.next.injEq] at h; simp [h]
  | raise f info => simp only [perform, Host.Outcome.next.injEq] at h; simp [h]
  | stop f => simp [perform] at h

/-- Every action but a stop answers a next state. -/
theorem perform_next (act : Action) (s : State) (h : ∀ f, act ≠ .stop f) : ∃ t, perform act s = .next t := by
  cases act <;> simp_all [perform]

end Sys2Proof.Machine
end

