-- ==== Sys2Proof/Laws/Decode.lean ====
section
/-! SUPPORT. The cases of the host-command decoder. -/

namespace Sys2Proof

/-- The configure decoder answers CONFIGURE, or that bytes are missing. -/
theorem decodeConfigure_cases (bs : List Byte) :
    decodeConfigure bs = .error .truncated ∨
    ∃ mac ip gw sn rest, decodeConfigure bs = .ok (.configure mac ip gw sn) rest := by
  unfold decodeConfigure
  cases h : configureArgs bs with
  | none => exact .inl rfl
  | some a =>
    right
    simp only [configureArgs, Option.bind_eq_some_iff, Option.map_eq_some_iff] at h
    obtain ⟨m, -, i, -, g, -, s, -, rfl⟩ := h
    exact ⟨_, _, _, _, _, rfl⟩

theorem decodeU16_cases (f : U16 → Instr) (bs : List Byte) :
    decodeU16 f bs = .error .truncated ∨ ∃ v rest, decodeU16 f bs = .ok (f v) rest := by
  rcases bs with _ | ⟨a, _ | ⟨b, bs⟩⟩
  · exact .inl rfl
  · exact .inl rfl
  · exact .inr ⟨_, _, rfl⟩

theorem decodeWriteReg_cases (bs : List Byte) :
    decodeWriteReg bs = .error .truncated ∨ ∃ a v rest, decodeWriteReg bs = .ok (.writeReg a v) rest := by
  rcases bs with _ | ⟨a, _ | ⟨b, _ | ⟨c, bs⟩⟩⟩
  · exact .inl rfl
  · exact .inl rfl
  · exact .inl rfl
  · exact .inr ⟨_, _, _, rfl⟩

theorem decodeRingRead_cases (bs : List Byte) :
    decodeRingRead bs = .error .truncated ∨ ∃ sel rest, decodeRingRead bs = .ok (.ringRead sel) rest := by
  rcases bs with _ | ⟨a, bs⟩
  · exact .inl rfl
  · exact .inr ⟨_, _, rfl⟩

theorem decodeRingWrite_cases (bs : List Byte) :
    decodeRingWrite bs = .error .truncated ∨
    ∃ sel v rest, decodeRingWrite bs = .ok (.ringWrite sel v) rest := by
  rcases bs with _ | ⟨a, _ | ⟨b, _ | ⟨c, bs⟩⟩⟩
  · exact .inl rfl
  · exact .inl rfl
  · exact .inl rfl
  · exact .inr ⟨_, _, _, rfl⟩

theorem decodeSendFrame_cases (bs : List Byte) :
    decodeSendFrame bs = .error .truncated ∨
    ∃ len data rest, decodeSendFrame bs = .ok (.sendFrame len data) rest ∧ data.length = len.toNat := by
  rcases bs with _ | ⟨a, _ | ⟨b, bs⟩⟩
  · exact .inl rfl
  · exact .inl rfl
  · by_cases hl : bs.length < (join16 a b).toNat
    · left; simp [decodeSendFrame, hl]
    · right
      refine ⟨join16 a b, bs.take (join16 a b).toNat, bs.drop (join16 a b).toNat, by simp [decodeSendFrame, hl], ?_⟩
      simp; omega

/-- The decoder of host commands: a host command, in which SEND_FRAME carries exactly LEN bytes; or bytes missing; or a
first byte that is no opcode. -/
theorem decodeHost_cases (bs : List Byte) :
    decodeHost bs = .error .truncated ∨
    (∃ op rest, bs = op :: rest ∧ op ∉ legalOpcodes ∧ decodeHost bs = .error (.illegalOpcode op)) ∨
    (∃ i rest, decodeHost bs = .ok i rest ∧ i.isExchange = false ∧
      ∀ len data, i = .sendFrame len data → data.length = len.toNat) := by
  rcases bs with _ | ⟨op, bs⟩
  · exact .inl rfl
  · by_cases hop : op ∈ legalOpcodes
    · have hd : ∀ (d : Decoded) (i : Instr) (rest : List Byte), (∀ len data, i ≠ .sendFrame len data) → i.isExchange = false → d = .ok i rest →
          d = .error .truncated ∨
          (∃ o r, op :: bs = o :: r ∧ o ∉ legalOpcodes ∧ d = .error (.illegalOpcode o)) ∨
          (∃ i rest, d = .ok i rest ∧ i.isExchange = false ∧
            ∀ len data, i = .sendFrame len data → data.length = len.toNat) :=
        fun d i rest hs he h => .inr (.inr ⟨i, rest, h, he, fun len data h => absurd h (hs len data)⟩)
      simp only [legalOpcodes, List.mem_cons, List.not_mem_nil, or_false] at hop
      rcases hop with rfl | rfl | rfl | rfl | rfl | rfl | rfl | rfl | rfl | rfl | rfl | rfl | rfl | rfl
      · change decodeU16 _ bs = _ ∨ _
        obtain h | ⟨_, _, h⟩ := decodeU16_cases .readReg bs
        · exact .inl h
        · exact hd _ _ _ (by simp) rfl h
      · obtain h | ⟨_, _, _, h⟩ := decodeWriteReg_cases bs
        · exact .inl h
        · exact hd _ _ _ (by simp) rfl h
      · obtain h | ⟨_, _, _, _, _, h⟩ := decodeConfigure_cases bs
        · exact .inl h
        · exact hd _ _ _ (by simp) rfl h
      · exact hd _ .disableEcho _ (by simp) rfl rfl
      · exact hd _ .getMac _ (by simp) rfl rfl
      · exact hd _ .getIp _ (by simp) rfl rfl
      · exact hd _ .getGateway _ (by simp) rfl rfl
      · exact hd _ .getSubnet _ (by simp) rfl rfl
      · exact hd _ .enableRaw _ (by simp) rfl rfl
      · exact hd _ .frameAvailable _ (by simp) rfl rfl
      · obtain h | ⟨_, _, h⟩ := decodeU16_cases .receiveFrame bs
        · exact .inl h
        · exact hd _ _ _ (by simp) rfl h
      · obtain h | ⟨_, _, _, h, hl⟩ := decodeSendFrame_cases bs
        · exact .inl h
        · exact .inr (.inr ⟨_, _, h, rfl, by rintro _ _ ⟨⟩; exact hl⟩)
      · obtain h | ⟨_, _, h⟩ := decodeRingRead_cases bs
        · exact .inl h
        · exact hd _ _ _ (by simp) rfl h
      · obtain h | ⟨_, _, _, h⟩ := decodeRingWrite_cases bs
        · exact .inl h
        · exact hd _ _ _ (by simp) rfl h
    · refine .inr (.inl ⟨op, bs, rfl, hop, ?_⟩)
      simp only [legalOpcodes, List.mem_cons, List.not_mem_nil, or_false, not_or] at hop
      simp [decodeHost, hop]

/-- What the decoder of host commands answers is a host command. -/
theorem decodeHost_isHost {bs : List Byte} {i : Instr} {rest : List Byte} (h : decodeHost bs = .ok i rest) :
    i.isExchange = false := by
  obtain h' | ⟨_, _, _, _, h'⟩ | ⟨_, _, h', hi, -⟩ := decodeHost_cases bs <;> rw [h'] at h <;> simp at h
  obtain ⟨rfl, -⟩ := h; exact hi

/-- SEND_FRAME carries exactly LEN bytes. -/
theorem decodeHost_sendFrame {bs : List Byte} {len : U16} {data rest : List Byte}
    (h : decodeHost bs = .ok (.sendFrame len data) rest) : data.length = len.toNat := by
  obtain h' | ⟨_, _, _, _, h'⟩ | ⟨_, _, h', -, hl⟩ := decodeHost_cases bs <;> rw [h'] at h <;> simp at h
  obtain ⟨rfl, -⟩ := h; exact hl _ _ rfl

/-- A byte that is no opcode is rejected by name. -/
theorem decodeHost_illegal {op : Byte} (h : op ∉ legalOpcodes) (rest : List Byte) :
    decodeHost (op :: rest) = .error (.illegalOpcode op) := by
  simp only [legalOpcodes, List.mem_cons, List.not_mem_nil, or_false, not_or] at h
  simp [decodeHost, h]

/-- The only byte rejected as an opcode is the first one. -/
theorem decodeHost_error {bs : List Byte} {op : Byte} (h : decodeHost bs = .error (.illegalOpcode op)) :
    bs = op :: bs.tail ∧ op ∉ legalOpcodes := by
  obtain h' | ⟨o, r, hb, ho, h'⟩ | ⟨_, _, h', -, -⟩ := decodeHost_cases bs <;> rw [h'] at h <;> simp at h
  subst h; subst hb; exact ⟨rfl, ho⟩

end Sys2Proof
end

