-- ==== Sys2Proof/Laws/Frame.lean ====
section
/-! SUPPORT. The frame of a command in progress, said once over all positions: what the part of a step that follows a read,
a write or an internal computation leaves unchanged. `s` is the state before the step, `u` the state after its exchange. -/

namespace Sys2Proof.Machine

/-- What follows an exchange, or stands alone, in a step of a command: only registers, SOCK, DEST and the position move, the
command stays in progress, and SOCK moves at three positions only. -/
structure StepFrame (s u t : State) : Prop where
  cfg : t.cfg = u.cfg
  chip : t.chip = u.chip
  trace : t.trace = u.trace
  responses : t.responses = u.responses
  fault : t.fault = u.fault
  port : t.port = u.port
  src : t.src = u.src
  resets : t.resets = u.resets
  answers : t.answers = u.answers
  draws : t.draws = u.draws
  busy : (∃ q, u.mode = .busy q) → t.isBusy = true
  sock : t.sock = u.sock ∨ (s.mode = .busy (.configure .closeSock) ∧ t.sock = .closed) ∨
    (s.mode = .busy (.enableRaw .check) ∧ rawActive s.x.stat = true ∧ t.sock = .opened) ∨
    (s.mode = .busy (.enableRaw .closed) ∧ t.sock = .closed)

/-- After a read: SOCK is kept, and DEST changes only in the payload loops, at their index. -/
theorem read_frame {s : State} {q : SeqStep} {a : Addr} {k : Byte → State → State} (ha : q.action s = .read a k)
    (v : Byte) (u : State) :
    StepFrame s u (k v u) ∧ (k v u).sock = u.sock ∧
      ((k v u).dest = u.dest ∨
        (q = .receiveFrame .tail ∧ s.x.i.toNat < s.x.upper.toNat ∧ (k v u).dest = memWrite u.dest s.x.i.toNat v) ∨
        (q = .receiveFrame .base ∧ s.x.i.toNat < s.x.left.toNat ∧
          (k v u).dest = memWrite u.dest (s.x.upper.toNat + s.x.i.toNat) v)) := by
  cases q <;> rename_i p <;> cases p <;>
    simp only [SeqStep.action, readRegAction, writeRegAction, configureAction, disableEchoAction, getMacAction,
      getIpAction, getGatewayAction, getSubnetAction, enableRawAction, frameAvailableAction, receiveFrameAction,
      sendFrameAction, ringReadAction, ringWriteAction, readHi, readLo, writeHi, writeLo, readSeq, writeSeq, payloadLoop,
      frameLoop] at ha <;>
    (repeat' split at ha) <;> simp only [Action.read.injEq, reduceCtorEq] at ha
  all_goals obtain ⟨rfl, rfl⟩ := ha
  all_goals refine ⟨⟨rfl, rfl, rfl, rfl, rfl, rfl, rfl, rfl, rfl, rfl, ?_, .inl rfl⟩, rfl, ?_⟩
  all_goals first
    | exact fun _ => rfl
    | (rintro ⟨q, hq⟩; simp [State.isBusy, hq])
    | exact .inl rfl
    | exact .inr (.inl ⟨rfl, by assumption, rfl⟩)
    | exact .inr (.inr ⟨rfl, by assumption, rfl⟩)

/-- After a write: SOCK and DEST are kept, and of the registers only I moves. -/
theorem write_frame {s : State} {q : SeqStep} {a : Addr} {v : Byte} {k : State → State} (ha : q.action s = .write a v k)
    (u : State) :
    StepFrame s u (k u) ∧ (k u).sock = u.sock ∧ (k u).dest = u.dest ∧ ∃ j, (k u).x = { u.x with i := j } := by
  cases q <;> rename_i p <;> cases p <;>
    simp only [SeqStep.action, readRegAction, writeRegAction, configureAction, disableEchoAction, getMacAction,
      getIpAction, getGatewayAction, getSubnetAction, enableRawAction, frameAvailableAction, receiveFrameAction,
      sendFrameAction, ringReadAction, ringWriteAction, readHi, readLo, writeHi, writeLo, readSeq, writeSeq, payloadLoop,
      frameLoop] at ha <;>
    (repeat' split at ha) <;> simp only [Action.write.injEq, reduceCtorEq] at ha
  all_goals obtain ⟨rfl, rfl, rfl⟩ := ha
  all_goals refine ⟨⟨rfl, rfl, rfl, rfl, rfl, rfl, rfl, rfl, rfl, rfl, ?_, .inl rfl⟩, rfl, rfl, ?_⟩
  all_goals first
    | exact fun _ => rfl
    | (rintro ⟨q, hq⟩; simp [State.isBusy, hq])
    | exact ⟨u.x.i, rfl⟩
    | exact ⟨_, rfl⟩

/-- An internal computation keeps DEST, and SOCK but at three positions. -/
theorem compute_frame {s t : State} {q : SeqStep} (hm : s.mode = .busy q) (ha : q.action s = .compute t) :
    StepFrame s s t ∧ t.dest = s.dest := by
  cases q <;> rename_i p <;> cases p <;>
    simp only [SeqStep.action, readRegAction, writeRegAction, configureAction, disableEchoAction, getMacAction,
      getIpAction, getGatewayAction, getSubnetAction, enableRawAction, frameAvailableAction, receiveFrameAction,
      sendFrameAction, ringReadAction, ringWriteAction, readHi, readLo, writeHi, writeLo, readSeq, writeSeq, payloadLoop,
      frameLoop] at ha <;>
    (repeat' split at ha) <;> simp only [Action.compute.injEq, reduceCtorEq] at ha
  all_goals subst ha
  all_goals refine ⟨⟨rfl, rfl, rfl, rfl, rfl, rfl, rfl, rfl, rfl, rfl, ?_, ?_⟩, rfl⟩
  all_goals first
    | exact fun _ => rfl
    | exact .inl rfl
    | exact .inr (.inl ⟨hm, rfl⟩)
    | exact .inr (.inr (.inl ⟨hm, by assumption, rfl⟩))
    | exact .inr (.inr (.inr ⟨hm, rfl⟩))

end Sys2Proof.Machine
end

