-- ==== Sys2Proof/Laws/PerInstr.lean ====
section
/-! SUPPORT. What holds of every instruction as syntax, one lemma for each constructor: the length that R80 computes from
the first bytes of a well-formed host command is the length of its encoding. -/

namespace Sys2Proof.Laws.CommandLength

/-- The length of the command at the front of these bytes is that of the encoding. -/
def Statement (i : Instr) : Prop :=
  i.wf = true → i.isExchange = false →
    ∀ (c : Params) (rest : List Byte), commandLength (encode c i ++ rest) = (encode c i).length

theorem busRead (a : Addr) : Statement (.busRead a) := fun _ h => by simp [Instr.isExchange] at h

theorem busWrite (a : Addr) (v : Byte) : Statement (.busWrite a v) := fun _ h => by simp [Instr.isExchange] at h

theorem readReg (a : Addr) : Statement (.readReg a) := fun _ _ _ _ => rfl

theorem writeReg (a : Addr) (v : Byte) : Statement (.writeReg a v) := fun _ _ _ _ => rfl

theorem configure (mac : Bytes6) (ip gw sn : Bytes4) : Statement (.configure mac ip gw sn) := fun _ _ _ _ => rfl

theorem disableEcho : Statement .disableEcho := fun _ _ _ _ => rfl

theorem getMac : Statement .getMac := fun _ _ _ _ => rfl

theorem getIp : Statement .getIp := fun _ _ _ _ => rfl

theorem getGateway : Statement .getGateway := fun _ _ _ _ => rfl

theorem getSubnet : Statement .getSubnet := fun _ _ _ _ => rfl

theorem enableRaw : Statement .enableRaw := fun _ _ _ _ => rfl

theorem frameAvailable : Statement .frameAvailable := fun _ _ _ _ => rfl

theorem receiveFrame (cap : U16) : Statement (.receiveFrame cap) := fun _ _ _ _ => rfl

theorem sendFrame (len : U16) (data : List Byte) : Statement (.sendFrame len data) := by
  intro hw _ c rest
  have hl : data.length = len.toNat := by simpa [Instr.wf] using hw
  change 3 + (join16 (hiByte len) (loByte len)).toNat = _
  rw [join16_hiByte_loByte]
  simp [encode, Instr.fieldBytes, bytes16]
  omega

theorem ringRead (sel : Byte) : Statement (.ringRead sel) := fun _ _ _ _ => rfl

theorem ringWrite (sel : Byte) (val : U16) : Statement (.ringWrite sel val) := fun _ _ _ _ => rfl

end Sys2Proof.Laws.CommandLength
end

