-- ==== Sys2Proof/Laws/Step.lean ====
section
/-! SUPPORT. What `exec` and `step` do, said once: by the mode of the block, and the cases of a step. -/

namespace Sys2Proof.Machine

/-- A command in progress makes the step its position says. -/
theorem exec_busy {s : State} {q : SeqStep} (h : s.mode = .busy q) : exec (q.instr s) s = perform (q.action s) s := by
  cases q <;>
    simp [exec, SeqStep.instr, SeqStep.action, onPort, h, execReadReg, execWriteReg, execConfigure, execDisableEcho,
      execGetMac, execGetIp, execGetGateway, execGetSubnet, execEnableRaw, execFrameAvailable, execReceiveFrame,
      execSendFrame, execRingRead, execRingWrite]

/-- While HALTED every host command is answered with HALTED(FAULT.CODE). -/
theorem exec_halted {s : State} {i : Instr} (h : s.mode = .halted) (hi : i.isExchange = false) :
    exec i s = .next s.answerHalted := by
  cases i <;>
    simp [Instr.isExchange] at hi <;>
    simp [exec, onPort, h, execReadReg, execWriteReg, execConfigure, execDisableEcho,
      execGetMac, execGetIp, execGetGateway, execGetSubnet, execEnableRaw, execFrameAvailable, execReceiveFrame,
      execSendFrame, execRingRead, execRingWrite]

/-- What acceptance leaves of a host command that an idle block takes (R100). -/
def acceptedState (i : Instr) (s : State) : State :=
  match i with
  | .busRead _ => s
  | .busWrite _ _ => s
  | .readReg a => s.accept opReadReg (fun x => { x with addr := a }) (.readReg .xfer)
  | .writeReg a v => s.accept opWriteReg (fun x => { x with addr := a, data := v }) (.writeReg .xfer)
  | .configure mac ip gw sn =>
      s.accept opConfigure (fun x => { x with idb := ⟨mac, ip, gw, sn⟩ }) (.configure .closeSock)
  | .disableEcho => s.accept opDisableEcho id (.disableEcho .readMr)
  | .getMac => s.accept opGetMac (fun x => { x with i := 0#17 }) (.getMac .bytes)
  | .getIp => s.accept opGetIp (fun x => { x with i := 0#17 }) (.getIp .bytes)
  | .getGateway => s.accept opGetGateway (fun x => { x with i := 0#17 }) (.getGateway .bytes)
  | .getSubnet => s.accept opGetSubnet (fun x => { x with i := 0#17 }) (.getSubnet .bytes)
  | .enableRaw => s.accept opEnableRaw id (.enableRaw .rmsr)
  | .frameAvailable => (s.accept opFrameAvailable id (.frameAvailable .cntHi)).requireOpen
  | .receiveFrame cap =>
      (s.accept opReceiveFrame (fun x => { x with cap := cap }) (.receiveFrame .cntHi)).requireOpen
  | .sendFrame len data => sendFrameAccepted len data s
  | .ringRead sel => ringReadAccepted sel s
  | .ringWrite sel val => ringWriteAccepted sel val s

theorem exec_idle {s : State} {i : Instr} (h : s.mode = .idle) (hi : i.isExchange = false) :
    exec i s = .next (acceptedState i s) := by
  cases i <;>
    simp [Instr.isExchange] at hi <;>
    simp [exec, acceptedState, onPort, h, execReadReg, execWriteReg, execConfigure, execDisableEcho,
      execGetMac, execGetIp, execGetGateway, execGetSubnet, execEnableRaw, execFrameAvailable, execReceiveFrame,
      execSendFrame, execRingRead, execRingWrite]

/-- An exchange the block issues is the step of the command in progress. -/
theorem exec_issued {s : State} {b : Instr} (h : s.issued = some b) :
    ∃ q, s.mode = .busy q ∧ (q.action s).exchange = some b ∧ exec b s = perform (q.action s) s := by
  unfold State.issued at h
  cases hm : s.mode with
  | idle => simp [hm] at h
  | halted => simp [hm] at h
  | busy q =>
    simp only [hm] at h
    refine ⟨q, rfl, h, ?_⟩
    have hb : b.isExchange = true := by
      cases ha : q.action s <;> simp [ha, Action.exchange] at h <;> subst h <;> rfl
    cases b <;> simp [Instr.isExchange] at hb <;>
      simp [exec, execBusRead, execBusWrite, performIssued, hm, h]

/-! ### The host's schedule -/

@[simp] theorem State.tick_nil {s : State} (h : s.resets = []) : s.tick = s := by simp [State.tick, h]

/-- Passing on the host's reset schedule changes nothing else. -/
theorem State.tick_eq (s : State) : s.tick = { s with resets := s.tick.resets } := by
  unfold State.tick; cases h : s.resets <;> simp

@[simp] theorem State.tick_mode (s : State) : s.tick.mode = s.mode := by rw [State.tick_eq]
@[simp] theorem State.tick_cfg (s : State) : s.tick.cfg = s.cfg := by rw [State.tick_eq]
@[simp] theorem State.tick_sock (s : State) : s.tick.sock = s.sock := by rw [State.tick_eq]
@[simp] theorem State.tick_fault (s : State) : s.tick.fault = s.fault := by rw [State.tick_eq]
@[simp] theorem State.tick_x (s : State) : s.tick.x = s.x := by rw [State.tick_eq]
@[simp] theorem State.tick_src (s : State) : s.tick.src = s.src := by rw [State.tick_eq]
@[simp] theorem State.tick_dest (s : State) : s.tick.dest = s.dest := by rw [State.tick_eq]
@[simp] theorem State.tick_chip (s : State) : s.tick.chip = s.chip := by rw [State.tick_eq]
@[simp] theorem State.tick_port (s : State) : s.tick.port = s.port := by rw [State.tick_eq]
@[simp] theorem State.tick_answers (s : State) : s.tick.answers = s.answers := by rw [State.tick_eq]
@[simp] theorem State.tick_draws (s : State) : s.tick.draws = s.draws := by rw [State.tick_eq]
@[simp] theorem State.tick_trace (s : State) : s.tick.trace = s.trace := by rw [State.tick_eq]
@[simp] theorem State.tick_responses (s : State) : s.tick.responses = s.responses := by rw [State.tick_eq]

@[simp] theorem State.tick_nextAnswer (s : State) : s.tick.nextAnswer = s.nextAnswer := by
  rw [State.nextAnswer_eq_upcoming, State.nextAnswer_eq_upcoming]; exact State.upcoming_congr (by simp) (by simp) 0

@[simp] theorem SeqStep.instr_tick (q : SeqStep) (s : State) : q.instr s.tick = q.instr s := by
  cases q <;> simp [SeqStep.instr]

/-! ### The cases of a step -/

/-- What an idle or halted block does: it waits, takes or answers the presented command, or takes or answers a byte that
is no opcode. -/
theorem takeCommand_cases {s t : State} (hm : s.isBusy = false) (h : takeCommand s = .next t) :
    (s.port = [] ∧ t = s) ∨
    (∃ i rest, decodeHost s.port = .ok i rest ∧
      ((s.mode = .idle ∧ t = acceptedState i { s with port := rest }) ∨
        (s.mode = .halted ∧ t = ({ s with port := rest }).answerHalted))) ∨
    (∃ op, decodeHost s.port = .error (.illegalOpcode op) ∧ t = ({ s with port := s.port.tail }).acceptIllegal op) := by
  unfold takeCommand at h
  split at h
  · rename_i hp; left; exact ⟨hp, by simpa using h.symm⟩
  · split at h
    · rename_i i rest hd
      right; left
      refine ⟨i, rest, hd, ?_⟩
      have hc : s.mode = .idle ∨ s.mode = .halted := by cases hs : s.mode <;> simp_all [State.isBusy]
      rcases hc with hs | hs
      · rw [exec_idle (s := { s with port := rest }) hs (decodeHost_isHost hd)] at h
        exact .inl ⟨hs, (Host.Outcome.next.inj h).symm⟩
      · rw [exec_halted (s := { s with port := rest }) hs (decodeHost_isHost hd)] at h
        exact .inr ⟨hs, (Host.Outcome.next.inj h).symm⟩
    · rename_i op hd; right; right; exact ⟨op, hd, (Host.Outcome.next.inj h).symm⟩
    · simp at h

/-- What a step does: block reset, the next step of the command in progress, or what an idle or halted block does. -/
theorem step_cases {s t : State} (h : step s = .next t) :
    (s.resetDue = true ∧ t = ({ s with resets := s.resets.tail }).blockReset) ∨
    (s.resetDue = false ∧ ∃ q, s.mode = .busy q ∧ perform (q.action s.tick) s.tick = .next t) ∨
    (s.resetDue = false ∧ s.isBusy = false ∧ takeCommand s.tick = .next t) := by
  unfold step at h
  by_cases hr : s.resetDue = true
  · rw [if_pos hr] at h; left; exact ⟨hr, by simpa using h.symm⟩
  · rw [if_neg hr] at h
    have hr' : s.resetDue = false := by simpa using hr
    right
    unfold advanceBlock at h
    rw [State.tick_mode] at h
    cases hm : s.mode with
    | idle => rw [hm] at h; right; exact ⟨hr', by simp [State.isBusy, hm], h⟩
    | halted => rw [hm] at h; right; exact ⟨hr', by simp [State.isBusy, hm], h⟩
    | busy q =>
      rw [hm] at h; left
      have hq : s.tick.mode = .busy q := by simp [hm]
      exact ⟨hr', q, rfl, by rw [← exec_busy hq]; exact h⟩

end Sys2Proof.Machine
end

