-- ==== Sys2Proof/Laws/Run.lean ====
section
/-! SUPPORT. Runs of a command: one step of a command in progress by the kind of its action, how runs compose, what a list
of exchanges leaves, and the two kinds of loop. -/

namespace Sys2Proof.Machine

/-- Two states with equal fields are equal. -/
theorem State.eq_of_fields {s t : State}
    (h : s.cfg = t.cfg ∧ s.mode = t.mode ∧ s.sock = t.sock ∧ s.fault = t.fault ∧ s.x = t.x ∧ s.src = t.src ∧
      s.dest = t.dest ∧ s.chip = t.chip ∧ s.port = t.port ∧ s.resets = t.resets ∧ s.answers = t.answers ∧
      s.draws = t.draws ∧ s.trace = t.trace ∧ s.responses = t.responses) : s = t := by
  cases s; cases t; simp at h ⊢; exact h

/-! ### One step of a command in progress -/

theorem exec_position {u : State} {i : Instr} {q : SeqStep} (hm : u.mode = .busy q) (hi : q.instr u = i) :
    exec i u = perform (q.action u) u := hi ▸ exec_busy hm

theorem exec_compute {u v : State} {i : Instr} (q : SeqStep) (hm : u.mode = .busy q) (hi : q.instr u = i)
    (ha : q.action u = .compute v) : exec i u = .next v := by
  rw [exec_position hm hi, ha]; rfl

theorem exec_respond {u : State} {i : Instr} {r : Response} (q : SeqStep) (hm : u.mode = .busy q) (hi : q.instr u = i)
    (ha : q.action u = .respond r) : exec i u = .next (u.respond r) := by
  rw [exec_position hm hi, ha]; rfl

theorem exec_raise {u : State} {i : Instr} {f : BlockFault} {info : U16} (q : SeqStep) (hm : u.mode = .busy q)
    (hi : q.instr u = i) (ha : q.action u = .raise f info) : exec i u = .next (u.raise f info) := by
  rw [exec_position hm hi, ha]; rfl

theorem exec_read {u : State} {i : Instr} {a : Addr} {k : Byte → State → State} {r : Reply} (q : SeqStep)
    (hm : u.mode = .busy q) (hi : q.instr u = i) (ha : q.action u = .read a k) (hr : u.upcoming 0 = r.answer) :
    exec i u = .next (k r.r3 (u.exchanged (readFrame u.cfg a))) := by
  rw [exec_position hm hi, ha, perform, busRead_ok (by rw [State.nextAnswer_eq_upcoming]; exact hr)]

theorem exec_write {u : State} {i : Instr} {a : Addr} {v : Byte} {k : State → State} {r : Reply} (q : SeqStep)
    (hm : u.mode = .busy q) (hi : q.instr u = i) (ha : q.action u = .write a v k) (hr : u.upcoming 0 = r.answer) :
    exec i u = .next (k ((u.exchanged (writeFrame u.cfg a v)).storeChip a v)) := by
  rw [exec_position hm hi, ha, perform, busWrite_ok (by rw [State.nextAnswer_eq_upcoming]; exact hr)]

theorem exec_read_fails {u : State} {i : Instr} {a : Addr} {k : Byte → State → State} {b : Bool} (q : SeqStep)
    (hm : u.mode = .busy q) (hi : q.instr u = i) (ha : q.action u = .read a k) (hr : u.upcoming 0 = .fail b) :
    exec i u = .next ((u.exchanged (readFrame u.cfg a)).raise .busFault a) := by
  rw [exec_position hm hi, ha, perform, busRead_fail (by rw [State.nextAnswer_eq_upcoming]; exact hr)]

theorem exec_write_fails {u : State} {i : Instr} {a : Addr} {v : Byte} {k : State → State} {b : Bool} (q : SeqStep)
    (hm : u.mode = .busy q) (hi : q.instr u = i) (ha : q.action u = .write a v k) (hr : u.upcoming 0 = .fail b) :
    exec i u = .next ((if b then (u.exchanged (writeFrame u.cfg a v)).storeChip a v
      else u.exchanged (writeFrame u.cfg a v)).raise .busFault a) := by
  rw [exec_position hm hi, ha, perform, busWrite_fail (by rw [State.nextAnswer_eq_upcoming]; exact hr)]

/-! ### Runs compose -/

theorem Completes.cons {i : Instr} {n : Nat} {s u t : State} (he : exec i s = .next u) (hb : u.isBusy = true)
    (hc : Completes i n u t) : Completes i (n + 1) s t := ⟨u, he, hb, hc⟩

theorem Completes.last {i : Instr} {s u t : State} (he : exec i s = .next u) (h : u = t) (hb : u.isBusy = false) :
    Completes i 0 s t := ⟨by rw [he, h], h ▸ hb⟩

theorem Continues.one {i : Instr} {s u : State} (he : exec i s = .next u) (hb : u.isBusy = true) :
    Continues i 1 s u := ⟨u, he, hb, rfl⟩

theorem Continues.append {i : Instr} {n m : Nat} {s u t : State} (h1 : Continues i n s u) (h2 : Continues i m u t) :
    Continues i (n + m) s t := by
  induction n generalizing s with
  | zero => obtain rfl : s = u := h1; simpa using h2
  | succ n ih => obtain ⟨v, a, b, c⟩ := h1; rw [Nat.add_right_comm]; exact ⟨v, a, b, ih c⟩

theorem Continues.completes {i : Instr} {n m : Nat} {s u t : State} (h1 : Continues i n s u) (h2 : Completes i m u t) :
    Completes i (n + m) s t := by
  induction n generalizing s with
  | zero => obtain rfl : s = u := h1; simpa using h2
  | succ n ih => obtain ⟨v, a, b, c⟩ := h1; rw [Nat.add_right_comm]; exact ⟨v, a, b, ih c⟩

/-! ### What a list of exchanges leaves -/

@[simp] theorem State.afterBus_cfg (s : State) (o : List BusOp) (r : List Reply) : (s.afterBus o r).cfg = s.cfg := rfl
@[simp] theorem State.afterBus_mode (s : State) (o : List BusOp) (r : List Reply) : (s.afterBus o r).mode = s.mode := rfl
@[simp] theorem State.afterBus_sock (s : State) (o : List BusOp) (r : List Reply) : (s.afterBus o r).sock = s.sock := rfl
@[simp] theorem State.afterBus_fault (s : State) (o : List BusOp) (r : List Reply) :
    (s.afterBus o r).fault = s.fault := rfl
@[simp] theorem State.afterBus_x (s : State) (o : List BusOp) (r : List Reply) : (s.afterBus o r).x = s.x := rfl
@[simp] theorem State.afterBus_src (s : State) (o : List BusOp) (r : List Reply) : (s.afterBus o r).src = s.src := rfl
@[simp] theorem State.afterBus_dest (s : State) (o : List BusOp) (r : List Reply) : (s.afterBus o r).dest = s.dest := rfl
@[simp] theorem State.afterBus_port (s : State) (o : List BusOp) (r : List Reply) : (s.afterBus o r).port = s.port := rfl
@[simp] theorem State.afterBus_resets (s : State) (o : List BusOp) (r : List Reply) :
    (s.afterBus o r).resets = s.resets := rfl
@[simp] theorem State.afterBus_responses (s : State) (o : List BusOp) (r : List Reply) :
    (s.afterBus o r).responses = s.responses := rfl

theorem chipWrites_append (m : Memory) (a b : List BusOp) : chipWrites m (a ++ b) = chipWrites (chipWrites m a) b := by
  induction a generalizing m with
  | nil => rfl
  | cons o a ih => cases o <;> simp [chipWrites, ih]

theorem State.afterBus_append (s : State) (o1 o2 : List BusOp) (r1 r2 : List Reply) (h : o1.length = r1.length) :
    (s.afterBus o1 r1).afterBus o2 r2 = s.afterBus (o1 ++ o2) (r1 ++ r2) := by
  apply State.eq_of_fields
  simp [State.afterBus, busTrace, chipWrites_append, Nat.add_assoc, List.zipWith_append h]

theorem State.afterBus_cons (s : State) (o : BusOp) (r : Reply) (ops : List BusOp) (rs : List Reply) :
    (s.afterBus [o] [r]).afterBus ops rs = s.afterBus (o :: ops) (r :: rs) :=
  State.afterBus_append s [o] ops [r] rs rfl

theorem State.upcoming_afterBus (s : State) (ops : List BusOp) (rs : List Reply) (k : Nat) :
    (s.afterBus ops rs).upcoming k = s.upcoming (rs.length + k) := by
  unfold State.upcoming State.afterBus
  simp only [List.getElem?_drop]
  cases s.answers[rs.length + k]? <;> simp [Nat.add_assoc]

theorem State.exchanged_read {s : State} {r : Reply} (a : Addr) (h : s.upcoming 0 = r.answer) :
    s.exchanged (readFrame s.cfg a) = s.afterBus [.rd a] [r] := by
  apply State.eq_of_fields
  simp [State.afterBus, busTrace, chipWrites, BusOp.frame, State.nextAnswer_eq_upcoming, h]

theorem State.exchanged_write {s : State} {r : Reply} (a : Addr) (v : Byte) (h : s.upcoming 0 = r.answer) :
    (s.exchanged (writeFrame s.cfg a v)).storeChip a v = s.afterBus [.wr a v] [r] := by
  apply State.eq_of_fields
  simp [State.afterBus, busTrace, chipWrites, BusOp.frame, State.nextAnswer_eq_upcoming, h]

/-! ### A state in the middle of a command -/

/-- `s` after these exchanges, at this position, with these registers, DEST and SRC. -/
def State.midway (s : State) (p : SeqStep) (x : Regs) (ops : List BusOp) (rs : List Reply) (dest : Memory)
    (src : List Byte) : State :=
  { s.afterBus ops rs with mode := .busy p, x := x, dest := dest, src := src }

variable {s : State} {i : Instr} {p p' : SeqStep} {x x' : Regs} {ops : List BusOp} {rs : List Reply} {dest : Memory}
  {src : List Byte}

theorem State.upcoming_midway (k : Nat) :
    (s.midway p x ops rs dest src).upcoming k = s.upcoming (rs.length + k) :=
  State.upcoming_afterBus s ops rs k

theorem State.repliesWith_midway {r2 : List Reply} (h : s.repliesWith (rs ++ r2)) :
    (s.midway p x ops rs dest src).repliesWith r2 := by
  intro k r hr
  rw [State.upcoming_midway]
  exact h _ _ (by simpa [List.getElem?_append_right] using hr)

theorem State.midway_afterBus (o2 : List BusOp) (r2 : List Reply) (hl : ops.length = rs.length) :
    (s.midway p x ops rs dest src).afterBus o2 r2 = s.midway p x (ops ++ o2) (rs ++ r2) dest src := by
  apply State.eq_of_fields
  simp [State.midway, State.afterBus, busTrace, chipWrites_append, Nat.add_assoc, List.zipWith_append hl]

/-- A read exchange that succeeds, in the middle of a command. -/
theorem Continues.read {a : Addr} {k : Byte → State → State} {r : Reply} {r2 : List Reply}
    (hr : s.repliesWith (rs ++ r :: r2)) (hl : ops.length = rs.length)
    (hi : p.instr (s.midway p x ops rs dest src) = i) (ha : p.action (s.midway p x ops rs dest src) = .read a k)
    (hk : ∀ u : State, u.x = x → k r.r3 u = { u with mode := .busy p', x := x' }) :
    Continues i 1 (s.midway p x ops rs dest src) (s.midway p' x' (ops ++ [.rd a]) (rs ++ [r]) dest src) := by
  have h0 : (s.midway p x ops rs dest src).upcoming 0 = r.answer := State.repliesWith_midway hr 0 r rfl
  have he := exec_read p rfl hi ha h0
  rw [State.exchanged_read a h0, State.midway_afterBus _ _ hl, hk _ rfl] at he
  exact Continues.one he rfl

/-- A write exchange that succeeds, in the middle of a command. -/
theorem Continues.write {a : Addr} {v : Byte} {k : State → State} {r : Reply} {r2 : List Reply}
    (hr : s.repliesWith (rs ++ r :: r2)) (hl : ops.length = rs.length)
    (hi : p.instr (s.midway p x ops rs dest src) = i) (ha : p.action (s.midway p x ops rs dest src) = .write a v k)
    (hk : ∀ u : State, u.x = x → k u = { u with mode := .busy p', x := x' }) :
    Continues i 1 (s.midway p x ops rs dest src) (s.midway p' x' (ops ++ [.wr a v]) (rs ++ [r]) dest src) := by
  have h0 : (s.midway p x ops rs dest src).upcoming 0 = r.answer := State.repliesWith_midway hr 0 r rfl
  have he := exec_write p rfl hi ha h0
  rw [State.exchanged_write a v h0, State.midway_afterBus _ _ hl, hk _ rfl] at he
  exact Continues.one he rfl

/-- An internal computation in the middle of a command. -/
theorem Continues.compute (hi : p.instr (s.midway p x ops rs dest src) = i)
    (ha : p.action (s.midway p x ops rs dest src) = .compute (s.midway p' x' ops rs dest src)) :
    Continues i 1 (s.midway p x ops rs dest src) (s.midway p' x' ops rs dest src) :=
  Continues.one (exec_compute p rfl hi ha) rfl

/-! ### Loops over the index I -/

/-- The loop index set. -/
def State.withIndex (s : State) (k : Nat) : State := s.setRegs fun x => { x with i := BitVec.ofNat 17 k }

/-- DEST set. -/
def State.withDest (s : State) (m : Memory) : State := { s with dest := m }

/-- A loop of writes: as long as each position's action writes the next of `ops` and counts the pass, all of them are made,
and I counts them. -/
theorem Continues.write_loop {q : SeqStep} (ops : List BusOp) : ∀ (rs : List Reply) (s : State) (c : Nat),
    ops.length = rs.length → s.mode = .busy q → s.repliesWith rs → s.x.i = BitVec.ofNat 17 c →
    (∀ k (h : k < ops.length) (u : State), u.cfg = s.cfg → u.mode = s.mode → u.src = s.src →
      u.x = { s.x with i := BitVec.ofNat 17 (c + k) } →
        q.instr u = i ∧ ∃ a v, ops[k] = .wr a v ∧ q.action u = .write a v fun t => t.bump) →
    Continues i ops.length s ((s.afterBus ops rs).withIndex (c + ops.length)) := by
  induction ops with
  | nil =>
    intro rs s c hl hm hr hi _
    obtain rfl : rs = [] := by simpa using hl.symm
    change s = _
    apply State.eq_of_fields
    simp [State.withIndex, State.afterBus, busTrace, chipWrites, ← hi]
  | cons o ops ih =>
    intro rs s c hl hm hr hi hs
    rcases rs with _ | ⟨r, rs⟩
    · simp at hl
    obtain ⟨h1, a, v, h2, h3⟩ := hs 0 (by simp) s rfl rfl rfl (by rw [Nat.add_zero, ← hi])
    obtain rfl : o = .wr a v := by simpa using h2
    have h0 := hr 0 r rfl
    have he := exec_write q hm h1 h3 h0
    rw [State.exchanged_write a v h0] at he
    have hx : (s.afterBus [.wr a v] [r]).bump = (s.afterBus [.wr a v] [r]).withIndex (c + 1) := by
      apply State.eq_of_fields; simp [State.withIndex, State.afterBus, hi, BitVec.ofNat_add]
    rw [hx] at he
    refine ⟨_, he, by simp [State.withIndex, State.isBusy, hm], ?_⟩
    rw [← State.afterBus_cons s (.wr a v) r ops rs, List.length_cons,
      show c + (ops.length + 1) = c + 1 + ops.length by omega]
    refine ih rs ((s.afterBus [.wr a v] [r]).withIndex (c + 1)) (c + 1) (by simpa using hl) hm ?_ rfl ?_
    · intro k r' hk
      have : ((s.afterBus [.wr a v] [r]).withIndex (c + 1)).upcoming k = s.upcoming (k + 1) := by
        rw [← State.exchanged_write a v h0]; simp [State.withIndex]
      rw [this]; exact hr (k + 1) r' (by simpa using hk)
    · intro k hk u c1 c2 c3 c4
      obtain ⟨g1, a', v', g2, g3⟩ :=
        hs (k + 1) (by simpa using hk) u c1 c2 c3 (by rw [c4, show c + (k + 1) = c + 1 + k by omega]; rfl)
      exact ⟨g1, a', v', by simpa using g2, g3⟩

/-- A loop of reads into DEST: as long as each position's action reads at the next of `ops`, stores the byte at the next
index and counts the pass, all of them are made, DEST holds the bytes, and I counts them. -/
theorem Continues.read_loop {q : SeqStep} (ops : List BusOp) : ∀ (rs : List Reply) (s : State) (c idx : Nat),
    ops.length = rs.length → s.mode = .busy q → s.repliesWith rs → s.x.i = BitVec.ofNat 17 c →
    (∀ k (h : k < ops.length) (u : State), u.cfg = s.cfg → u.mode = s.mode → u.src = s.src →
      u.x = { s.x with i := BitVec.ofNat 17 (c + k) } →
        q.instr u = i ∧ ∃ a, ops[k] = .rd a ∧ q.action u = .read a fun v t => (t.storeDest (idx + k) v).bump) →
    Continues i ops.length s
      (((s.afterBus ops rs).withIndex (c + ops.length)).withDest (memWriteList s.dest idx (rs.map (·.r3)))) := by
  induction ops with
  | nil =>
    intro rs s c idx hl hm hr hi _
    obtain rfl : rs = [] := by simpa using hl.symm
    change s = _
    apply State.eq_of_fields
    simp [State.withIndex, State.withDest, State.afterBus, busTrace, chipWrites, ← hi, memWriteList]
  | cons o ops ih =>
    intro rs s c idx hl hm hr hi hs
    rcases rs with _ | ⟨r, rs⟩
    · simp at hl
    obtain ⟨h1, a, h2, h3⟩ := hs 0 (by simp) s rfl rfl rfl (by rw [Nat.add_zero, ← hi])
    obtain rfl : o = .rd a := by simpa using h2
    have h0 := hr 0 r rfl
    have he := exec_read q hm h1 h3 h0
    rw [State.exchanged_read a h0] at he
    have hx : ((s.afterBus [.rd a] [r]).storeDest (idx + 0) r.r3).bump =
        ((s.afterBus [.rd a] [r]).withIndex (c + 1)).withDest (memWrite s.dest idx r.r3) := by
      apply State.eq_of_fields
      simp [State.withIndex, State.withDest, State.afterBus, hi, BitVec.ofNat_add]
    rw [hx] at he
    refine ⟨_, he, by simp [State.withIndex, State.withDest, State.isBusy, hm], ?_⟩
    rw [← State.afterBus_cons s (.rd a) r ops rs, List.length_cons,
      show c + (ops.length + 1) = c + 1 + ops.length by omega]
    refine ih rs (((s.afterBus [.rd a] [r]).withIndex (c + 1)).withDest (memWrite s.dest idx r.r3)) (c + 1) (idx + 1)
      (by simpa using hl) hm ?_ rfl ?_
    · intro k r' hk
      have : (((s.afterBus [.rd a] [r]).withIndex (c + 1)).withDest (memWrite s.dest idx r.r3)).upcoming k =
          s.upcoming (k + 1) := by
        rw [← State.exchanged_read a h0, ← State.upcoming_exchanged s (readFrame s.cfg a)]
        exact State.upcoming_congr rfl rfl k
      rw [this]; exact hr (k + 1) r' (by simpa using hk)
    · intro k hk u c1 c2 c3 c4
      obtain ⟨g1, a', g2, g3⟩ :=
        hs (k + 1) (by simpa using hk) u c1 c2 c3 (by rw [c4, show c + (k + 1) = c + 1 + k by omega]; rfl)
      exact ⟨g1, a', by simpa using g2, by rw [g3, show idx + (k + 1) = idx + 1 + k by omega]⟩

end Sys2Proof.Machine
end

