-- ==== Sys2Proof/Tests/Slice0.lean ====
section
/-! SUPPORT. The model's own tests: ill-formed terms are refused, words written out from the spec's encodings decode, single
steps agree with the vectors of `95_test_vectors.md` (named in each comment), and every statement that has hypotheses has a
witness that meets them. -/

namespace Sys2Proof.Tests

open Sys2Proof.Machine

/-! ### Helpers -/

/-- A successful answer whose last byte is `v`; the other three are not used (R73). -/
def reply (v : Byte) : Reply := ⟨0x01#8, 0x02#8, 0x03#8, v⟩

/-- Right after reset, with these working registers, the socket open or not, and these answers of the chip to come. -/
def base (sock : Sock) (x : Regs) (answers : List BusAnswer) : State :=
  { State.reset with sock := sock, x := x, answers := answers }

/-- Idle, the socket open, these replies to come. -/
def idle (rs : List Reply) : State := base .opened Regs.reset (rs.map Reply.answer)

/-- In the middle of a command, the socket open, these replies to come. -/
def busy (q : SeqStep) (x : Regs) (rs : List Reply) : State :=
  { base .opened { x with cmd := q.opcode } (rs.map Reply.answer) with mode := .busy q }

/-- Halted after a bus fault. -/
def halted : State := { State.reset with mode := .halted, fault := ⟨0x01#8, 0x1234#16⟩ }

/-- Presenting these bytes at the host port. -/
def present (s : State) (bs : List Byte) : State := { s with port := bs }

/-- The state after an instruction's next step. -/
def after (i : Instr) (s : State) : Option State :=
  match exec i s with
  | .next t => some t
  | .fault _ => none
  | .refused _ => none

/-- The state after a machine step. -/
def stepped (s : State) : Option State :=
  match step s with
  | .next t => some t
  | .fault _ => none
  | .refused _ => none

/-- The bytes of the last exchange. -/
def sent (t : State) : Option (List Byte) :=
  t.trace.getLast?.map fun e => [e.sent.b0, e.sent.b1, e.sent.b2, e.sent.b3]

/-- The bytes of the last response. -/
def said (t : State) : Option (List Byte) := t.responses.getLast?.map Response.encode

/-- Run a command to its end, for witnesses of statements about whole commands. -/
def finish (i : Instr) : Nat → State → Option State
  | 0, s => (after i s).bind fun t => if t.isBusy then none else some t
  | n + 1, s => (after i s).bind fun t => if t.isBusy then finish i n t else none

theorem after_some {i : Instr} {s t : State} (h : after i s = some t) : exec i s = .next t := by
  unfold after at h; split at h <;> simp at h; rw [← h]; assumption

theorem stepped_some {s t : State} (h : stepped s = some t) : step s = .next t := by
  unfold stepped at h; split at h <;> simp at h; rw [← h]; assumption

theorem finish_completes {i : Instr} {n : Nat} {s t : State} (h : finish i n s = some t) : Completes i n s t := by
  induction n generalizing s with
  | zero =>
    simp only [finish, Option.bind_eq_some_iff] at h
    obtain ⟨u, h1, h2⟩ := h
    split at h2 <;> simp at h2
    subst h2
    exact ⟨after_some h1, by simpa using ‹¬u.isBusy = true›⟩
  | succ n ih =>
    simp only [finish, Option.bind_eq_some_iff] at h
    obtain ⟨u, h1, h2⟩ := h
    split at h2
    · exact ⟨u, after_some h1, ‹_›, ih h2⟩
    · simp at h2

/-- Where the answers given are the replies, they are the replies to come. -/
theorem repliesWith_given {s : State} {rs : List Reply} {more : List BusAnswer}
    (h : s.answers = rs.map Reply.answer ++ more) : s.repliesWith rs := by
  intro k r hr
  have : s.answers[k]? = some r.answer := by
    rw [h, List.getElem?_append_left (by have := (List.getElem?_eq_some_iff.1 hr).1; simpa using this)]
    simp [hr]
  simp [State.upcoming, this]

/-! ### Ill-formed terms -/

theorem test_wf_refuses_short_frame : (Instr.sendFrame 3#16 [0x11#8, 0x22#8]).wf = false := by decide
theorem test_wf_refuses_long_frame : (Instr.sendFrame 1#16 [0x11#8, 0x22#8]).wf = false := by decide
theorem test_wf_takes_whole_frame : (Instr.sendFrame 2#16 [0x11#8, 0x22#8]).wf = true := by decide
theorem test_wf_refuses_read_selector : (Instr.ringRead 0x06#8).wf = false := by decide
theorem test_wf_takes_read_selector : (Instr.ringRead 0x05#8).wf = true := by decide
theorem test_wf_refuses_write_selector :
    ([0x00#8, 0x02#8, 0x03#8, 0x04#8, 0x06#8].map fun k => (Instr.ringWrite k 0#16).wf) =
      [false, false, false, false, false] := by decide
theorem test_wf_takes_write_selector :
    (Instr.ringWrite 0x01#8 0#16).wf = true ∧ (Instr.ringWrite 0x05#8 0#16).wf = true := by decide
/-- R10's constraints: equal markers, overlapping rings, a ring over a register are each refused. -/
theorem test_params_wf :
    Params.default.wf = true ∧ { Params.default with dirWrite := 0x0F#8 }.wf = false ∧
      { Params.default with txBase := 0x5000#16 }.wf = false ∧ { Params.default with rxBase := 0x0000#16 }.wf = false ∧
      { Params.default with rxBase := 0xF000#16 }.wf = false := by decide

/-! ### Words written out from the spec's encodings (R71, R72, R77) -/

theorem test_decode_bus_read :
    decodeExchange Params.default [0x0F#8, 0x04#8, 0x03#8, 0x00#8] = .ok (.busRead 0x0403#16) [] := by decide
theorem test_decode_bus_write :
    decodeExchange Params.default [0xF0#8, 0x04#8, 0x01#8, 0x40#8] = .ok (.busWrite 0x0401#16 0x40#8) [] := by decide
theorem test_decode_reserved_marker :
    decodeExchange Params.default [0x00#8, 0x04#8, 0x01#8, 0x40#8] = .error (.reservedMarker 0x00#8) := by decide
theorem test_decode_read_reg : decodeHost [0x01#8, 0x04#8, 0x03#8] = .ok (.readReg 0x0403#16) [] := by decide
theorem test_decode_write_reg :
    decodeHost [0x02#8, 0x04#8, 0x01#8, 0x40#8] = .ok (.writeReg 0x0401#16 0x40#8) [] := by decide
theorem test_decode_configure :
    decodeHost [0x10#8, 0x00#8, 0x08#8, 0xDC#8, 0x01#8, 0x02#8, 0x03#8, 0xC0#8, 0xA8#8, 0x01#8, 0x0A#8, 0xC0#8, 0xA8#8,
        0x01#8, 0x01#8, 0xFF#8, 0xFF#8, 0xFF#8, 0x00#8] =
      .ok (.configure ⟨0x00#8, 0x08#8, 0xDC#8, 0x01#8, 0x02#8, 0x03#8⟩ ⟨192#8, 168#8, 1#8, 10#8⟩ ⟨192#8, 168#8, 1#8, 1#8⟩
        ⟨255#8, 255#8, 255#8, 0#8⟩) [] := by decide
theorem test_decode_disable_echo : decodeHost [0x11#8] = .ok .disableEcho [] := by decide
theorem test_decode_get_mac : decodeHost [0x12#8] = .ok .getMac [] := by decide
theorem test_decode_get_ip : decodeHost [0x13#8] = .ok .getIp [] := by decide
theorem test_decode_get_gateway : decodeHost [0x14#8] = .ok .getGateway [] := by decide
theorem test_decode_get_subnet : decodeHost [0x15#8] = .ok .getSubnet [] := by decide
theorem test_decode_enable_raw : decodeHost [0x20#8] = .ok .enableRaw [] := by decide
theorem test_decode_frame_available : decodeHost [0x21#8] = .ok .frameAvailable [] := by decide
theorem test_decode_receive_frame : decodeHost [0x22#8, 0x00#8, 0x40#8] = .ok (.receiveFrame 64#16) [] := by decide
theorem test_decode_send_frame :
    decodeHost [0x23#8, 0x00#8, 0x02#8, 0x11#8, 0x22#8, 0x20#8] = .ok (.sendFrame 2#16 [0x11#8, 0x22#8]) [0x20#8] := by
  decide
theorem test_decode_ring_read : decodeHost [0x30#8, 0x04#8] = .ok (.ringRead 0x04#8) [] := by decide
theorem test_decode_ring_write :
    decodeHost [0x31#8, 0x05#8, 0x40#8, 0x02#8] = .ok (.ringWrite 0x05#8 0x4002#16) [] := by decide
theorem test_decode_truncated : decodeHost [0x23#8, 0x00#8, 0x02#8, 0x11#8] = .error .truncated := by decide
/-- Every row's word, numbered as the opcode table numbers it, decodes to its row's instruction. -/
theorem test_decode_table_words :
    decodeTableWord 32 0x0F040300 = some (.busRead 0x0403#16) ∧
      decodeTableWord 32 0xF0040140 = some (.busWrite 0x0401#16 0x40#8) ∧
      decodeTableWord 24 0x030401 = some (.readReg 0x0403#16) ∧
      decodeTableWord 32 0x40010402 = some (.writeReg 0x0401#16 0x40#8) ∧
      decodeTableWord 8 0x11 = some .disableEcho ∧ decodeTableWord 24 0x000023 = some (.sendFrame 0#16 []) ∧
      decodeTableWord 16 0x0530 = some (.ringRead 0x05#8) ∧
      decodeTableWord 32 0x02400531 = some (.ringWrite 0x05#8 0x4002#16) := by decide

/-! ### Single steps, by instruction -/

/-- TR1, the exchange `[0F 04 03 00]→42`. -/
theorem test_bus_read :
    ((after (.busRead 0x0403#16) (busy (.readReg .xfer) { Regs.reset with addr := 0x0403#16 } [reply 0x42#8])).map fun t =>
      (sent t, t.x.data)) = some (some [0x0F#8, 0x04#8, 0x03#8, 0x00#8], 0x42#8) := by decide
/-- An exchange the block does not issue is refused by name. -/
theorem test_bus_read_not_issued : after (.busRead 0x0403#16) (idle [reply 0x42#8]) = none := by decide
/-- TR3, the exchange `[F0 04 01 40]`. -/
theorem test_bus_write :
    ((after (.busWrite 0x0401#16 0x40#8)
        (busy (.writeReg .xfer) { Regs.reset with addr := 0x0401#16, data := 0x40#8 } [reply 0x00#8])).map fun t =>
      (sent t, memRead t.chip 0x0401)) = some (some [0xF0#8, 0x04#8, 0x01#8, 0x40#8], some 0x40#8) := by decide
/-- TR1: the response `00 42`. -/
theorem test_read_reg :
    ((after (.readReg 0x0403#16)
        (busy (.readReg .respond) { Regs.reset with addr := 0x0403#16, data := 0x42#8 } [])).map fun t =>
      (said t, t.mode)) = some (some [0x00#8, 0x42#8], .idle) := by decide
/-- TR5: the failed exchange answers `E0 01 12 34` and halts. -/
theorem test_read_reg_fails :
    ((after (.readReg 0x1234#16)
        { busy (.readReg .xfer) { Regs.reset with addr := 0x1234#16 } [] with answers := [.fail false] }).map fun t =>
      (said t, t.mode)) = some (some [0xE0#8, 0x01#8, 0x12#8, 0x34#8], .halted) := by decide
/-- TR3: the response `00`, and SOCK unchanged. -/
theorem test_write_reg :
    ((after (.writeReg 0x0401#16 0x40#8)
        (busy (.writeReg .respond) { Regs.reset with addr := 0x0401#16, data := 0x40#8 } [])).map fun t =>
      (said t, t.sock)) = some (some [0x00#8], .opened) := by decide
/-- CF1, first exchange: `[F0 00 00 80]`, with SOCK closed before it (CF10). -/
theorem test_configure_reset :
    ((after (.configure ⟨0, 8, 0xDC, 1, 2, 3⟩ ⟨192, 168, 1, 10⟩ ⟨192, 168, 1, 1⟩ ⟨255, 255, 255, 0⟩)
        (busy (.configure .softReset) { Regs.reset with
          idb := ⟨⟨0, 8, 0xDC, 1, 2, 3⟩, ⟨192, 168, 1, 10⟩, ⟨192, 168, 1, 1⟩, ⟨255, 255, 255, 0⟩⟩ } [reply 0])).map fun t =>
      (sent t, t.mode)) = some (some [0xF0#8, 0x00#8, 0x00#8, 0x80#8], .busy (.configure .mac)) := by decide
/-- CF1, seventeenth exchange: `[F0 00 06 FF]`. -/
theorem test_configure_subnet :
    ((after (.configure ⟨0, 8, 0xDC, 1, 2, 3⟩ ⟨192, 168, 1, 10⟩ ⟨192, 168, 1, 1⟩ ⟨255, 255, 255, 0⟩)
        (busy (.configure .subnet) { Regs.reset with
          idb := ⟨⟨0, 8, 0xDC, 1, 2, 3⟩, ⟨192, 168, 1, 10⟩, ⟨192, 168, 1, 1⟩, ⟨255, 255, 255, 0⟩⟩
          i := 1#17 } [reply 0])).bind sent) = some [0xF0#8, 0x00#8, 0x06#8, 0xFF#8] := by decide
/-- CF4: the other bits of MR are kept, `[F0 00 00 13]`. -/
theorem test_disable_echo :
    ((after .disableEcho (busy (.disableEcho .writeMr) { Regs.reset with mrv := 0x03#8 } [reply 0])).bind sent) =
      some [0xF0#8, 0x00#8, 0x00#8, 0x13#8] := by decide
/-- CF6: the last read is `[0F 00 0E 00]`. -/
theorem test_get_mac :
    ((after .getMac (busy (.getMac .bytes) { Regs.reset with i := 5#17 } [reply 0x03#8])).map fun t =>
      (sent t, t.x.rb.b5)) = some (some [0x0F#8, 0x00#8, 0x0E#8, 0x00#8], 0x03#8) := by decide
/-- CF7: the response `00 C0 A8 01 0A`. -/
theorem test_get_ip :
    ((after .getIp
        (busy (.getIp .respond) { Regs.reset with rb := ⟨0xC0, 0xA8, 0x01, 0x0A, 0x77, 0x88⟩ } [])).bind said) =
      some [0x00#8, 0xC0#8, 0xA8#8, 0x01#8, 0x0A#8] := by decide
/-- CF8: the last read is `[0F 00 04 00]`. -/
theorem test_get_gateway :
    ((after .getGateway (busy (.getGateway .bytes) { Regs.reset with i := 3#17 } [reply 0x01#8])).bind sent) =
      some [0x0F#8, 0x00#8, 0x04#8, 0x00#8] := by decide
/-- CF9: the last read is `[0F 00 08 00]`. -/
theorem test_get_subnet :
    ((after .getSubnet (busy (.getSubnet .bytes) { Regs.reset with i := 3#17 } [reply 0x00#8])).bind sent) =
      some [0x0F#8, 0x00#8, 0x08#8, 0x00#8] := by decide
/-- SK3: a status one bit off leads to the close. -/
theorem test_enable_raw_not_active :
    ((after .enableRaw (busy (.enableRaw .check) { Regs.reset with stat := 0x43#8 } [])).map (·.mode)) =
      some (.busy (.enableRaw .closeCmd)) := by decide
/-- SK2: the close is `[F0 04 01 10]`. -/
theorem test_enable_raw_close :
    ((after .enableRaw (busy (.enableRaw .closeCmd) Regs.reset [reply 0])).bind sent) =
      some [0xF0#8, 0x04#8, 0x01#8, 0x10#8] := by decide
/-- L1.6: counter 0x000C answers `00 01`. -/
theorem test_frame_available :
    ((after .frameAvailable (busy (.frameAvailable .respond) { Regs.reset with cnt := 0x000C#16 } [])).bind said) =
      some [0x00#8, 0x01#8] := by decide
/-- RF9: `E0 03 00 21`. -/
theorem test_frame_available_closed :
    ((after .frameAvailable (base .closed Regs.reset [])).bind said) = some [0xE0#8, 0x03#8, 0x00#8, 0x21#8] := by decide

/-- The registers of RECEIVE_FRAME in RV1 with CAP = 0xFFFF: 14 bytes from the tail, 6 from the base. -/
def rv1 (i : BitVec 17) : Regs :=
  { Regs.reset with
    cap := 0xFFFF#16, cnt := 22#16, ptr := 0x1FF0#16, off := 8176#13, hi := 0x00#8, lo := 0x14#8, hdr := 20#16
    doff := 8178#13, upper := 14#14, left := 6#16, nptr := 0x2006#16, i := i }

/-- RV4: at offset 8191 the header's second byte is read at the base, `[0F 60 00 00]`. -/
theorem test_receive_header_straddles :
    ((after (.receiveFrame 0xFFFF#16)
        (busy (.receiveFrame .hdrLo) { rv1 0 with ptr := 0x1FFF#16, off := 8191#13 } [reply 0x0A#8])).map fun t =>
      (sent t, t.x.lo)) = some (some [0x0F#8, 0x60#8, 0x00#8, 0x00#8], 0x0A#8) := by decide
/-- RV1: the last payload byte is read at 0x6005 and is byte 19 of the frame. -/
theorem test_receive_base_part :
    ((after (.receiveFrame 0xFFFF#16) (busy (.receiveFrame .base) (rv1 5) [reply 0xB5#8])).map fun t =>
      (sent t, memRead t.dest 19)) = some (some [0x0F#8, 0x60#8, 0x05#8, 0x00#8], some 0xB5#8) := by decide

/-- The registers of SEND_FRAME in TV1: 4 bytes to the tail, 2 to the base. -/
def tv1 (i : BitVec 17) : Regs :=
  { Regs.reset with
    len := 6#16, free := 0x2000#16, ptr := 0x3FFC#16, off := 8188#13, upper := 4#14, left := 2#16, nptr := 0x4002#16, i := i }

/-- TV1's frame. -/
def tv1Data : List Byte := [0x11#8, 0x22#8, 0x33#8, 0x44#8, 0x55#8, 0x66#8]

/-- A state in the middle of TV1. -/
def sending (p : SendStep) (i : BitVec 17) (rs : List Reply) : State :=
  { busy (.sendFrame p) (tv1 i) rs with src := tv1Data }

/-- TV1, the ninth exchange: `[F0 40 00 55]`. -/
theorem test_send_base_part :
    ((after (.sendFrame 6#16 tv1Data) (sending .base 0 [reply 0])).bind sent) = some [0xF0#8, 0x40#8, 0x00#8, 0x55#8] := by
  decide
/-- TF4: SOCK is checked before the length, `E0 03 00 23`. -/
theorem test_send_closed_and_long :
    ((after (.sendFrame 8193#16 []) (base .closed Regs.reset [])).bind said) = some [0xE0#8, 0x03#8, 0x00#8, 0x23#8] := by
  decide
/-- RG5, second exchange: `[0F 04 23 00]`, VAL = 0x3FFC. -/
theorem test_ring_read :
    ((after (.ringRead 0x04#8)
        (busy (.ringRead .lo) { Regs.reset with sel := 0x04#8, hi16 := 0x3F#8 } [reply 0xFC#8])).map fun t =>
      (sent t, t.x.val)) = some (some [0x0F#8, 0x04#8, 0x23#8, 0x00#8], 0x3FFC#16) := by decide
/-- RG7: `E0 02 30 06`. -/
theorem test_ring_read_selector :
    ((after (.ringRead 0x06#8) (idle [])).bind said) = some [0xE0#8, 0x02#8, 0x30#8, 0x06#8] := by decide
/-- RG9, second exchange: `[F0 04 25 02]`. -/
theorem test_ring_write :
    ((after (.ringWrite 0x05#8 0x4002#16)
        (busy (.ringWrite .lo) { Regs.reset with sel := 0x05#8, val := 0x4002#16 } [reply 0])).bind sent) =
      some [0xF0#8, 0x04#8, 0x25#8, 0x02#8] := by decide
/-- RG11: `E0 02 31 03`. -/
theorem test_ring_write_selector :
    ((after (.ringWrite 0x03#8 0x1234#16) (idle [])).bind said) = some [0xE0#8, 0x02#8, 0x31#8, 0x03#8] := by decide
/-- L2.3: ring translation and pointer advance. -/
theorem test_ring_arithmetic :
    rxPhys Params.default 0x3FFC#16 = 0x7FFC#16 ∧ txPhys Params.default 0xFFFF#16 = 0x5FFF#16 ∧
      advancePtr 0xFFFF#16 12#16 = 0x000B#16 ∧ ringSplit 8191 8192 = (1, 8191) ∧ ringSplit 8190 2 = (2, 0) := by decide
/-- TR7, at the host port: `E0 02 FF 00`. -/
theorem test_illegal_opcode :
    ((stepped (present State.reset [0xFF#8])).bind said) = some [0xE0#8, 0x02#8, 0xFF#8, 0x00#8] := by decide
/-- FR5: HALTED comes first, `E1 01`. -/
theorem test_illegal_opcode_halted : ((stepped (present halted [0x00#8])).bind said) = some [0xE1#8, 0x01#8] := by decide
/-- The assembler lines of R86, and the trace notation of R14. -/
theorem test_lines :
    (Instr.readReg 0x0403#16).line = "READ_REG 0x0403" ∧ (Instr.ringRead 0x04#8).line = "RING_READ TX_RD" ∧
      (Instr.busWrite 0x0401#16 0x40#8).line = "Wr(0x0401,0x40)" := by decide

/-! ### Witnesses: for every statement with hypotheses, a concrete case that meets all of them -/

theorem witness_HostCommandsRoundTrip :
    (Instr.sendFrame 2#16 [0x11#8, 0x22#8]).wf = true ∧ (Instr.sendFrame 2#16 [0x11#8, 0x22#8]).isExchange = false ∧
      (Instr.ringWrite 0x05#8 0x4002#16).wf = true ∧ (Instr.ringWrite 0x05#8 0x4002#16).isExchange = false := by decide
theorem witness_BusExchangesRoundTrip :
    Params.default.wf = true ∧ (Instr.busWrite 0x0401#16 0x40#8).isExchange = true := by decide
theorem witness_DecodedBytesAreTheEncoding :
    decodeHost [0x23#8, 0x00#8, 0x01#8, 0x11#8] = .ok (.sendFrame 1#16 [0x11#8]) [] := by decide
theorem witness_CommandLengthFollowsFromByteZero :
    decodeHost [0x23#8, 0x00#8, 0x01#8, 0x11#8] = .ok (.sendFrame 1#16 [0x11#8]) [] ∧ (0x22#8 : Byte) ≠ 0x23#8 ∧
      (0x00#8 : Byte) ∉ legalOpcodes ∧ (0xFF#8 : Byte) ∉ legalOpcodes := by decide

theorem witness_StepRunsThePresentedCommand :
    (present (idle []) [0x21#8]).resetDue = false ∧ (present (idle []) [0x21#8]).isBusy = false ∧
      decodeHost (present (idle []) [0x21#8]).port = .ok .frameAvailable [] := by decide
theorem witness_StepContinuesTheCommandInProgress :
    (busy (.readReg .xfer) Regs.reset []).resetDue = false ∧
      (busy (.readReg .xfer) Regs.reset []).mode = .busy (.readReg .xfer) := by decide
theorem witness_StepPerformsTheIssuedExchange :
    (busy (.readReg .xfer) Regs.reset []).resetDue = false ∧
      (busy (.readReg .xfer) Regs.reset []).issued = some (.busRead 0x0000#16) ∧
      (busy (.writeReg .xfer) Regs.reset []).issued = some (.busWrite 0x0000#16 0x00#8) := by decide
theorem witness_StepWaitsForACommand :
    State.reset.resetDue = false ∧ State.reset.isBusy = false ∧ State.reset.port = [] := by decide
theorem witness_BlockResetSetsTheBlockOnly : { halted with resets := [0, 3] }.resets = 0 :: [3] := by decide

/-- In the middle of RV1, at a position of the payload copy. -/
def receiving (p : ReceiveStep) (i : BitVec 17) : State := busy (.receiveFrame p) (rv1 i) [reply 0xB5#8]

/-- R11: MSR_SOCK0_ALL cannot change alone; a chip whose table gives another value the same size may take it. -/
theorem test_memory_size_tie :
    ({ Params.default with msrSock0All := 0x55#8 } : Params).wf = false ∧
      ({ Params.default with msrSock0All := 0x55#8, memorySizes := [(0x55#8, 8192)] } : Params).wf = true := by decide

theorem receiving_tail_inv : Inv (receiving .tail 13) :=
  ⟨by decide, by decide, by decide, by decide, by decide,
    ⟨rfl, rfl, rfl, by decide, ⟨⟨by decide, by decide, by decide⟩, by decide, by decide, by decide, by decide⟩, by decide⟩⟩
theorem receiving_base_inv : Inv (receiving .base 5) :=
  ⟨by decide, by decide, by decide, by decide, by decide,
    ⟨rfl, rfl, rfl, by decide, ⟨⟨by decide, by decide, by decide⟩, by decide, by decide, by decide, by decide⟩, by decide⟩⟩
/-- At the header bytes, at the last offset of the ring. -/
def atHeader (p : ReceiveStep) : State :=
  busy (.receiveFrame p) { rv1 0 with ptr := 0x1FFF#16, off := 8191#13 } [reply 0x0A#8]
theorem header_inv : Inv (atHeader .hdrHi) ∧ Inv (atHeader .hdrLo) :=
  ⟨⟨by decide, by decide, by decide, by decide, by decide, ⟨rfl, rfl, rfl, by decide, by decide⟩⟩,
    ⟨by decide, by decide, by decide, by decide, by decide, ⟨rfl, rfl, rfl, by decide, by decide⟩⟩⟩
theorem sending_inv : Inv (sending .tail 3 [reply 0]) ∧ Inv (sending .base 1 [reply 0]) :=
  ⟨⟨by decide, by decide, by decide, by decide, by decide,
      ⟨rfl, rfl, rfl, ⟨⟨by decide, by decide⟩, by decide, by decide, by decide, by decide⟩, by decide⟩⟩,
    ⟨by decide, by decide, by decide, by decide, by decide,
      ⟨rfl, rfl, rfl, ⟨⟨by decide, by decide⟩, by decide, by decide, by decide, by decide⟩, by decide⟩⟩⟩

theorem witness_EveryStepKeepsTheInvariant : Inv (receiving .base 5) ∧ ∃ t, step (receiving .base 5) = .next t :=
  ⟨receiving_base_inv, _, rfl⟩
theorem witness_NoStepStopsInsideTheInvariant :
    Inv (receiving .tail 13) ∧ (receiving .tail 13).isBusy = true ∧ State.reset.presentsWhole :=
  ⟨receiving_tail_inv, by decide, .inl rfl⟩
theorem witness_RunsFromPowerOnNeverStop : Params.default.wf = true ∧ WholeCommands [0x11#8, 0xFF#8] :=
  ⟨by decide, .command .disableEcho _ [0xFF#8] (by decide) (.illegal 0xFF#8 [] (by decide) .nil)⟩
theorem witness_CommandRunsAreMachineRuns :
    let s := present (idle [reply 0x42#8]) [0x01#8, 0x04#8, 0x03#8]
    s.resets = [] ∧ s.isBusy = false ∧ decodeHost s.port = .ok (.readReg 0x0403#16) [] ∧
      ∃ t, Completes (.readReg 0x0403#16) 2 { s with port := [] } t :=
  ⟨by decide, by decide, by decide, _, finish_completes (by rfl)⟩
theorem witness_NoStepChangesAParameter : ∃ t, step (receiving .base 5) = .next t := ⟨_, rfl⟩

/-- At the exchange of WRITE_REG 0x0401, 0x40. -/
def writing : State := busy (.writeReg .xfer) { Regs.reset with addr := 0x0401#16, data := 0x40#8 } [reply 0]
/-- At the exchange of READ_REG 0x0403. -/
def reading : State := busy (.readReg .xfer) { Regs.reset with addr := 0x0403#16 } [reply 0x42#8]

theorem witness_ChipImageFollowsTheTrace :
    writing.cfg.wf = true ∧ ChipMatchesTrace writing ∧ ∃ t, step writing = .next t := ⟨by decide, rfl, _, rfl⟩
theorem witness_ExchangesUseTheTwoMarkers :
    (∃ t, step writing = .next t) ∧ (∃ t, step reading = .next t) ∧ Params.default.wf = true ∧
      (0x00#8 : Byte) ≠ Params.default.dirRead ∧ (0x00#8 : Byte) ≠ Params.default.dirWrite :=
  ⟨⟨_, rfl⟩, ⟨_, rfl⟩, by decide, by decide, by decide⟩
theorem witness_StepsStoreOnlyTheIssuedWrite :
    (∃ t, step writing = .next t) ∧ (∀ v, writing.issued ≠ some (.busWrite 0x0402#16 v)) ∧ writing.resetDue = false ∧
      writing.issued = some (.busWrite 0x0401#16 0x40#8) ∧ writing.nextAnswer = (reply 0).answer :=
  ⟨⟨_, rfl⟩, by decide, by decide, by decide, by decide⟩
theorem witness_DestIsWrittenBelowHdrOnly :
    (Inv (receiving .base 5) ∧ ∃ t, step (receiving .base 5) = .next t ∧
      memRead t.dest 19 ≠ memRead (receiving .base 5).dest 19) ∧
    (Inv (receiving .tail 13) ∧ ∃ t, step (receiving .tail 13) = .next t ∧
      memRead t.dest 13 ≠ memRead (receiving .tail 13).dest 13) :=
  ⟨⟨receiving_base_inv, _, rfl, by decide⟩, ⟨receiving_tail_inv, _, rfl, by decide⟩⟩
theorem witness_CommandsEndWithOneResponse :
    writing.resetDue = false ∧ writing.isBusy = true ∧ (∃ t, step writing = .next t ∧ t.isBusy = true) ∧
      (∃ t, step (busy (.readReg .respond) Regs.reset []) = .next t ∧ t.mode = .idle) ∧
      ∃ t, step { reading with answers := [.fail true] } = .next t ∧ t.mode = .halted :=
  ⟨by decide, by decide, ⟨_, rfl, by decide⟩, ⟨_, rfl, by decide⟩, ⟨_, rfl, by decide⟩⟩

theorem witness_FaultEntrySavesCodeAndInfo :
    (∃ t, step { reading with answers := [.fail true] } = .next t ∧ t.mode = .halted) ∧
      ∃ t, step (present (idle []) [0xFF#8]) = .next t ∧ t.mode = .halted :=
  ⟨⟨_, rfl, by decide⟩, ⟨_, rfl, by decide⟩⟩
theorem witness_HaltedAnswersAndStays :
    halted.mode = .halted ∧ (Instr.getMac).isExchange = false ∧ halted.resetDue = false ∧
      (present halted [0x00#8]).port = 0x00#8 :: [] ∧ (0x00#8 : Byte) ∉ legalOpcodes ∧
      ∃ t, step (present halted [0x12#8]) = .next t :=
  ⟨by decide, by decide, by decide, by decide, by decide, _, rfl⟩
theorem witness_FailedExchangesRaiseBusFault :
    ({ reading with answers := [.fail false] }.nextAnswer = .fail false ∧
        { reading with answers := [.fail false] }.issued = some (.busRead 0x0403#16)) ∧
      { writing with answers := [.fail true] }.nextAnswer = .fail true ∧
        { writing with answers := [.fail true] }.issued = some (.busWrite 0x0401#16 0x40#8) := by decide
theorem witness_IllegalCommandsFault :
    ((present (idle []) [0x03#8]).mode = .idle ∧ (present (idle []) [0x03#8]).resetDue = false ∧
        (0x03#8 : Byte) ∉ legalOpcodes) ∧
      ((0x06#8 : Byte).toNat ∉ [0, 1, 2, 3, 4, 5] ∧ (0xFF#8 : Byte).toNat ∉ [0, 1, 2, 3, 4, 5]) ∧
      ((0x00#8 : Byte).toNat ∉ [1, 5] ∧ (0x04#8 : Byte).toNat ∉ [1, 5] ∧ (0x06#8 : Byte).toNat ∉ [1, 5]) := by decide
theorem witness_FrameCommandsNeedAnOpenSocket : State.reset.mode = .idle ∧ State.reset.sock = .closed := by decide
theorem witness_LongFramesAreRefused :
    (idle []).mode = .idle ∧ (idle []).sock = .opened ∧ (8193#16).toNat > 8192 ∧ (65535#16).toNat > 8192 := by decide
theorem witness_ReceiveChecksFault :
    ((idle [reply 0, reply 0]).repliesWith [reply 0, reply 0] ∧ join16 (reply 0).r3 (reply 0).r3 = 0#16) ∧
      ((idle [reply 0, reply 12, reply 0, reply 0, reply 0x1F, reply 0xFF]).repliesWith
          [reply 0, reply 12, reply 0, reply 0, reply 0x1F, reply 0xFF] ∧
        join16 (reply 0).r3 (reply 12).r3 ≠ 0#16 ∧ (join16 (reply 0x1F).r3 (reply 0xFF).r3).toNat + 2 > 8192) ∧
      ((join16 (reply 0x1F).r3 (reply 0xFE).r3).toNat + 2 ≤ 8192 ∧
        (join16 (reply 0x1F).r3 (reply 0xFE).r3).toNat > (8189#16).toNat) :=
  ⟨⟨repliesWith_given (more := []) (by rfl), by decide⟩,
    ⟨repliesWith_given (more := []) (by rfl), by decide, by decide⟩, by decide, by decide⟩
theorem witness_SockChangesOnlyAsTheTableSays :
    (∃ t, step { idle [] with resets := [0] } = .next t ∧ t.sock ≠ .opened) ∧
      (∃ t, step (busy (.configure .closeSock) Regs.reset []) = .next t ∧ t.sock ≠ .opened) ∧
      (∃ t, step { busy (.enableRaw .check) { Regs.reset with stat := 0x42#8 } [] with sock := .closed } = .next t ∧
        t.sock ≠ .closed) ∧
      ∃ t, step (busy (.enableRaw .closed) Regs.reset []) = .next t ∧ t.sock ≠ .opened :=
  ⟨⟨_, rfl, by decide⟩, ⟨_, rfl, by decide⟩, ⟨_, rfl, by decide⟩, ⟨_, rfl, by decide⟩⟩

theorem witness_AcceptanceLatchesTheArguments :
    (idle []).mode = .idle ∧ (idle []).sock = .opened ∧ (8192#16).toNat ≤ 8192 ∧ (0x05#8 : Byte).toNat ≤ 5 ∧
      (0x01#8 : Byte).toNat = 1 ∧ (0x05#8 : Byte).toNat = 5 := by decide
theorem witness_BusReadCompletes :
    (reading.issued = some (.busRead 0x0403#16) ∧ reading.nextAnswer = (reply 0x42#8).answer ∧
        reading.mode = .busy (.readReg .xfer)) ∧
      (receiving .tail 13).issued = some (.busRead 0x7FFF#16) ∧
        (receiving .tail 13).nextAnswer = (reply 0xB5#8).answer := by decide
theorem witness_BusWriteCompletes :
    writing.issued = some (.busWrite 0x0401#16 0x40#8) ∧ writing.nextAnswer = (reply 0).answer ∧
      writing.mode = .busy (.writeReg .xfer) := by decide
theorem witness_ReadRegCompletes :
    (idle [reply 0x42#8]).mode = .idle ∧ (idle [reply 0x42#8]).repliesWith [reply 0x42#8] ∧
      { idle [] with answers := [.fail true] }.upcoming 0 = .fail true :=
  ⟨by decide, repliesWith_given (more := []) (by rfl), by decide⟩
theorem witness_WriteRegCompletes :
    (idle [reply 0]).mode = .idle ∧ (idle [reply 0]).repliesWith [reply 0] ∧
      { idle [] with answers := [.fail true] }.upcoming 0 = .fail true :=
  ⟨by decide, repliesWith_given (more := []) (by rfl), by decide⟩
theorem witness_ConfigureCompletes :
    (idle (List.replicate 19 (reply 0))).mode = .idle ∧ (List.replicate 19 (reply 0)).length = 19 ∧
      (idle (List.replicate 19 (reply 0))).repliesWith (List.replicate 19 (reply 0)) :=
  ⟨by decide, by decide, repliesWith_given (more := []) (by simp [idle, base])⟩
/-- The last write of CONFIGURE fails. -/
theorem witness_ConfigureHaltsAtAFailedWrite :
    let s := { idle [] with answers := (List.replicate 18 (reply 0)).map Reply.answer ++ [BusAnswer.fail true] }
    s.mode = .idle ∧ s.repliesWith (List.replicate 18 (reply 0)) ∧ s.upcoming 18 = .fail true ∧
      (configureWrites s.cfg ⟨0, 8, 0xDC, 1, 2, 3⟩ ⟨192, 168, 1, 10⟩ ⟨192, 168, 1, 1⟩ ⟨255, 255, 255, 7⟩)[18]? =
        some (.wr 0x0008#16 7) :=
  ⟨by decide, repliesWith_given (more := [.fail true]) rfl, by decide, by decide⟩

/-- The reset address and identity of CF1. -/
def cf1 : Instr := .configure ⟨0, 8, 0xDC, 1, 2, 3⟩ ⟨192, 168, 1, 10⟩ ⟨192, 168, 1, 1⟩ ⟨255, 255, 255, 0⟩

theorem witness_ConfigureIsIdempotent :
    (idle (List.replicate 38 (reply 0))).mode = .idle ∧
      ∃ t u, Completes cf1 25 (idle (List.replicate 38 (reply 0))) t ∧ t.mode = .idle ∧ Completes cf1 25 t u ∧
        u.mode = .idle :=
  ⟨by decide, _, _, finish_completes (by rfl), by rfl, finish_completes (by rfl), by rfl⟩
theorem witness_DisableEchoCompletes :
    (idle [reply 0x03#8, reply 0]).mode = .idle ∧ (idle [reply 0x03#8, reply 0]).repliesWith [reply 0x03#8, reply 0] ∧
      { idle [] with answers := [.fail true] }.upcoming 0 = .fail true :=
  ⟨by decide, repliesWith_given (more := []) (by rfl), by decide⟩
theorem witness_ReadBackCommandsComplete :
    (idle (List.replicate 6 (reply 9))).mode = .idle ∧
      (idle (List.replicate 6 (reply 9))).repliesWith [reply 9, reply 9, reply 9, reply 9, reply 9, reply 9] ∧
      (idle (List.replicate 6 (reply 9))).repliesWith [reply 9, reply 9, reply 9, reply 9] :=
  ⟨by decide, repliesWith_given (more := []) (by rfl),
    repliesWith_given (more := [(reply 9).answer, (reply 9).answer]) (by rfl)⟩
theorem witness_EnableRawCompletes :
    (idle []).mode = .idle ∧
      (idle [reply 0, reply 0, reply 0, reply 0, reply 0x42#8]).repliesWith
        [reply 0, reply 0, reply 0, reply 0, reply 0x42#8] ∧ (reply 0x42#8).r3 = 0x42#8 ∧
      (idle [reply 0, reply 0, reply 0, reply 0, reply 0x43#8, reply 0]).repliesWith
        [reply 0, reply 0, reply 0, reply 0, reply 0x43#8, reply 0] ∧ (reply 0x43#8).r3 ≠ 0x42#8 :=
  ⟨by decide, repliesWith_given (more := []) (by rfl), by decide, repliesWith_given (more := []) (by rfl), by decide⟩
theorem witness_FrameAvailableCompletes :
    (idle [reply 0, reply 12]).mode = .idle ∧ (idle [reply 0, reply 12]).sock = .opened ∧
      (idle [reply 0, reply 12]).repliesWith [reply 0, reply 12] :=
  ⟨by decide, by decide, repliesWith_given (more := []) (by rfl)⟩
/-- RG1 and RG6, the two ends of the selector table. -/
theorem witness_RingReadCompletes :
    (idle [reply 0, reply 12]).mode = .idle ∧ (idle [reply 0, reply 12]).repliesWith [reply 0, reply 12] ∧
      ((0x00#8 : Byte).toNat, Params.default.addrS0RxRsr) ∈ [(0, Params.default.addrS0RxRsr)] ∧
      ((0x05#8 : Byte).toNat, Params.default.addrS0TxWr) ∈ [(5, Params.default.addrS0TxWr)] :=
  ⟨by decide, repliesWith_given (more := []) (by rfl), by decide, by decide⟩
theorem witness_RingWriteCompletes :
    (idle [reply 0, reply 0]).mode = .idle ∧ (idle [reply 0, reply 0]).repliesWith [reply 0, reply 0] ∧
      ((0x01#8 : Byte).toNat, Params.default.addrS0RxRd) ∈
        [(1, Params.default.addrS0RxRd), (5, Params.default.addrS0TxWr)] ∧
      ((0x05#8 : Byte).toNat, Params.default.addrS0TxWr) ∈
        [(1, Params.default.addrS0RxRd), (5, Params.default.addrS0TxWr)] :=
  ⟨by decide, repliesWith_given (more := []) (by rfl), by decide, by decide⟩
/-- A frame of one byte whose header straddles the ring end; CAP is exactly its length. -/
theorem witness_ReceiveFrameCompletes :
    let rs := [reply 0, reply 3, reply 0x1F, reply 0xFF, reply 0, reply 1] ++ [reply 0xB0#8] ++ [reply 0, reply 0, reply 0]
    (idle rs).mode = .idle ∧ (idle rs).sock = .opened ∧ (3#16 : U16) = join16 (reply 0).r3 (reply 3).r3 ∧
      (0x1FFF#16 : U16) = join16 (reply 0x1F).r3 (reply 0xFF).r3 ∧
      (1#16 : U16) = headerValue (idle rs).cfg (reply 0).r3 (reply 1).r3 ∧
      1 = ((0x1FFF#16 : U16).toNat % 8192 + 2) % 8192 ∧ (3#16 : U16) ≠ 0#16 ∧ (1#16 : U16).toNat + 2 ≤ 8192 ∧
      (1#16 : U16).toNat ≤ (1#16 : U16).toNat ∧ [reply 0xB0#8].length = (1#16 : U16).toNat ∧ (idle rs).repliesWith rs :=
  ⟨by decide, by decide, by decide, by decide, by decide, by decide, by decide, by decide, by decide, by decide,
    repliesWith_given (more := []) (by rfl)⟩
/-- One poll that finds too little space, one that finds the command register busy. -/
theorem witness_SendFrameCompletes :
    let rs := ([(reply 0, reply 0)].flatMap fun p => [p.1, p.2]) ++ [reply 0, reply 1, reply 0x3F, reply 0xFF] ++
      [reply 0] ++ [reply 0, reply 0, reply 0] ++ [reply 0x20] ++ [reply 0]
    (idle rs).mode = .idle ∧ (idle rs).sock = .opened ∧ [0x11#8].length = (1#16 : U16).toNat ∧
      (1#16 : U16).toNat ≤ 8192 ∧ (1#16 : U16) = join16 (reply 0).r3 (reply 1).r3 ∧
      (0x3FFF#16 : U16) = join16 (reply 0x3F).r3 (reply 0xFF).r3 ∧
      (∀ p ∈ [(reply 0, reply 0)], (join16 p.1.r3 p.2.r3).toNat < (1#16 : U16).toNat) ∧
      (1#16 : U16).toNat ≥ (1#16 : U16).toNat ∧ [reply 0].length = (1#16 : U16).toNat ∧
      (∀ r ∈ [reply 0x20], r.r3 ≠ (idle rs).cfg.cmdIdle) ∧ (reply 0).r3 = (idle rs).cfg.cmdIdle ∧
      (idle rs).repliesWith rs :=
  ⟨by decide, by decide, by decide, by decide, by decide, by decide, by decide, by decide, by decide, by decide,
    by decide, repliesWith_given (more := []) (by rfl)⟩
theorem witness_SentFrameStandsInTheTxRing :
    let s := idle [reply 0, reply 1, reply 0x3F, reply 0xFF, reply 0, reply 0, reply 0, reply 0, reply 0]
    s.mode = .idle ∧ s.cfg.wf = true ∧ [0x11#8].length = (1#16 : U16).toNat ∧
      ∃ t, Completes (.sendFrame 1#16 [0x11#8]) 16 s t ∧ t.mode = .idle :=
  ⟨by decide, by decide, by decide, _, finish_completes (by rfl), by rfl⟩
theorem witness_SendFrameKeepsPolling :
    (idle [reply 0, reply 5]).mode = .idle ∧ (idle [reply 0, reply 5]).sock = .opened ∧ (6#16 : U16).toNat ≤ 8192 ∧
      (∀ p ∈ [(reply 0, reply 5)], (join16 p.1.r3 p.2.r3).toNat < (6#16 : U16).toNat) ∧
      (idle [reply 0, reply 5]).repliesWith ([(reply 0, reply 5)].flatMap fun p => [p.1, p.2]) :=
  ⟨by decide, by decide, by decide, by decide, repliesWith_given (more := []) (by rfl)⟩
theorem witness_CompletionWaitKeepsPolling :
    (sending .poll 0 [reply 0x20]).mode = .busy (.sendFrame .poll) ∧
      (∀ r ∈ [reply 0x20], r.r3 ≠ (sending .poll 0 [reply 0x20]).cfg.cmdIdle) ∧
      (sending .poll 0 [reply 0x20]).repliesWith [reply 0x20] :=
  ⟨by decide, by decide, repliesWith_given (more := []) (by rfl)⟩
theorem witness_BootStoresExactlyTheStatedRegisters :
    let s := idle (List.replicate 25 (reply 0) ++ [reply 0x42#8])
    s.mode = .idle ∧ ∃ s1 s2 s3, Completes cf1 25 s s1 ∧ s1.mode = .idle ∧ Completes .disableEcho 3 s1 s2 ∧
      s2.mode = .idle ∧ Completes .enableRaw 7 s2 s3 ∧ s3.responses = s2.responses ++ [.bool true] :=
  ⟨by decide, _, _, _, finish_completes (by rfl), by rfl, finish_completes (by rfl), by rfl,
    finish_completes (by rfl), by rfl⟩
theorem witness_RingTranslationStaysInTheRing : Params.default.wf = true := by decide
theorem witness_RingSizeIsTiedToTheMemorySize :
    Params.default.wf = true ∧ Params.default.memorySizes.lookup 0x55#8 ≠ some 8192 ∧
      (receiving .base 5).cfg.wf = true ∧ ∃ t, step (receiving .base 5) = .next t :=
  ⟨by decide, by decide, by decide, _, rfl⟩
theorem witness_RunsSplitAtMostOnce :
    (8191 < 8192 ∧ 8191 + 2 > 8192 ∧ 8190 + 2 ≤ 8192 ∧ 8192 ≤ 8192) ∧ Inv (receiving .split 0) ∧
      (receiving .split 0).mode = .busy (.receiveFrame .split) ∧ Inv (sending .split 0 [reply 0]) ∧
      (sending .split 0 [reply 0]).mode = .busy (.sendFrame .split) :=
  ⟨by decide,
    ⟨by decide, by decide, by decide, by decide, by decide,
      ⟨rfl, rfl, rfl, by decide, ⟨by decide, by decide, by decide⟩, by decide, by decide⟩⟩, rfl,
    ⟨by decide, by decide, by decide, by decide, by decide, ⟨rfl, rfl, rfl, ⟨by decide, by decide⟩, by decide⟩⟩, rfl⟩
theorem witness_SplitRunsAreTransparent : 8191 < 8192 ∧ 8192 ≤ 8192 := by decide
theorem witness_RingAccessesStayInTheirRing :
    (Inv (atHeader .hdrHi) ∧ (atHeader .hdrHi).issued = some (.busRead 0x7FFF#16)) ∧
      (Inv (atHeader .hdrLo) ∧ (atHeader .hdrLo).issued = some (.busRead 0x6000#16)) ∧
      (Inv (receiving .tail 13) ∧ (receiving .tail 13).issued = some (.busRead 0x7FFF#16)) ∧
      (Inv (receiving .base 5) ∧ (receiving .base 5).issued = some (.busRead 0x6005#16)) ∧
      (Inv (sending .tail 3 [reply 0]) ∧ (sending .tail 3 [reply 0]).issued = some (.busWrite 0x5FFF#16 0x44#8)) ∧
      Inv (sending .base 1 [reply 0]) ∧ (sending .base 1 [reply 0]).issued = some (.busWrite 0x4001#16 0x66#8) :=
  ⟨⟨header_inv.1, by decide⟩, ⟨header_inv.2, by decide⟩, ⟨receiving_tail_inv, by decide⟩,
    ⟨receiving_base_inv, by decide⟩, ⟨sending_inv.1, by decide⟩, sending_inv.2, by decide⟩

end Sys2Proof.Tests
end

/-! ## The invariant along steps and runs

A step of a command in progress is sound when its action is no stop and every state it leads into has the command still in
progress at a position it may be at (`Action.Sound`); each procedure is shown sound position by position. With the frame
laws this gives that every step keeps the invariant, and that no step stops inside it. -/

namespace Sys2Proof.Machine

/-! ### Rules for the invariant -/

/-- The code of every fault of the block is one of those that FAULT holds while HALTED (R222 to R228). -/
theorem BlockFault.code_range (f : BlockFault) : 1 ≤ f.code.toNat ∧ f.code.toNat ≤ 7 := by
  cases f <;> decide

/-- An update that leaves the configuration and the memories alone has to account for MODE only. -/
theorem Inv.of_modeOk {s t : State} (h : Inv s) (hcfg : t.cfg = s.cfg) (hchip : t.chip = s.chip)
    (hdest : t.dest = s.dest) (hmode : t.mode.ok t) : Inv t where
  cfgWf := hcfg ▸ h.cfgWf
  chipWf := hchip ▸ h.chipWf
  chipRange := hchip ▸ h.chipRange
  destWf := hdest ▸ h.destWf
  destRange := hdest ▸ h.destRange
  modeOk := hmode

theorem Inv.raise {s : State} (h : Inv s) (f : BlockFault) (info : U16) : Inv (s.raise f info) :=
  h.of_modeOk rfl rfl rfl f.code_range

theorem Inv.blockReset {s : State} (h : Inv s) (r : List Nat) : Inv ({ s with resets := r }.blockReset) :=
  h.of_modeOk rfl rfl rfl rfl

theorem Inv.exchanged {s : State} (h : Inv s) (f : Frame) : Inv (s.exchanged f) :=
  h.of_modeOk rfl rfl rfl h.modeOk

theorem Inv.tick {s : State} (h : Inv s) : Inv s.tick := by
  rw [State.tick_eq]; exact h.of_modeOk rfl rfl rfl h.modeOk

/-- A chip address has 16 bits, so a store keeps the image canonical and in range. -/
theorem Inv.storeChip {s : State} (h : Inv s) (a : Addr) (v : Byte) : Inv (s.storeChip a v) where
  cfgWf := h.cfgWf
  chipWf := memWrite_wf _ _ _ h.chipWf
  chipRange := memWrite_range _ _ _ _ a.isLt h.chipRange
  destWf := h.destWf
  destRange := h.destRange
  modeOk := h.modeOk

/-- What the invariant says of a command in progress. -/
theorem Inv.of_busy {s : State} {q : SeqStep} (h : Inv s) (hm : s.mode = .busy q) :
    s.fault = ⟨0x00#8, 0x0000#16⟩ ∧ s.x.cmd = q.opcode ∧ q.ok s := by
  simpa [hm, Mode.ok] using h.modeOk

/-! ### Sound actions -/

/-- The command whose opcode CMD holds is in progress, at a position it may be at. -/
def State.Running (s : State) : Prop := ∃ q, s.mode = .busy q ∧ s.x.cmd = q.opcode ∧ q.ok s

theorem State.Running.modeOk {s : State} (h : s.Running) (hfault : s.fault = ⟨0x00#8, 0x0000#16⟩) : s.mode.ok s := by
  obtain ⟨q, hm, hc, hq⟩ := h
  rw [hm]
  exact ⟨hfault, hc, hq⟩

/-- The action is no stop, and where it goes on with the command, the command is running afterwards. -/
def Action.Sound (s : State) : Action → Prop
  | .read a k => ∀ v, (k v (s.exchanged (readFrame s.cfg a))).Running
  | .write a v k => (k ((s.exchanged (writeFrame s.cfg a v)).storeChip a v)).Running
  | .compute t => t.Running
  | .respond _ => True
  | .raise _ _ => True
  | .stop _ => False

/-- One more pass of a loop of at most `n` passes leaves the index within `n`. -/
theorem index_bump_le {i : BitVec 17} {n : Nat} (h : i.toNat < n) : (i + 1#17).toNat ≤ n := by
  rw [BitVec.toNat_add]
  exact (Nat.mod_le _ _).trans h

section
variable {s : State} {q next : SeqStep} (hm : s.mode = .busy q) (hc : s.x.cmd = q.opcode)
include hm hc

theorem readSeq_sound (a : Addr) (n : Nat) (hq : ∀ t : State, t.x.i.toNat ≤ n → q.ok t)
    (hop : q.opcode = next.opcode) (hnext : next.ok (s.enter next)) : (readSeq a n next s).Sound s := by
  unfold readSeq
  split
  case isTrue hi => exact fun v => ⟨q, hm, hc, hq _ (index_bump_le hi)⟩
  case isFalse => exact ⟨next, rfl, hc.trans hop, hnext⟩

theorem writeSeq_sound (a : Addr) (n : Nat) (byte : Nat → Byte)
    (hq : ∀ t : State, t.sock = s.sock → t.x.i.toNat ≤ n → q.ok t)
    (hop : q.opcode = next.opcode) (hnext : next.ok (s.enter next)) : (writeSeq a n byte next s).Sound s := by
  unfold writeSeq
  split
  case isTrue hi => exact ⟨q, hm, hc, hq _ rfl (index_bump_le hi)⟩
  case isFalse => exact ⟨next, rfl, hc.trans hop, hnext⟩

/-- The payload loops never meet an index outside DEST[0 .. CAP-1]. -/
theorem payloadLoop_sound (n index : Nat) (a : Addr) (hindex : s.x.i.toNat < n → index < s.x.cap.toNat)
    (hq : ∀ v f, s.x.i.toNat < n → q.ok ((s.exchanged f).storeDest index v).bump)
    (hop : q.opcode = next.opcode) (hnext : next.ok (s.enter next)) : (payloadLoop n index a next s).Sound s := by
  unfold payloadLoop
  split
  case isTrue hi =>
    rw [if_pos (hindex hi)]
    exact fun v => ⟨q, hm, hc, hq v _ hi⟩
  case isFalse => exact ⟨next, rfl, hc.trans hop, hnext⟩

/-- The frame loops never meet an index outside SRC. -/
theorem frameLoop_sound (n index : Nat) (a : Addr) (hindex : s.x.i.toNat < n → index < s.src.length)
    (hq : ∀ v f, s.x.i.toNat < n → q.ok ((s.exchanged f).storeChip a v).bump)
    (hop : q.opcode = next.opcode) (hnext : next.ok (s.enter next)) : (frameLoop n index a next s).Sound s := by
  unfold frameLoop
  split
  case isTrue hi =>
    rw [List.getElem?_eq_getElem (hindex hi)]
    exact ⟨q, hm, hc, hq _ _ hi⟩
  case isFalse => exact ⟨next, rfl, hc.trans hop, hnext⟩

end

/-! ### The procedures, position by position -/

section
variable {s : State}

theorem readReg_sound {p : RegStep} (hc : s.x.cmd = opReadReg) : (readRegAction p s).Sound s := by
  cases p with
  | xfer => exact fun _ => ⟨.readReg .respond, rfl, hc, trivial⟩
  | respond => trivial

theorem writeReg_sound {p : RegStep} (hc : s.x.cmd = opWriteReg) : (writeRegAction p s).Sound s := by
  cases p with
  | xfer => exact ⟨.writeReg .respond, rfl, hc, trivial⟩
  | respond => trivial

theorem configure_sound {p : ConfigureStep} (hm : s.mode = .busy (.configure p)) (hc : s.x.cmd = opConfigure)
    (h : p.ok s) : (configureAction p s).Sound s := by
  cases p with
  | closeSock => exact ⟨.configure .softReset, rfl, hc, rfl⟩
  | softReset => exact ⟨.configure .mac, rfl, hc, h, Nat.zero_le _⟩
  | mac =>
    exact writeSeq_sound hm hc _ _ _ (fun t hs hi => ⟨hs.trans h.1, hi⟩) rfl ⟨h.1, Nat.zero_le _⟩
  | ip =>
    exact writeSeq_sound hm hc _ _ _ (fun t hs hi => ⟨hs.trans h.1, hi⟩) rfl ⟨h.1, Nat.zero_le _⟩
  | gateway =>
    exact writeSeq_sound hm hc _ _ _ (fun t hs hi => ⟨hs.trans h.1, hi⟩) rfl ⟨h.1, Nat.zero_le _⟩
  | subnet => exact writeSeq_sound hm hc _ _ _ (fun t hs hi => ⟨hs.trans h.1, hi⟩) rfl h.1
  | respond => trivial

theorem disableEcho_sound {p : EchoStep} (hc : s.x.cmd = opDisableEcho) : (disableEchoAction p s).Sound s := by
  cases p with
  | readMr => exact fun _ => ⟨.disableEcho .writeMr, rfl, hc, trivial⟩
  | writeMr => exact ⟨.disableEcho .respond, rfl, hc, trivial⟩
  | respond => trivial

theorem enableRaw_sound {p : EnableStep} (hc : s.x.cmd = opEnableRaw) (h : p.ok s) :
    (enableRawAction p s).Sound s := by
  cases p with
  | rmsr => exact ⟨.enableRaw .tmsr, rfl, hc, trivial⟩
  | tmsr => exact ⟨.enableRaw .sockMode, rfl, hc, trivial⟩
  | sockMode => exact ⟨.enableRaw .openCmd, rfl, hc, trivial⟩
  | openCmd => exact ⟨.enableRaw .status, rfl, hc, trivial⟩
  | status => exact fun _ => ⟨.enableRaw .check, rfl, hc, trivial⟩
  | check =>
    simp only [enableRawAction]
    split
    case isTrue hraw => exact ⟨.enableRaw .respondTrue, rfl, hc, rfl, hraw⟩
    case isFalse hraw => exact ⟨.enableRaw .closeCmd, rfl, hc, eq_false_of_ne_true hraw⟩
  | respondTrue => trivial
  | closeCmd => exact ⟨.enableRaw .closed, rfl, hc, h⟩
  | closed => exact ⟨.enableRaw .respondFalse, rfl, hc, rfl, h⟩
  | respondFalse => trivial

theorem frameAvailable_sound {p : AvailableStep} (hc : s.x.cmd = opFrameAvailable) (hsock : s.sock = .opened) :
    (frameAvailableAction p s).Sound s := by
  cases p with
  | cntHi => exact fun _ => ⟨.frameAvailable .cntLo, rfl, hc, hsock⟩
  | cntLo => exact fun _ => ⟨.frameAvailable .respond, rfl, hc, hsock⟩
  | respond => trivial

/-- Both parts of a split run fit the registers that hold them (R154, R184, R202). -/
theorem ringSplit_fits {off n : Nat} (hoff : off < 8192) (hn : n ≤ 8192) :
    (BitVec.ofNat 14 (ringSplit off n).1).toNat = (ringSplit off n).1 ∧
      (BitVec.ofNat 16 (ringSplit off n).2).toNat = (ringSplit off n).2 := by
  obtain ⟨-, hbase, htail⟩ := ringSplit_bounds off n hoff hn
  simp only [BitVec.toNat_ofNat]
  omega

/-- The payload split covers HDR bytes, and they fit DEST (R183, R184). -/
theorem payloadReady.split_sum (h : payloadReady s) :
    s.x.upper.toNat + s.x.left.toNat = s.x.hdr.toNat ∧ s.x.hdr.toNat ≤ s.x.cap.toNat := by
  obtain ⟨-, -, hcap, hupper, hleft⟩ := h
  rw [hupper, hleft, ringSplit_sum _ _ s.x.doff.isLt]
  simpa [overflowsDest] using hcap

/-- The split of a frame to send covers SRC (R202). -/
theorem frameReady.split_sum (h : frameReady s) : s.x.upper.toNat + s.x.left.toNat = s.src.length := by
  obtain ⟨⟨hlen, -⟩, -, -, hupper, hleft⟩ := h
  rw [hupper, hleft, ringSplit_sum _ _ s.x.off.isLt, hlen]

theorem receiveFrame_sound {p : ReceiveStep} (hm : s.mode = .busy (.receiveFrame p)) (hc : s.x.cmd = opReceiveFrame)
    (hsock : s.sock = .opened) (h : p.ok s) : (receiveFrameAction p s).Sound s := by
  cases p with
  | cntHi => exact fun _ => ⟨.receiveFrame .cntLo, rfl, hc, hsock, trivial⟩
  | cntLo => exact fun _ => ⟨.receiveFrame .checkEmpty, rfl, hc, hsock, trivial⟩
  | checkEmpty =>
    simp only [receiveFrameAction]
    split
    case isTrue hcnt => exact ⟨.receiveFrame .ptrHi, rfl, hc, hsock, hcnt⟩
    case isFalse => trivial
  | ptrHi => exact fun _ => ⟨.receiveFrame .ptrLo, rfl, hc, hsock, h⟩
  | ptrLo => exact fun _ => ⟨.receiveFrame .offset, rfl, hc, hsock, h⟩
  | offset => exact ⟨.receiveFrame .hdrHi, rfl, hc, hsock, h, rfl⟩
  | hdrHi => exact fun _ => ⟨.receiveFrame .hdrLo, rfl, hc, hsock, h⟩
  | hdrLo => exact fun _ => ⟨.receiveFrame .header, rfl, hc, hsock, h⟩
  | header =>
    obtain ⟨hcnt, hoff⟩ := h
    exact ⟨.receiveFrame .checkLength, rfl, hc, hsock, hcnt, hoff, rfl, rfl⟩
  | checkLength =>
    obtain ⟨hcnt, hhdr⟩ := h
    simp only [receiveFrameAction]
    split
    case isTrue => trivial
    case isFalse hlen =>
      exact ⟨.receiveFrame .checkCapacity, rfl, hc, hsock, hcnt, hhdr, eq_false_of_ne_true hlen⟩
  | checkCapacity =>
    obtain ⟨hcnt, hhdr, hlen⟩ := h
    simp only [receiveFrameAction]
    split
    case isTrue => trivial
    case isFalse hcap => exact ⟨.receiveFrame .split, rfl, hc, hsock, hcnt, hhdr, hlen, eq_false_of_ne_true hcap⟩
  | split =>
    obtain ⟨hcnt, hhdr, hlen, hcap⟩ := h
    have hn : s.x.hdr.toNat ≤ 8192 := by
      simp [headerTooLong, Config.hdrLen, Config.ringSize] at hlen; omega
    obtain ⟨hupper, hleft⟩ := ringSplit_fits s.x.doff.isLt hn
    exact ⟨.receiveFrame .tail, rfl, hc, hsock, hcnt, ⟨hhdr, hlen, hcap, hupper, hleft⟩, Nat.zero_le _⟩
  | tail =>
    obtain ⟨hcnt, hready, -⟩ := h
    have hsum := hready.split_sum
    exact payloadLoop_sound hm hc _ _ _ (fun hi => by omega)
      (fun _ _ hi => ⟨hsock, hcnt, hready, index_bump_le hi⟩) rfl ⟨hsock, hcnt, hready, Nat.zero_le _⟩
  | base =>
    obtain ⟨hcnt, hready, -⟩ := h
    have hsum := hready.split_sum
    exact payloadLoop_sound hm hc _ _ _ (fun hi => by omega)
      (fun _ _ hi => ⟨hsock, hcnt, hready, index_bump_le hi⟩) rfl ⟨hsock, hcnt, hready⟩
  | advance =>
    obtain ⟨hcnt, hready⟩ := h
    exact ⟨.receiveFrame .rdHi, rfl, hc, hsock, hcnt, hready, rfl⟩
  | rdHi => exact ⟨.receiveFrame .rdLo, rfl, hc, hsock, h⟩
  | rdLo => exact ⟨.receiveFrame .acknowledge, rfl, hc, hsock, h⟩
  | acknowledge => exact ⟨.receiveFrame .respond, rfl, hc, hsock, h⟩
  | respond => trivial

theorem sendFrame_sound {p : SendStep} (hm : s.mode = .busy (.sendFrame p)) (hc : s.x.cmd = opSendFrame)
    (hsock : s.sock = .opened) (h : p.ok s) : (sendFrameAction p s).Sound s := by
  cases p with
  | fsrHi => exact fun _ => ⟨.sendFrame .fsrLo, rfl, hc, hsock, h⟩
  | fsrLo => exact fun _ => ⟨.sendFrame .checkFree, rfl, hc, hsock, h⟩
  | checkFree =>
    simp only [sendFrameAction]
    split
    case isTrue hfree => exact ⟨.sendFrame .ptrHi, rfl, hc, hsock, h, hfree⟩
    case isFalse => exact ⟨.sendFrame .fsrHi, rfl, hc, hsock, h⟩
  | ptrHi => exact fun _ => ⟨.sendFrame .ptrLo, rfl, hc, hsock, h⟩
  | ptrLo => exact fun _ => ⟨.sendFrame .split, rfl, hc, hsock, h⟩
  | split =>
    obtain ⟨hacc, hfree⟩ := h
    have hn : s.x.len.toNat ≤ 8192 := by simpa [frameTooLong, Config.ringSize] using hacc.2
    obtain ⟨hupper, hleft⟩ := ringSplit_fits (ringOffset s.x.ptr).isLt hn
    exact ⟨.sendFrame .tail, rfl, hc, hsock, ⟨hacc, hfree, rfl, hupper, hleft⟩, Nat.zero_le _⟩
  | tail =>
    obtain ⟨hready, -⟩ := h
    have hsum := hready.split_sum
    exact frameLoop_sound hm hc _ _ _ (fun hi => by omega)
      (fun _ _ hi => ⟨hsock, hready, index_bump_le hi⟩) rfl ⟨hsock, hready, Nat.zero_le _⟩
  | base =>
    obtain ⟨hready, -⟩ := h
    have hsum := hready.split_sum
    exact frameLoop_sound hm hc _ _ _ (fun hi => by omega)
      (fun _ _ hi => ⟨hsock, hready, index_bump_le hi⟩) rfl ⟨hsock, hready⟩
  | advance => exact ⟨.sendFrame .wrHi, rfl, hc, hsock, h, rfl⟩
  | wrHi => exact ⟨.sendFrame .wrLo, rfl, hc, hsock, h⟩
  | wrLo => exact ⟨.sendFrame .sendCmd, rfl, hc, hsock, h⟩
  | sendCmd => exact ⟨.sendFrame .poll, rfl, hc, hsock, h⟩
  | poll => exact fun _ => ⟨.sendFrame .checkIdle, rfl, hc, hsock, h⟩
  | checkIdle =>
    obtain ⟨hready, hptr⟩ := h
    simp only [sendFrameAction]
    split
    case isTrue hidle => exact ⟨.sendFrame .respond, rfl, hc, hsock, hready, hptr, hidle⟩
    case isFalse => exact ⟨.sendFrame .poll, rfl, hc, hsock, hready, hptr⟩
  | respond => trivial

theorem ringRead_sound {p : PairStep} (hc : s.x.cmd = opRingRead) (hsel : legalReadSelector s.x.sel = true) :
    (ringReadAction p s).Sound s := by
  obtain ⟨r, hr⟩ := Option.isSome_iff_exists.1 ((ringPair_isSome s.x.sel).trans hsel)
  have hr : readPair s.x.sel = some r := hr
  cases p with
  | hi => simp only [ringReadAction, hr]; exact fun _ => ⟨.ringRead .lo, rfl, hc, hsel⟩
  | lo => simp only [ringReadAction, hr]; exact fun _ => ⟨.ringRead .respond, rfl, hc, hsel⟩
  | respond => trivial

theorem ringWrite_sound {p : PairStep} (hc : s.x.cmd = opRingWrite) (hsel : legalWriteSelector s.x.sel = true) :
    (ringWriteAction p s).Sound s := by
  obtain ⟨r, hr⟩ := Option.isSome_iff_exists.1 ((writePair_isSome s.x.sel).trans hsel)
  cases p with
  | hi => simp only [ringWriteAction, hr]; exact ⟨.ringWrite .lo, rfl, hc, hsel⟩
  | lo => simp only [ringWriteAction, hr]; exact ⟨.ringWrite .respond, rfl, hc, hsel⟩
  | respond => trivial

end

/-- At every position of every command, inside the invariant, the next action is sound. -/
theorem SeqStep.action_sound {s : State} {q : SeqStep} (hm : s.mode = .busy q) (hc : s.x.cmd = q.opcode) (h : q.ok s) :
    (q.action s).Sound s := by
  cases q with
  | readReg p => exact readReg_sound hc
  | writeReg p => exact writeReg_sound hc
  | configure p => exact configure_sound hm hc h
  | disableEcho p => exact disableEcho_sound hc
  | getMac p =>
    cases p with
    | bytes => exact readSeq_sound hm hc _ _ (fun _ hi => hi) rfl trivial
    | respond => trivial
  | getIp p =>
    cases p with
    | bytes => exact readSeq_sound hm hc _ _ (fun _ hi => hi) rfl trivial
    | respond => trivial
  | getGateway p =>
    cases p with
    | bytes => exact readSeq_sound hm hc _ _ (fun _ hi => hi) rfl trivial
    | respond => trivial
  | getSubnet p =>
    cases p with
    | bytes => exact readSeq_sound hm hc _ _ (fun _ hi => hi) rfl trivial
    | respond => trivial
  | enableRaw p => exact enableRaw_sound hc h
  | frameAvailable p => exact frameAvailable_sound hc h
  | receiveFrame p => exact receiveFrame_sound hm hc h.1 h.2
  | sendFrame p => exact sendFrame_sound hm hc h.1 h.2
  | ringRead p => exact ringRead_sound hc h
  | ringWrite p => exact ringWrite_sound hc h

/-! ### The step of a command in progress -/

/-- The command in progress changes neither the configuration nor the host port. -/
theorem perform_cfg_port {s t : State} {q : SeqStep} (hm : s.mode = .busy q)
    (h : perform (q.action s) s = .next t) : t.cfg = s.cfg ∧ t.port = s.port := by
  obtain ⟨a, k, ha, hread⟩ | ⟨a, v, k, ha, hwrite⟩ | ha | ⟨r, -, rfl⟩ | ⟨f, info, -, rfl⟩ := perform_cases h
  · obtain ⟨r, -, rfl⟩ | ⟨b, -, rfl⟩ := hread
    · obtain ⟨hframe, -⟩ := read_frame ha r.r3 (s.exchanged (readFrame s.cfg a))
      exact ⟨hframe.cfg, hframe.port⟩
    · exact ⟨rfl, rfl⟩
  · obtain ⟨r, -, rfl⟩ | ⟨b, -, rfl⟩ := hwrite
    · obtain ⟨hframe, -⟩ := write_frame ha ((s.exchanged (writeFrame s.cfg a v)).storeChip a v)
      exact ⟨hframe.cfg, hframe.port⟩
    · cases b <;> exact ⟨rfl, rfl⟩
  · obtain ⟨hframe, -⟩ := compute_frame hm ha
    exact ⟨hframe.cfg, hframe.port⟩
  · exact ⟨rfl, rfl⟩
  · exact ⟨rfl, rfl⟩

/-- A step of a command that goes on, from `u` after its exchange to `t`, keeps the invariant when it writes to DEST at most
one byte, within the range of R28. -/
theorem Inv.of_running {s u t : State} (h : Inv u) (hfault : u.fault = ⟨0x00#8, 0x0000#16⟩)
    (hframe : StepFrame s u t) (ht : t.Running)
    (hdest : t.dest = u.dest ∨ ∃ k v, k < 65535 ∧ t.dest = memWrite u.dest k v) : Inv t := by
  have hmode : t.mode.ok t := ht.modeOk (hframe.fault.trans hfault)
  obtain hdest | ⟨k, v, hk, hdest⟩ := hdest
  · exact h.of_modeOk hframe.cfg hframe.chip hdest hmode
  · exact {
      cfgWf := hframe.cfg ▸ h.cfgWf
      chipWf := hframe.chip ▸ h.chipWf
      chipRange := hframe.chip ▸ h.chipRange
      destWf := hdest ▸ memWrite_wf _ _ _ h.destWf
      destRange := hdest ▸ memWrite_range _ _ _ _ hk h.destRange
      modeOk := hmode }

/-- A payload byte goes below CAP, which has 16 bits (R28, R183, R184). -/
theorem read_dest_range {s : State} {q : SeqStep} {a : Addr} {k : Byte → State → State} (hq : q.ok s)
    (ha : q.action s = .read a k) (v : Byte) (u : State) :
    (k v u).dest = u.dest ∨ ∃ j w, j < 65535 ∧ (k v u).dest = memWrite u.dest j w := by
  obtain ⟨-, -, hdest | ⟨rfl, hi, hdest⟩ | ⟨rfl, hi, hdest⟩⟩ := read_frame ha v u
  · exact .inl hdest
  · obtain ⟨-, -, hready, -⟩ := hq
    have hsum := hready.split_sum
    exact .inr ⟨_, v, by omega, hdest⟩
  · obtain ⟨-, -, hready, -⟩ := hq
    have hsum := hready.split_sum
    exact .inr ⟨_, v, by omega, hdest⟩

/-- The step of a command in progress keeps the invariant. -/
theorem Inv.of_perform {s t : State} {q : SeqStep} (h : Inv s) (hm : s.mode = .busy q)
    (hstep : perform (q.action s) s = .next t) : Inv t := by
  obtain ⟨hfault, hc, hq⟩ := h.of_busy hm
  have hsound := SeqStep.action_sound hm hc hq
  obtain ⟨a, k, ha, hread⟩ | ⟨a, v, k, ha, hwrite⟩ | ha | ⟨r, -, rfl⟩ | ⟨f, info, -, rfl⟩ := perform_cases hstep
  · obtain ⟨r, -, rfl⟩ | ⟨b, -, rfl⟩ := hread
    · rw [ha] at hsound
      exact (h.exchanged _).of_running hfault (read_frame ha _ _).1 (hsound r.r3) (read_dest_range hq ha _ _)
    · exact (h.exchanged _).raise _ _
  · obtain ⟨r, -, rfl⟩ | ⟨b, -, rfl⟩ := hwrite
    · rw [ha] at hsound
      obtain ⟨hframe, -, hdest, -⟩ := write_frame ha ((s.exchanged (writeFrame s.cfg a v)).storeChip a v)
      exact ((h.exchanged _).storeChip a v).of_running hfault hframe hsound (.inl hdest)
    · cases b with
      | false => exact (h.exchanged _).raise _ _
      | true => exact ((h.exchanged _).storeChip a v).raise _ _
  · rw [ha] at hsound
    obtain ⟨hframe, hdest⟩ := compute_frame hm ha
    exact h.of_running hfault hframe hsound (.inl hdest)
  · exact h.of_modeOk rfl rfl rfl hfault
  · exact h.raise f info

/-- Inside the invariant the command in progress always has a next step. -/
theorem Inv.exists_perform {s : State} {q : SeqStep} (h : Inv s) (hm : s.mode = .busy q) :
    ∃ t, perform (q.action s) s = .next t := by
  obtain ⟨-, hc, hq⟩ := h.of_busy hm
  refine perform_next _ _ fun f hstop => ?_
  have hsound := SeqStep.action_sound hm hc hq
  rwa [hstop] at hsound

/-! ### The step of an idle or halted block -/

theorem State.requireOpen_of_opened {s : State} (h : s.sock = .opened) : s.requireOpen = s := by
  simp [State.requireOpen, h]

theorem State.requireOpen_of_closed {s : State} (h : s.sock = .closed) :
    s.requireOpen = s.raise .socketNotOpen (join16 0x00#8 s.x.cmd) := by
  simp [State.requireOpen, h]

/-- What acceptance of a decoded command can do (R100): latch CMD, the arguments and SRC and put the command in progress,
or latch them and enter a fault. -/
theorem acceptedState_cases {bs rest : List Byte} {i : Instr} (hd : decodeHost bs = .ok i rest) (s : State) :
    ((acceptedState i s).Running ∧
      ∃ q src x, acceptedState i s = { s with mode := .busy q, src := src, x := x }) ∨
    ∃ src x f info, acceptedState i s = { s with src := src, x := x }.raise f info := by
  cases i with
  | busRead a => exact absurd (decodeHost_isHost hd) (by simp [Instr.isExchange])
  | busWrite a v => exact absurd (decodeHost_isHost hd) (by simp [Instr.isExchange])
  | readReg a => exact .inl ⟨⟨_, rfl, rfl, trivial⟩, _, _, _, rfl⟩
  | writeReg a v => exact .inl ⟨⟨_, rfl, rfl, trivial⟩, _, _, _, rfl⟩
  | configure mac ip gw sn => exact .inl ⟨⟨_, rfl, rfl, trivial⟩, _, _, _, rfl⟩
  | disableEcho => exact .inl ⟨⟨_, rfl, rfl, trivial⟩, _, _, _, rfl⟩
  | getMac => exact .inl ⟨⟨_, rfl, rfl, Nat.zero_le _⟩, _, _, _, rfl⟩
  | getIp => exact .inl ⟨⟨_, rfl, rfl, Nat.zero_le _⟩, _, _, _, rfl⟩
  | getGateway => exact .inl ⟨⟨_, rfl, rfl, Nat.zero_le _⟩, _, _, _, rfl⟩
  | getSubnet => exact .inl ⟨⟨_, rfl, rfl, Nat.zero_le _⟩, _, _, _, rfl⟩
  | enableRaw => exact .inl ⟨⟨_, rfl, rfl, trivial⟩, _, _, _, rfl⟩
  | frameAvailable =>
    simp only [acceptedState]
    cases hs : (s.accept opFrameAvailable id (.frameAvailable .cntHi)).sock with
    | opened => rw [State.requireOpen_of_opened hs]; exact .inl ⟨⟨_, rfl, rfl, hs⟩, _, _, _, rfl⟩
    | closed => rw [State.requireOpen_of_closed hs]; exact .inr ⟨_, _, _, _, rfl⟩
  | receiveFrame cap =>
    simp only [acceptedState]
    cases hs : (s.accept opReceiveFrame (fun x => { x with cap := cap }) (.receiveFrame .cntHi)).sock with
    | opened => rw [State.requireOpen_of_opened hs]; exact .inl ⟨⟨_, rfl, rfl, hs, trivial⟩, _, _, _, rfl⟩
    | closed => rw [State.requireOpen_of_closed hs]; exact .inr ⟨_, _, _, _, rfl⟩
  | sendFrame len data =>
    simp only [acceptedState, sendFrameAccepted]
    split
    case h_1 hs => rw [State.requireOpen_of_closed hs]; exact .inr ⟨_, _, _, _, rfl⟩
    case h_2 hs =>
      split
      case isTrue => exact .inr ⟨_, _, _, _, rfl⟩
      case isFalse hlong =>
        exact .inl ⟨⟨_, rfl, rfl, hs, decodeHost_sendFrame hd, eq_false_of_ne_true hlong⟩, _, _, _, rfl⟩
  | ringRead sel =>
    simp only [acceptedState, ringReadAccepted]
    split
    case h_1 r hr =>
      have hsel : legalReadSelector sel = true := by
        rw [← ringPair_isSome]; exact Option.isSome_of_eq_some hr
      exact .inl ⟨⟨_, rfl, rfl, hsel⟩, _, _, _, rfl⟩
    case h_2 => exact .inr ⟨_, _, _, _, rfl⟩
  | ringWrite sel val =>
    simp only [acceptedState, ringWriteAccepted]
    split
    case h_1 r hr =>
      have hsel : legalWriteSelector sel = true := by
        rw [← writePair_isSome]; exact Option.isSome_of_eq_some hr
      exact .inl ⟨⟨_, rfl, rfl, hsel⟩, _, _, _, rfl⟩
    case h_2 => exact .inr ⟨_, _, _, _, rfl⟩

/-- Acceptance keeps the invariant. -/
theorem Inv.acceptedState {s : State} (h : Inv s) (hm : s.mode = .idle) {bs rest : List Byte} {i : Instr}
    (hd : decodeHost bs = .ok i rest) : Inv (acceptedState i { s with port := rest }) := by
  have hfault : s.fault = ⟨0x00#8, 0x0000#16⟩ := by simpa [hm, Mode.ok] using h.modeOk
  obtain ⟨hrun, q, src, x, ht⟩ | ⟨src, x, f, info, ht⟩ := acceptedState_cases hd { s with port := rest }
  · rw [ht] at hrun ⊢
    exact h.of_modeOk rfl rfl rfl (hrun.modeOk hfault)
  · rw [ht]
    exact h.of_modeOk rfl rfl rfl f.code_range

/-- The answer of a halted block keeps the invariant (R230). -/
theorem Inv.answerHalted {s : State} (h : Inv s) (hm : s.mode = .halted) (port : List Byte) :
    Inv ({ s with port := port }.answerHalted) := by
  have hcode : 1 ≤ s.fault.code.toNat ∧ s.fault.code.toNat ≤ 7 := by simpa [hm, Mode.ok] using h.modeOk
  refine h.of_modeOk rfl rfl rfl ?_
  simpa [hm, Mode.ok] using hcode

/-- What a block that is not busy does with a byte that is no opcode (R223, R230). -/
theorem State.acceptIllegal_cases {s : State} (hb : s.isBusy = false) (op : Byte) :
    (s.mode = .idle ∧ s.acceptIllegal op =
      (s.setRegs fun x => { x with cmd := op }).raise .illegalCommand (join16 op 0x00#8)) ∨
    (s.mode = .halted ∧ s.acceptIllegal op = s.answerHalted) := by
  cases hm : s.mode <;> simp_all [State.isBusy, State.acceptIllegal]

/-- The step of a block that is not busy keeps the invariant. -/
theorem Inv.of_takeCommand {s t : State} (h : Inv s) (hb : s.isBusy = false) (hstep : takeCommand s = .next t) :
    Inv t := by
  obtain ⟨-, rfl⟩ | ⟨i, rest, hd, ⟨hm, rfl⟩ | ⟨hm, rfl⟩⟩ | ⟨op, -, rfl⟩ := takeCommand_cases hb hstep
  · exact h
  · exact h.acceptedState hm hd
  · exact h.answerHalted hm rest
  · obtain ⟨-, ht⟩ | ⟨hm, ht⟩ := State.acceptIllegal_cases (s := { s with port := s.port.tail }) hb op <;> rw [ht]
    · exact h.of_modeOk rfl rfl rfl (BlockFault.code_range .illegalCommand)
    · exact h.answerHalted hm s.port.tail

/-- What a step may leave of the bytes at the host port: all of them, or those after the command or the illegal opcode that
it takes (R26, R80, R100). -/
def PortAdvances (bs rest : List Byte) : Prop :=
  rest = bs ∨ (∃ i, decodeHost bs = .ok i rest) ∨ ∃ op, decodeHost bs = .error (.illegalOpcode op) ∧ rest = bs.tail

theorem takeCommand_cfg_port {s t : State} (hb : s.isBusy = false) (hstep : takeCommand s = .next t) :
    t.cfg = s.cfg ∧ PortAdvances s.port t.port := by
  obtain ⟨-, rfl⟩ | ⟨i, rest, hd, ⟨-, rfl⟩ | ⟨-, rfl⟩⟩ | ⟨op, hd, rfl⟩ := takeCommand_cases hb hstep
  · exact ⟨rfl, .inl rfl⟩
  · obtain ⟨-, q, src, x, ht⟩ | ⟨src, x, f, info, ht⟩ := acceptedState_cases hd { s with port := rest } <;> rw [ht]
    · exact ⟨rfl, .inr (.inl ⟨i, hd⟩)⟩
    · exact ⟨rfl, .inr (.inl ⟨i, hd⟩)⟩
  · exact ⟨rfl, .inr (.inl ⟨i, hd⟩)⟩
  · obtain ⟨-, ht⟩ | ⟨-, ht⟩ := State.acceptIllegal_cases (s := { s with port := s.port.tail }) hb op <;> rw [ht]
    · exact ⟨rfl, .inr (.inr ⟨op, hd, rfl⟩)⟩
    · exact ⟨rfl, .inr (.inr ⟨op, hd, rfl⟩)⟩

theorem takeCommand_of_decoded {s : State} {i : Instr} {rest : List Byte} (hd : decodeHost s.port = .ok i rest) :
    takeCommand s = exec i { s with port := rest } := by
  cases hp : s.port with
  | nil => rw [hp] at hd; simp [decodeHost] at hd
  | cons b bs => rw [hp] at hd; simp only [takeCommand, hp, hd]

theorem takeCommand_of_illegal {s : State} {op : Byte} (hd : decodeHost s.port = .error (.illegalOpcode op)) :
    takeCommand s = .next ({ s with port := s.port.tail }.acceptIllegal op) := by
  cases hp : s.port with
  | nil => rw [hp] at hd; simp [decodeHost] at hd
  | cons b bs => rw [hp] at hd; simp only [takeCommand, hp, hd]

/-- A block that is not busy has a next step unless an incomplete command is presented (R79). -/
theorem exists_takeCommand {s : State} (hb : s.isBusy = false) (hp : s.presentsWhole) :
    ∃ t, takeCommand s = .next t := by
  obtain hp | hp := hp
  · exact ⟨s, by simp [takeCommand, hp]⟩
  · obtain hd | ⟨op, rest, -, -, hd⟩ | ⟨i, rest, hd, hi, -⟩ := decodeHost_cases s.port
    · exact absurd hd hp
    · exact ⟨_, takeCommand_of_illegal hd⟩
    · rw [takeCommand_of_decoded hd]
      cases hm : s.mode with
      | idle => exact ⟨_, exec_idle rfl hi⟩
      | busy q => simp [State.isBusy, hm] at hb
      | halted => exact ⟨_, exec_halted rfl hi⟩

/-! ### Steps and runs -/

@[simp] theorem State.tick_isBusy (s : State) : s.tick.isBusy = s.isBusy := by
  simp only [State.isBusy, State.tick_mode]

/-- Every step keeps the configuration (R25) and leaves the host port alone or moves it past one command. -/
theorem step_cfg_port {s t : State} (h : step s = .next t) : t.cfg = s.cfg ∧ PortAdvances s.port t.port := by
  obtain ⟨-, rfl⟩ | ⟨-, q, hm, hstep⟩ | ⟨-, hb, hstep⟩ := step_cases h
  · exact ⟨rfl, .inl rfl⟩
  · obtain ⟨hcfg, hport⟩ := perform_cfg_port ((State.tick_mode s).trans hm) hstep
    exact ⟨hcfg.trans (State.tick_cfg s), .inl (hport.trans (State.tick_port s))⟩
  · simpa using takeCommand_cfg_port ((State.tick_isBusy s).trans hb) hstep

/-- Block reset, the step of a command in progress and the step of a block that is not busy all keep the invariant. -/
theorem Inv.of_step {s t : State} (h : Inv s) (hstep : step s = .next t) : Inv t := by
  obtain ⟨-, rfl⟩ | ⟨-, q, hm, hstep⟩ | ⟨-, hb, hstep⟩ := step_cases hstep
  · exact h.blockReset _
  · exact h.tick.of_perform ((State.tick_mode s).trans hm) hstep
  · exact h.tick.of_takeCommand ((State.tick_isBusy s).trans hb) hstep

/-- Inside the invariant the block stops only where it is not busy and an incomplete command is presented (R79). -/
theorem Inv.exists_advanceBlock {s : State} (h : Inv s) (hp : s.isBusy = true ∨ s.presentsWhole) :
    ∃ t, advanceBlock s = .next t := by
  unfold advanceBlock
  cases hm : s.mode with
  | idle =>
    have hb : s.isBusy = false := by rw [State.isBusy, hm]
    exact exists_takeCommand hb (hp.resolve_left (ne_true_of_eq_false hb))
  | busy q =>
    obtain ⟨t, ht⟩ := h.exists_perform hm
    exact ⟨t, (exec_busy hm).trans ht⟩
  | halted =>
    have hb : s.isBusy = false := by rw [State.isBusy, hm]
    exact exists_takeCommand hb (hp.resolve_left (ne_true_of_eq_false hb))

theorem Inv.exists_step {s : State} (h : Inv s) (hp : s.isBusy = true ∨ s.presentsWhole) : ∃ t, step s = .next t := by
  by_cases hr : s.resetDue = true
  · exact ⟨_, if_pos hr⟩
  · rw [step, if_neg hr]
    exact h.tick.exists_advanceBlock (by simpa [State.presentsWhole] using hp)

/-- Whole commands begin with one, or are none. -/
theorem WholeCommands.decodes {bs : List Byte} (h : WholeCommands bs) :
    bs = [] ∨ decodeHost bs ≠ .error .truncated := by
  cases h with
  | nil => exact .inl rfl
  | command i bs rest hd _ => exact .inr (by simp [hd])
  | illegal op rest hd _ => exact .inr (by simp [hd])

/-- What a step leaves of whole commands are whole commands. -/
theorem WholeCommands.of_portAdvances {bs rest : List Byte} (h : WholeCommands bs) (ha : PortAdvances bs rest) :
    WholeCommands rest := by
  obtain rfl | ⟨i, hd⟩ | ⟨op, hd, rfl⟩ := ha
  · exact h
  · cases h with
    | nil => simp [decodeHost] at hd
    | command i' bs rest' hd' hrest =>
      obtain ⟨-, rfl⟩ := Decoded.ok.inj (hd'.symm.trans hd)
      exact hrest
    | illegal op rest' hd' _ => simp [hd'] at hd
  · cases h with
    | nil => exact .nil
    | command i' bs rest' hd' _ => simp [hd'] at hd
    | illegal op' rest' _ hrest => exact hrest

/-- A run that starts inside the invariant, with whole commands at the port, can be continued for any number of steps. -/
theorem Inv.exists_steps (n : Nat) : ∀ {s : State}, Inv s → WholeCommands s.port → ∃ t, Steps n s t ∧ Inv t := by
  induction n with
  | zero => exact fun {s} h _ => ⟨s, rfl, h⟩
  | succ n ih =>
    intro s h hport
    obtain ⟨u, hu⟩ := h.exists_step (.inr hport.decodes)
    obtain ⟨t, ht, hinv⟩ := ih (h.of_step hu) (hport.of_portAdvances (step_cfg_port hu).2)
    exact ⟨t, ⟨u, hu, ht⟩, hinv⟩

/-- Power-on meets the invariant under every configuration that R10 admits. -/
theorem powerOn_inv {c : Params} (hc : c.wf = true) (port : List Byte) (resets : List Nat) (answers : List BusAnswer)
    (draws : Nat) : Inv (State.powerOn c port resets answers draws) where
  cfgWf := hc
  chipWf := reset_memory_wf.1
  chipRange := by simp [State.powerOn, State.reset]
  destWf := reset_memory_wf.2
  destRange := by simp [State.powerOn, State.reset]
  modeOk := rfl

/-! ### The obligations -/

/-- Settles O17: by the cases of a step; the step of a command in progress by the soundness of its action. -/
theorem everyStepKeepsTheInvariant : Obligations.EveryStepKeepsTheInvariant :=
  fun _ _ h hstep => h.of_step hstep

/-- Settles O19, by induction on the number of steps: inside the invariant, with whole commands at the port, there is a next
step, and it keeps both. -/
theorem runsFromPowerOnNeverStop : Obligations.RunsFromPowerOnNeverStop :=
  fun _ port resets answers draws n hc hport => (powerOn_inv hc port resets answers draws).exists_steps n hport

/-- Settles O16: reset is a power-on under the default configuration, which meets R10's constraints. -/
theorem resetMeetsTheInvariant : Obligations.ResetMeetsTheInvariant :=
  powerOn_inv (c := Params.default) (by decide) [] [] [] 0

/-- Settles O60: R11's tie is a conjunct of R10's constraints, and no step changes the configuration. -/
theorem ringSizeIsTiedToTheMemorySize : Obligations.RingSizeIsTiedToTheMemorySize := by
  refine ⟨fun _ _ => ⟨rfl, rfl⟩, fun _ => Params.wf_memoryTied, fun c v hv => ?_, fun s t hc hstep => ?_⟩
  · exact Bool.eq_false_iff.2 fun hwf => hv (Params.wf_memoryTied hwf)
  · rw [(step_cfg_port hstep).1]
    exact Params.wf_memoryTied hc

end Sys2Proof.Machine

/-! ## The step of the block: what it runs, what it may change, what it answers

A step of a command in progress is taken apart once (`CommandStep`): at most the exchange that the block issues
(`BusStep`), and after it the command goes on, completes, or enters a fault. The frame of a step, its trace and its responses
follow from that. -/

namespace Sys2Proof.Machine

/-! ### What a step runs -/

theorem step_of_no_reset {s : State} (hr : s.resetDue = false) : step s = advanceBlock s.tick := by
  simp [step, hr]

theorem step_of_busy {s : State} {q : SeqStep} (hr : s.resetDue = false) (hm : s.mode = .busy q) :
    step s = exec (q.instr s) s.tick := by
  simp [step_of_no_reset hr, advanceBlock, hm]

theorem step_of_not_busy {s : State} (hr : s.resetDue = false) (hb : s.isBusy = false) :
    step s = takeCommand s.tick := by
  rw [step_of_no_reset hr, advanceBlock, State.tick_mode]
  cases hm : s.mode with
  | idle => rfl
  | busy q => simp [State.isBusy, hm] at hb
  | halted => rfl

theorem step_of_decoded {s : State} {i : Instr} {rest : List Byte} (hr : s.resetDue = false) (hb : s.isBusy = false)
    (hd : decodeHost s.port = .ok i rest) : step s = exec i { s.tick with port := rest } := by
  rw [step_of_not_busy hr hb]
  exact takeCommand_of_decoded (by rw [State.tick_port]; exact hd)

theorem State.isBusy_of_mode {s : State} {q : SeqStep} (hm : s.mode = .busy q) : s.isBusy = true := by
  rw [State.isBusy, hm]

theorem State.exists_mode_of_isBusy {s : State} (h : s.isBusy = true) : ∃ q, s.mode = .busy q := by
  cases hm : s.mode with
  | idle => simp [State.isBusy, hm] at h
  | busy q => exact ⟨q, rfl⟩
  | halted => simp [State.isBusy, hm] at h

theorem State.not_isBusy_of_halted {s : State} (hm : s.mode = .halted) : s.isBusy = false := by
  rw [State.isBusy, hm]

theorem State.resetDue_nil {s : State} (h : s.resets = []) : s.resetDue = false := by
  rw [State.resetDue, h]

/-! ### The exchange of a step does not depend on the reset schedule -/

theorem exchange_ite (c : Prop) [Decidable c] (x y : Action) :
    (if c then x else y).exchange = if c then x.exchange else y.exchange :=
  apply_ite Action.exchange c x y

theorem readSeq_exchange (a : Addr) (n : Nat) (next : SeqStep) (s : State) :
    (readSeq a n next s).exchange =
      if s.x.i.toNat < n then some (.busRead (addrPlus a s.x.i.toNat)) else none :=
  exchange_ite _ _ _

theorem readSeq_exchange_resets (a : Addr) (n : Nat) (next : SeqStep) (s : State) (r : List Nat) :
    (readSeq a n next { s with resets := r }).exchange = (readSeq a n next s).exchange := by
  simp only [readSeq_exchange]

theorem writeSeq_exchange (a : Addr) (n : Nat) (byte : Nat → Byte) (next : SeqStep) (s : State) :
    (writeSeq a n byte next s).exchange =
      if s.x.i.toNat < n then some (.busWrite (addrPlus a s.x.i.toNat) (byte s.x.i.toNat)) else none :=
  exchange_ite _ _ _

theorem payloadLoop_exchange (n index : Nat) (a : Addr) (next : SeqStep) (s : State) :
    (payloadLoop n index a next s).exchange =
      if s.x.i.toNat < n then if index < s.x.cap.toNat then some (.busRead a) else none else none :=
  (exchange_ite _ _ _).trans (by rw [exchange_ite]; rfl)

theorem frameLoop_exchange (n index : Nat) (a : Addr) (next : SeqStep) (s : State) :
    (frameLoop n index a next s).exchange =
      if s.x.i.toNat < n then s.src[index]?.map (.busWrite a) else none := by
  rw [frameLoop, exchange_ite]
  cases s.src[index]? <;> rfl

theorem configureAction_exchange_resets (p : ConfigureStep) (s : State) (r : List Nat) :
    (configureAction p { s with resets := r }).exchange = (configureAction p s).exchange := by
  cases p with
  | mac | ip | gateway | subnet => simp only [configureAction, writeSeq_exchange]
  | closeSock | softReset | respond => rfl

theorem enableRawAction_exchange_resets (p : EnableStep) (s : State) (r : List Nat) :
    (enableRawAction p { s with resets := r }).exchange = (enableRawAction p s).exchange := by
  cases p with
  | check => simp only [enableRawAction, exchange_ite]; rfl
  | _ => rfl

theorem receiveFrameAction_exchange_resets (p : ReceiveStep) (s : State) (r : List Nat) :
    (receiveFrameAction p { s with resets := r }).exchange = (receiveFrameAction p s).exchange := by
  cases p with
  | checkEmpty | checkLength | checkCapacity => simp only [receiveFrameAction, exchange_ite]; rfl
  | tail | base => simp only [receiveFrameAction, payloadLoop_exchange]
  | _ => rfl

theorem sendFrameAction_exchange_resets (p : SendStep) (s : State) (r : List Nat) :
    (sendFrameAction p { s with resets := r }).exchange = (sendFrameAction p s).exchange := by
  cases p with
  | checkFree | checkIdle => simp only [sendFrameAction, exchange_ite]; rfl
  | tail | base => simp only [sendFrameAction, frameLoop_exchange]
  | _ => rfl

theorem SeqStep.action_exchange_resets (q : SeqStep) (s : State) (r : List Nat) :
    (q.action { s with resets := r }).exchange = (q.action s).exchange := by
  cases q with
  | readReg p | writeReg p | disableEcho p | frameAvailable p | ringRead p | ringWrite p => cases p <;> rfl
  | getMac p | getIp p | getGateway p | getSubnet p =>
    cases p with
    | bytes => exact readSeq_exchange_resets ..
    | respond => rfl
  | configure p => exact configureAction_exchange_resets p s r
  | enableRaw p => exact enableRawAction_exchange_resets p s r
  | receiveFrame p => exact receiveFrameAction_exchange_resets p s r
  | sendFrame p => exact sendFrameAction_exchange_resets p s r

/-- The block issues the same exchange whatever the reset schedule of the host is. -/
@[simp] theorem State.issued_tick (s : State) : s.tick.issued = s.issued := by
  rw [State.tick_eq]
  unfold State.issued
  cases s.mode with
  | idle => rfl
  | busy q => exact q.action_exchange_resets s _
  | halted => rfl

/-! ### What a command in progress answers -/

/-- A response that ends a command without a fault (R27). -/
def Response.IsCompletion : Response → Prop
  | .fault _ _ => False
  | .halted _ => False
  | _ => True

theorem Response.IsCompletion.ne_fault {r : Response} (h : r.IsCompletion) (code : Byte) (info : U16) :
    r ≠ .fault code info := by
  rintro rfl; exact h

theorem Response.IsCompletion.ne_halted {r : Response} (h : r.IsCompletion) (code : Byte) : r ≠ .halted code := by
  rintro rfl; exact h

/-- If the action is a response, it is a completion. -/
def Action.AnswersCompletion : Action → Prop
  | .respond r => r.IsCompletion
  | _ => True

theorem readSeq_answersCompletion (a : Addr) (n : Nat) (next : SeqStep) (s : State) :
    (readSeq a n next s).AnswersCompletion := by
  unfold readSeq; split <;> trivial

theorem writeSeq_answersCompletion (a : Addr) (n : Nat) (byte : Nat → Byte) (next : SeqStep) (s : State) :
    (writeSeq a n byte next s).AnswersCompletion := by
  unfold writeSeq; split <;> trivial

theorem payloadLoop_answersCompletion (n index : Nat) (a : Addr) (next : SeqStep) (s : State) :
    (payloadLoop n index a next s).AnswersCompletion := by
  unfold payloadLoop; split
  · split <;> trivial
  · trivial

theorem frameLoop_answersCompletion (n index : Nat) (a : Addr) (next : SeqStep) (s : State) :
    (frameLoop n index a next s).AnswersCompletion := by
  unfold frameLoop; split
  · split <;> trivial
  · trivial

/-- A command in progress never answers with FAULT or HALTED by a response action: only fault entry sends FAULT, and only a
halted block sends HALTED. -/
theorem SeqStep.action_answersCompletion (q : SeqStep) (s : State) : (q.action s).AnswersCompletion := by
  cases q with
  | readReg p | writeReg p | disableEcho p | frameAvailable p => cases p <;> trivial
  | getMac p | getIp p | getGateway p | getSubnet p =>
    cases p with
    | bytes => exact readSeq_answersCompletion ..
    | respond => trivial
  | configure p =>
    cases p with
    | mac | ip | gateway | subnet => exact writeSeq_answersCompletion ..
    | _ => trivial
  | enableRaw p =>
    cases p with
    | check => simp only [SeqStep.action, enableRawAction]; split <;> trivial
    | _ => trivial
  | receiveFrame p =>
    cases p with
    | checkEmpty | checkLength | checkCapacity => simp only [SeqStep.action, receiveFrameAction]; split <;> trivial
    | tail | base => exact payloadLoop_answersCompletion ..
    | _ => trivial
  | sendFrame p =>
    cases p with
    | checkFree | checkIdle => simp only [SeqStep.action, sendFrameAction]; split <;> trivial
    | tail | base => exact frameLoop_answersCompletion ..
    | _ => trivial
  | ringRead p =>
    cases p with
    | hi | lo => simp only [SeqStep.action, ringReadAction]; split <;> trivial
    | respond => trivial
  | ringWrite p =>
    cases p with
    | hi | lo => simp only [SeqStep.action, ringWriteAction]; split <;> trivial
    | respond => trivial

/-! ### The step of a command in progress, taken apart -/

/-- What the exchange of a step, if the block issues one, leaves before the rest of the step: the exchange in the trace, and
in the chip's image the byte of a write that the chip took (R101 to R103). -/
inductive BusStep (s : State) : State → Prop
  | none : BusStep s s
  | read (a : Addr) : s.issued = some (.busRead a) → BusStep s (s.exchanged (readFrame s.cfg a))
  | writeStored (a : Addr) (v : Byte) : s.issued = some (.busWrite a v) → s.nextAnswer ≠ .fail false →
      BusStep s ((s.exchanged (writeFrame s.cfg a v)).storeChip a v)
  | writeLost (a : Addr) (v : Byte) : s.issued = some (.busWrite a v) → s.nextAnswer = .fail false →
      BusStep s (s.exchanged (writeFrame s.cfg a v))

/-- An exchange moves the bus port, the trace and the chip's image, and nothing else. -/
theorem BusStep.frame {s u : State} (h : BusStep s u) :
    ∃ answers draws trace chip,
      u = { s with answers := answers, draws := draws, trace := trace, chip := chip } := by
  cases h <;> exact ⟨_, _, _, _, rfl⟩

/-- A payload read puts its byte into DEST at the index that the copy is at; no other step writes DEST (R184). -/
def DestStep (q : SeqStep) (s t : State) : Prop :=
  t.dest = s.dest ∨ ∃ k v, t.dest = memWrite s.dest k v ∧
    ((q = .receiveFrame .tail ∧ s.x.i.toNat < s.x.upper.toNat ∧ k = s.x.i.toNat) ∨
      (q = .receiveFrame .base ∧ s.x.i.toNat < s.x.left.toNat ∧ k = s.x.upper.toNat + s.x.i.toNat))

/-- A step of the command in progress at `q`, from `s` to `t`: after at most one exchange it goes on or enters a fault, or
it completes without an exchange (R23, R27, R221). -/
inductive CommandStep (q : SeqStep) (s : State) : State → Prop
  | goesOn {u t : State} : BusStep s u → StepFrame s u t → DestStep q s t → CommandStep q s t
  | completes (r : Response) : r.IsCompletion → CommandStep q s (s.respond r)
  | faults {u : State} (f : BlockFault) (info : U16) : BusStep s u → CommandStep q s (u.raise f info)

theorem State.issued_of_busy {s : State} {q : SeqStep} (hm : s.mode = .busy q) :
    s.issued = (q.action s).exchange := by
  rw [State.issued, hm]

/-- Every step of a command in progress has this form. -/
theorem CommandStep.of_perform {s t : State} {q : SeqStep} (hm : s.mode = .busy q)
    (h : perform (q.action s) s = .next t) : CommandStep q s t := by
  have hissued := State.issued_of_busy hm
  obtain ⟨a, k, ha, hread⟩ | ⟨a, v, k, ha, hwrite⟩ | ha | ⟨r, ha, rfl⟩ | ⟨f, info, -, rfl⟩ := perform_cases h
  · have hbus : BusStep s (s.exchanged (readFrame s.cfg a)) := .read a (by rw [hissued, ha]; rfl)
    obtain ⟨r, -, rfl⟩ | ⟨b, -, rfl⟩ := hread
    · obtain ⟨hframe, -, hdest⟩ := read_frame ha r.r3 (s.exchanged (readFrame s.cfg a))
      refine .goesOn hbus hframe ?_
      obtain hdest | ⟨hq, hi, hdest⟩ | ⟨hq, hi, hdest⟩ := hdest
      · exact .inl hdest
      · exact .inr ⟨_, _, hdest, .inl ⟨hq, hi, rfl⟩⟩
      · exact .inr ⟨_, _, hdest, .inr ⟨hq, hi, rfl⟩⟩
    · exact .faults _ _ hbus
  · have hw : s.issued = some (.busWrite a v) := by rw [hissued, ha]; rfl
    obtain ⟨r, hr, rfl⟩ | ⟨b, hb, rfl⟩ := hwrite
    · obtain ⟨hframe, -, hdest, -⟩ := write_frame ha ((s.exchanged (writeFrame s.cfg a v)).storeChip a v)
      exact .goesOn (.writeStored a v hw (by simp [hr, Reply.answer])) hframe (.inl hdest)
    · cases b with
      | false => exact .faults _ _ (.writeLost a v hw hb)
      | true => exact .faults _ _ (.writeStored a v hw (by simp [hb]))
  · obtain ⟨hframe, hdest⟩ := compute_frame hm ha
    exact .goesOn .none hframe (.inl hdest)
  · have hr := q.action_answersCompletion s
    rw [ha] at hr
    exact .completes r hr
  · exact .faults f info .none

theorem CommandStep.resets {q : SeqStep} {s t : State} (h : CommandStep q s t) : t.resets = s.resets := by
  cases h with
  | goesOn hbus hframe hdest =>
    obtain ⟨_, _, _, _, rfl⟩ := hbus.frame
    exact hframe.resets
  | completes r hr => rfl
  | faults f info hbus =>
    obtain ⟨_, _, _, _, rfl⟩ := hbus.frame
    rfl

/-- The trace after the step is the trace after its exchange. -/
theorem CommandStep.trace {q : SeqStep} {s t : State} (h : CommandStep q s t) :
    ∃ u, BusStep s u ∧ t.trace = u.trace := by
  cases h with
  | goesOn hbus hframe hdest => exact ⟨_, hbus, hframe.trace⟩
  | completes r hr => exact ⟨s, .none, rfl⟩
  | faults f info hbus => exact ⟨_, hbus, rfl⟩

theorem CommandStep.dest {q : SeqStep} {s t : State} (h : CommandStep q s t) : DestStep q s t := by
  cases h with
  | goesOn hbus hframe hdest => exact hdest
  | completes r hr => exact .inl rfl
  | faults f info hbus =>
    obtain ⟨_, _, _, _, rfl⟩ := hbus.frame
    exact .inl rfl

theorem rawActive_iff (stat : Byte) : rawActive stat = true ↔ stat = 0x42#8 := beq_iff_eq

/-- The positions of a command at which SOCK moves (R160). -/
theorem CommandStep.sock {q : SeqStep} {s t : State} (h : CommandStep q s t) :
    t.sock = s.sock ∨ (s.mode = .busy (.configure .closeSock) ∧ t.sock = .closed) ∨
      (s.mode = .busy (.enableRaw .check) ∧ s.x.stat = 0x42#8 ∧ t.sock = .opened) ∨
      (s.mode = .busy (.enableRaw .closed) ∧ t.sock = .closed) := by
  cases h with
  | goesOn hbus hframe hdest =>
    obtain ⟨_, _, _, _, rfl⟩ := hbus.frame
    simpa only [rawActive_iff] using hframe.sock
  | completes r hr => exact .inl rfl
  | faults f info hbus =>
    obtain ⟨_, _, _, _, rfl⟩ := hbus.frame
    exact .inl rfl

/-! ### The step of a block that is not busy -/

/-- Taking or answering a command touches neither the chip nor DEST, makes no exchange and keeps SOCK (R100, R230). -/
theorem takeCommand_frame {s t : State} (hb : s.isBusy = false) (h : takeCommand s = .next t) :
    ∃ mode fault x src port responses, t = { s with
      mode := mode, fault := fault, x := x, src := src, port := port, responses := responses } := by
  obtain ⟨-, rfl⟩ | ⟨i, rest, hd, ⟨-, rfl⟩ | ⟨-, rfl⟩⟩ | ⟨op, -, rfl⟩ := takeCommand_cases hb h
  · exact ⟨_, _, _, _, _, _, rfl⟩
  · obtain ⟨-, q, src, x, ht⟩ | ⟨src, x, f, info, ht⟩ := acceptedState_cases hd { s with port := rest } <;> rw [ht] <;>
      exact ⟨_, _, _, _, _, _, rfl⟩
  · exact ⟨_, _, _, _, _, _, rfl⟩
  · obtain ⟨-, ht⟩ | ⟨-, ht⟩ := State.acceptIllegal_cases (s := { s with port := s.port.tail }) hb op <;> rw [ht] <;>
      exact ⟨_, _, _, _, _, _, rfl⟩

/-- A halted block only takes bytes from the port and answers (R230). -/
theorem takeCommand_halted_frame {s t : State} (hm : s.mode = .halted) (h : takeCommand s = .next t) :
    ∃ port responses, t = { s with port := port, responses := responses } := by
  have hb := State.not_isBusy_of_halted hm
  obtain ⟨-, rfl⟩ | ⟨i, rest, -, ⟨hi, -⟩ | ⟨-, rfl⟩⟩ | ⟨op, -, rfl⟩ := takeCommand_cases hb h
  · exact ⟨_, _, rfl⟩
  · simp [hm] at hi
  · exact ⟨_, _, rfl⟩
  · obtain ⟨hi, -⟩ | ⟨-, ht⟩ := State.acceptIllegal_cases (s := { s with port := s.port.tail }) hb op
    · simp [hm] at hi
    · rw [ht]; exact ⟨_, _, rfl⟩

/-! ### The cases of a step -/

/-- A step is a block reset, a step of the command in progress, or the step of a block that takes or answers a command. -/
theorem step_commandStep_cases {s t : State} (h : step s = .next t) :
    (s.resetDue = true ∧ t = { s with resets := s.resets.tail }.blockReset) ∨
    (s.resetDue = false ∧ ∃ q, s.mode = .busy q ∧ CommandStep q s.tick t) ∨
    (s.resetDue = false ∧ s.isBusy = false ∧ takeCommand s.tick = .next t) := by
  obtain hreset | ⟨hr, q, hm, hstep⟩ | htake := step_cases h
  · exact .inl hreset
  · exact .inr (.inl ⟨hr, q, hm, .of_perform ((State.tick_mode s).trans hm) hstep⟩)
  · exact .inr (.inr htake)

/-- Where the host asserts no reset, none is due after the step either. -/
theorem step_resets_nil {s t : State} (hs : s.resets = []) (h : step s = .next t) : t.resets = [] := by
  have htick : s.tick.resets = [] := by rw [State.tick_nil hs, hs]
  obtain ⟨hr, -⟩ | ⟨-, q, -, hstep⟩ | ⟨-, hb, hstep⟩ := step_commandStep_cases h
  · simp [State.resetDue_nil hs] at hr
  · exact hstep.resets.trans htick
  · obtain ⟨_, _, _, _, _, _, rfl⟩ := takeCommand_frame ((State.tick_isBusy s).trans hb) hstep
    exact htick

/-! ### A run of a command is a run of the machine -/

theorem onPort_waits {s accepted : State} {q : SeqStep} {inProgress : SeqStep → Option Action} (hm : s.mode = .busy q)
    (h : inProgress q = none) : onPort s accepted inProgress = .next s := by
  simp [onPort, hm, h]

/-- A command that is not the one in progress waits (log 13). -/
theorem exec_waits {s : State} {q : SeqStep} {i : Instr} (hm : s.mode = .busy q) (hi : i.isExchange = false)
    (hne : q.instr s ≠ i) : exec i s = .next s := by
  cases i with
  | busRead | busWrite => simp [Instr.isExchange] at hi
  | disableEcho | getMac | getIp | getGateway | getSubnet | enableRaw | frameAvailable =>
    refine onPort_waits hm ?_
    split
    · exact absurd rfl hne
    · rfl
  | readReg | writeReg | configure | receiveFrame | sendFrame | ringRead | ringWrite =>
    refine onPort_waits hm ?_
    split
    · exact if_neg fun h => hne (by simp only [SeqStep.instr, h])
    · rfl

/-- A busy block in which `exec i` runs to an end has `i` in progress: otherwise `exec i` would wait for ever. -/
theorem Completes.instr_eq {i : Instr} (hi : i.isExchange = false) {s t : State} {q : SeqStep}
    {n : Nat} (hm : s.mode = .busy q) (hc : Completes i n s t) : q.instr s = i := by
  by_contra hne
  have hwait := exec_waits hm hi hne
  induction n with
  | zero =>
    obtain ⟨he, hb⟩ := hc
    obtain rfl : s = t := Host.Outcome.next.inj (hwait.symm.trans he)
    simp [State.isBusy_of_mode hm] at hb
  | succ n ih =>
    obtain ⟨u, he, -, hrest⟩ := hc
    obtain rfl : s = u := Host.Outcome.next.inj (hwait.symm.trans he)
    exact ih hrest

theorem Completes.step_eq {i : Instr} {n : Nat} {s t : State} (hi : i.isExchange = false) (hr : s.resets = [])
    (hb : s.isBusy = true) (hc : Completes i n s t) : step s = exec i s := by
  obtain ⟨q, hm⟩ := State.exists_mode_of_isBusy hb
  rw [step_of_busy (State.resetDue_nil hr) hm, State.tick_nil hr, hc.instr_eq hi hm]

/-- Where the host asserts no reset, the rest of a command in progress is run by the machine, step for step. -/
theorem Completes.steps {i : Instr} {n : Nat} {s t : State} (hi : i.isExchange = false) (hr : s.resets = [])
    (hb : s.isBusy = true) (hc : Completes i n s t) : Steps (n + 1) s t := by
  have hstep := hc.step_eq hi hr hb
  induction n generalizing s with
  | zero => exact ⟨t, hstep.trans hc.1, rfl⟩
  | succ n ih =>
    obtain ⟨u, he, hu, hrest⟩ := hc
    have hr' := step_resets_nil hr (hstep.trans he)
    exact ⟨u, hstep.trans he, ih hr' hu hrest (hrest.step_eq hi hr' hu)⟩

/-! ### Acceptance -/

theorem State.requireOpen_accept {s : State} (hs : s.sock = .opened) (op : Byte) (l : Regs → Regs) (p : SeqStep) :
    (s.accept op l p).requireOpen = s.accept op l p :=
  State.requireOpen_of_opened hs

theorem readPair_of_le {sel : Byte} (h : sel.toNat ≤ 5) : ∃ r, readPair sel = some r := by
  rw [← Option.isSome_iff_exists, readPair, ringPair_isSome]
  exact decide_eq_true h

theorem writePair_of_pointer {sel : Byte} (h : sel.toNat = 1 ∨ sel.toNat = 5) : ∃ r, writePair sel = some r := by
  rw [← Option.isSome_iff_exists, writePair_isSome, legalWriteSelector]
  simpa using h

theorem ringReadAccepted_of_le {sel : Byte} (h : sel.toNat ≤ 5) (s : State) :
    ringReadAccepted sel s = s.accept opRingRead (fun x => { x with sel := sel }) (.ringRead .hi) := by
  obtain ⟨r, hr⟩ := readPair_of_le h
  simp only [ringReadAccepted, hr]

theorem ringWriteAccepted_of_pointer {sel : Byte} (h : sel.toNat = 1 ∨ sel.toNat = 5) (val : U16) (s : State) :
    ringWriteAccepted sel val s =
      s.accept opRingWrite (fun x => { x with sel := sel, val := val }) (.ringWrite .hi) := by
  obtain ⟨r, hr⟩ := writePair_of_pointer h
  simp only [ringWriteAccepted, hr]

theorem sendFrameAccepted_of_le {s : State} {len : U16} (hs : s.sock = .opened) (h : len.toNat ≤ 8192)
    (data : List Byte) :
    sendFrameAccepted len data s =
      { s with src := data }.accept opSendFrame (fun x => { x with len := len }) (.sendFrame .fsrHi) := by
  have hlong : ¬frameTooLong len = true := by simpa [frameTooLong, Config.ringSize] using h
  simp only [sendFrameAccepted, State.accept_sock, State.accept_x, hs, if_neg hlong]

/-! ### The obligations: the step -/

/-- Settles O10: with no reset due and no command in progress, a step takes the command from the port. -/
theorem stepRunsThePresentedCommand : Obligations.StepRunsThePresentedCommand :=
  fun _ _ _ hr hb hd => step_of_decoded hr hb hd

/-- Settles O11. -/
theorem stepContinuesTheCommandInProgress : Obligations.StepContinuesTheCommandInProgress :=
  fun _ _ hr hm => step_of_busy hr hm

/-- Settles O12: the reset schedule does not change what is issued, and both `exec` of the exchange and `exec` of the command
in progress perform the action at its position. -/
theorem stepPerformsTheIssuedExchange : Obligations.StepPerformsTheIssuedExchange := by
  intro s b hr hb
  obtain ⟨q, hm, -, hexec⟩ := exec_issued hb
  obtain ⟨q', hm', -, hexec'⟩ := exec_issued ((State.issued_tick s).trans hb)
  refine ⟨?_, q, hm, hexec.trans (exec_busy hm).symm⟩
  obtain rfl : q' = q := by simpa [hm, eq_comm] using hm'
  rw [step_of_busy hr hm, ← SeqStep.instr_tick, exec_busy hm', hexec']

/-- Settles O13: the port is empty, so nothing is taken. -/
theorem stepWaitsForACommand : Obligations.StepWaitsForACommand := by
  intro s hr hb hp
  simp [step_of_not_busy hr hb, takeCommand, hp]

/-- Settles O14: a reset is due, and the step is `State.blockReset`. -/
theorem blockResetSetsTheBlockOnly : Obligations.BlockResetSetsTheBlockOnly := by
  intro s r hr
  have hdue : s.resetDue = true := by simp [State.resetDue, hr]
  exact ⟨_, if_pos hdue, rfl, rfl, rfl, rfl, rfl, rfl, rfl, rfl, rfl, rfl, rfl, rfl, rfl, rfl, by simp [hr]⟩

/-- Settles O18: sound actions are no stops, and a block that is not busy refuses incomplete commands only. -/
theorem noStepStopsInsideTheInvariant : Obligations.NoStepStopsInsideTheInvariant :=
  fun _ h hp => h.exists_step hp

/-- Settles O20: the first step takes the command from the port, and the rest is a run of the command in progress. -/
theorem commandRunsAreMachineRuns : Obligations.CommandRunsAreMachineRuns := by
  intro s t i rest n hr hb hd hc
  have hfirst : step s = exec i { s with port := rest } := by
    rw [step_of_decoded (State.resetDue_nil hr) hb hd, State.tick_nil hr]
  cases n with
  | zero => exact ⟨t, hfirst.trans hc.1, rfl⟩
  | succ n =>
    obtain ⟨u, he, hu, hrest⟩ := hc
    have hstep := hfirst.trans he
    exact ⟨u, hstep, hrest.steps (decodeHost_isHost hd) (step_resets_nil hr hstep) hu⟩

/-- Settles O21. -/
theorem noStepChangesAParameter : Obligations.NoStepChangesAParameter :=
  fun _ _ h => (step_cfg_port h).1

/-! ### The obligations: the frame of a step -/

/-- A step adds to the trace the exchange that the block issues, or nothing (R61). -/
theorem step_trace {s t : State} (h : step s = .next t) :
    t.trace = s.trace ∨ ∃ e, t.trace = s.trace ++ [e] ∧
      ((∃ a, s.issued = some (.busRead a) ∧ e.sent = readFrame s.cfg a) ∨
        ∃ a v, s.issued = some (.busWrite a v) ∧ e.sent = writeFrame s.cfg a v) := by
  obtain ⟨-, rfl⟩ | ⟨-, q, -, hstep⟩ | ⟨-, hb, hstep⟩ := step_commandStep_cases h
  · exact .inl rfl
  · obtain ⟨u, hbus, ht⟩ := hstep.trace
    rw [ht]
    cases hbus with
    | none => exact .inl (State.tick_trace s)
    | read a ha =>
      exact .inr ⟨⟨readFrame s.cfg a, s.nextAnswer⟩, by simp, .inl ⟨a, by simpa using ha, rfl⟩⟩
    | writeStored a v ha | writeLost a v ha =>
      exact .inr ⟨⟨writeFrame s.cfg a v, s.nextAnswer⟩, by simp, .inr ⟨a, v, by simpa using ha, rfl⟩⟩
  · obtain ⟨_, _, _, _, _, _, rfl⟩ := takeCommand_frame ((State.tick_isBusy s).trans hb) hstep
    exact .inl (State.tick_trace s)

theorem decodeExchange_reserved {c : Params} {b0 : Byte} (hr : b0 ≠ c.dirRead) (hw : b0 ≠ c.dirWrite)
    (b1 b2 b3 : Byte) : decodeExchange c [b0, b1, b2, b3] = .error (.reservedMarker b0) := by
  simp [decodeExchange, hr, hw]

theorem decodeExchange_write {c : Params} (h : c.dirRead ≠ c.dirWrite) (b1 b2 b3 : Byte) :
    decodeExchange c [c.dirWrite, b1, b2, b3] = .ok (.busWrite (join16 b1 b2) b3) [] := by
  simp [decodeExchange, h.symm]

/-- Settles O23, by the trace of a step and the cases of the decoder of exchanges. -/
theorem exchangesUseTheTwoMarkers : Obligations.ExchangesUseTheTwoMarkers := by
  refine ⟨fun s t => step_trace, fun c hc => ?_, fun c b0 b1 b2 b3 hr hw => ?_, fun c b1 b2 b3 hc => ?_⟩
  · exact (Params.wf_elim hc).1
  · exact decodeExchange_reserved hr hw b1 b2 b3
  · exact decodeExchange_write (Params.wf_elim hc).1 b1 b2 b3

/-- Settles O25: only a payload read writes DEST, and the two parts of the payload add up to HDR bytes. -/
theorem destIsWrittenBelowHdrOnly : Obligations.DestIsWrittenBelowHdrOnly := by
  intro s t hinv h k hk
  obtain ⟨-, rfl⟩ | ⟨-, q, hm, hstep⟩ | ⟨-, hb, hstep⟩ := step_commandStep_cases h
  · exact absurd rfl hk
  · obtain hdest | ⟨j, v, hdest, hpos⟩ := hstep.dest
    · rw [hdest, State.tick_dest] at hk
      exact absurd rfl hk
    · have hjk : j = k := by
        by_contra hne
        rw [hdest, memRead_memWrite, if_neg hne, State.tick_dest] at hk
        exact hk rfl
      subst hjk
      rw [State.tick_x] at hpos
      obtain ⟨-, -, hq⟩ := hinv.of_busy hm
      obtain ⟨rfl, hi, rfl⟩ | ⟨rfl, hi, rfl⟩ := hpos
      · obtain ⟨-, -, hready, -⟩ := hq
        have hsum := hready.split_sum
        exact ⟨by omega, .inl ⟨hm, rfl⟩⟩
      · obtain ⟨-, -, hready, -⟩ := hq
        have hsum := hready.split_sum
        exact ⟨by omega, .inr ⟨hm, rfl⟩⟩
  · obtain ⟨_, _, _, _, _, _, rfl⟩ := takeCommand_frame ((State.tick_isBusy s).trans hb) hstep
    exact absurd (by rw [State.tick_dest]) hk

/-- Settles O34: of the steps of a command only those at three positions move SOCK, and a block that is not busy keeps it. -/
theorem sockChangesOnlyAsTheTableSays : Obligations.SockChangesOnlyAsTheTableSays := by
  intro s t h hne
  obtain ⟨hr, rfl⟩ | ⟨-, q, hm, hstep⟩ | ⟨-, hb, hstep⟩ := step_commandStep_cases h
  · exact .inl ⟨hr, rfl⟩
  · have hsock := hstep.sock
    simp only [State.tick_mode, State.tick_x, State.tick_sock] at hsock
    exact .inr (hsock.resolve_left hne)
  · obtain ⟨_, _, _, _, _, _, rfl⟩ := takeCommand_frame ((State.tick_isBusy s).trans hb) hstep
    exact absurd (State.tick_sock s) hne

/-! ### The obligations: responses -/

/-- Settles O26, by the three ways a step of a command in progress can turn out. -/
theorem commandsEndWithOneResponse : Obligations.CommandsEndWithOneResponse := by
  intro s t hr hb h
  obtain ⟨hr', -⟩ | ⟨-, q, hm, hstep⟩ | ⟨-, hb', -⟩ := step_commandStep_cases h
  · simp [hr] at hr'
  · cases hstep with
    | goesOn hbus hframe hdest =>
      obtain ⟨_, _, _, _, rfl⟩ := hbus.frame
      exact .inl ⟨hframe.busy ⟨q, (State.tick_mode s).trans hm⟩, hframe.responses.trans (State.tick_responses s)⟩
    | completes r hcompl => exact .inr (.inl ⟨rfl, r, by simp, hcompl.ne_fault, hcompl.ne_halted⟩)
    | faults f info hbus =>
      obtain ⟨_, _, _, _, rfl⟩ := hbus.frame
      exact .inr (.inr ⟨rfl, by simp⟩)
  · simp [hb] at hb'

/-- Settles O28: a halted block answers every command and every illegal byte, and takes nothing else from the port. -/
theorem haltedAnswersAndStays : Obligations.HaltedAnswersAndStays := by
  refine ⟨fun i s hi hm => exec_halted hm hi, fun s op rest hm hr hp hop => ?_, fun s t hm hr h => ?_⟩
  · have hd : decodeHost s.tick.port = .error (.illegalOpcode op) := by
      rw [State.tick_port, hp]
      exact decodeHost_illegal hop rest
    rw [step_of_not_busy hr (State.not_isBusy_of_halted hm), takeCommand_of_illegal hd]
    simp [State.acceptIllegal, hm, hp, State.send]
  · rw [step_of_not_busy hr (State.not_isBusy_of_halted hm)] at h
    obtain ⟨_, _, rfl⟩ := takeCommand_halted_frame ((State.tick_mode s).trans hm) h
    simp [hm]

/-! ### The obligations: acceptance and the raw register commands -/

/-- Settles O35: an idle block accepts, and the checks of acceptance pass. -/
theorem acceptanceLatchesTheArguments : Obligations.AcceptanceLatchesTheArguments := by
  intro s hm
  refine ⟨fun _ => exec_idle hm rfl, fun _ _ => exec_idle hm rfl, fun _ _ _ _ => exec_idle hm rfl, exec_idle hm rfl,
    exec_idle hm rfl, exec_idle hm rfl, exec_idle hm rfl, exec_idle hm rfl, exec_idle hm rfl, fun hs => ?_,
    fun hs cap => ?_, fun hs len data hlen => ?_, fun sel hsel => ?_, fun sel val hsel => ?_⟩
  · rw [exec_idle hm rfl, acceptedState, State.requireOpen_accept hs]; rfl
  · rw [exec_idle hm rfl, acceptedState, State.requireOpen_accept hs]; rfl
  · rw [exec_idle hm rfl, acceptedState, sendFrameAccepted_of_le hs hlen]; rfl
  · rw [exec_idle hm rfl, acceptedState, ringReadAccepted_of_le hsel]; rfl
  · rw [exec_idle hm rfl, acceptedState, ringWriteAccepted_of_pointer hsel]; rfl

/-- Settles O38: acceptance, the exchange at the latched address, and the response; or acceptance and the failed exchange. -/
theorem readRegCompletes : Obligations.ReadRegCompletes := by
  intro a s hm
  have haccept : exec (.readReg a) s =
      .next (s.accept opReadReg (fun x => { x with addr := a }) (.readReg .xfer)) := exec_idle hm rfl
  refine ⟨fun r hr => ?_, fun b hb => ?_⟩
  · have h0 := hr 0 r rfl
    refine .cons haccept rfl (.cons (exec_read (.readReg .xfer) rfl rfl rfl h0) rfl
      (.last (exec_respond (.readReg .respond) rfl rfl rfl) ?_ rfl))
    apply State.eq_of_fields
    simp [State.afterBus, busTrace, chipWrites, BusOp.frame, opReadReg, hm, State.nextAnswer_eq_upcoming, h0]
  · refine .cons haccept rfl (.last (exec_read_fails (.readReg .xfer) rfl rfl rfl hb) ?_ rfl)
    apply State.eq_of_fields
    simp [BlockFault.code, opReadReg, State.nextAnswer_eq_upcoming, hb]

/-- Settles O39: as READ_REG, with a write; a failed write may have been stored. -/
theorem writeRegCompletes : Obligations.WriteRegCompletes := by
  intro a v s hm
  have haccept : exec (.writeReg a v) s =
      .next (s.accept opWriteReg (fun x => { x with addr := a, data := v }) (.writeReg .xfer)) := exec_idle hm rfl
  refine ⟨fun r hr => ?_, fun b hb => ?_⟩
  · have h0 := hr 0 r rfl
    refine .cons haccept rfl (.cons (exec_write (.writeReg .xfer) rfl rfl rfl h0) rfl
      (.last (exec_respond (.writeReg .respond) rfl rfl rfl) ?_ rfl))
    apply State.eq_of_fields
    simp [State.afterBus, busTrace, chipWrites, BusOp.frame, opWriteReg, hm, State.nextAnswer_eq_upcoming, h0]
  · refine .cons haccept rfl (.last (exec_write_fails (.writeReg .xfer) rfl rfl rfl hb) ?_ rfl)
    apply State.eq_of_fields
    cases b <;> simp [BlockFault.code, opWriteReg, State.nextAnswer_eq_upcoming, hb]

end Sys2Proof.Machine

/-! ## The chip's image and the exchanges that change it

The image follows the trace (O22) and its frame (O24) are read off the exchange of a step (`BusStep`); the two exchanges as
the block issues them (O36, O37) are the action at the position of the command in progress; the ring accesses (O59) are at
ring offsets below RING_SIZE. -/

namespace Sys2Proof.Machine

/-! ### A byte after a write -/

/-- After a write a byte is the old one, or the written one at the written address. -/
theorem memRead_memWrite_cases (m : Memory) (a b : Nat) (v : Byte) :
    memRead (memWrite m a v) b = memRead m b ∨ (memRead (memWrite m a v) b = some v ∧ b = a) := by
  rw [memRead_memWrite]
  split
  case isTrue hab => exact .inr ⟨rfl, hab.symm⟩
  case isFalse => exact .inl rfl

/-! ### What the exchanges of a trace have stored -/

theorem chipAfter_append (c : Params) (m : Memory) (es fs : List Exchange) :
    chipAfter c m (es ++ fs) = chipAfter c (chipAfter c m es) fs := by
  induction es generalizing m with
  | nil => rfl
  | cons e es ih =>
    simp only [List.cons_append, chipAfter]
    cases e.stored c with
    | none => exact ih m
    | some cell => exact ih _

/-- A read stores nothing, since its marker is not that of a write (R71, R74). -/
theorem Exchange.stored_readFrame {c : Params} (hc : c.dirRead ≠ c.dirWrite) (a : Addr) (answer : BusAnswer) :
    Exchange.stored c ⟨readFrame c a, answer⟩ = none := if_neg hc

/-- A write that the chip took stores its byte at its address (R72). -/
theorem Exchange.stored_writeFrame {c : Params} (a : Addr) (v : Byte) {answer : BusAnswer}
    (h : answer ≠ .fail false) : Exchange.stored c ⟨writeFrame c a v, answer⟩ = some (a, v) := by
  cases answer with
  | ok => simp [Exchange.stored, writeFrame]
  | fail stored =>
    cases stored with
    | true => simp [Exchange.stored, writeFrame]
    | false => exact absurd rfl h

/-- A write that the chip did not take stores nothing (R222). -/
theorem Exchange.stored_writeFrame_lost (c : Params) (a : Addr) (v : Byte) :
    Exchange.stored c ⟨writeFrame c a v, .fail false⟩ = none := if_pos rfl

theorem chipAfter_concat_none {c : Params} {e : Exchange} (h : e.stored c = none) (m : Memory) (es : List Exchange) :
    chipAfter c m (es ++ [e]) = chipAfter c m es := by
  simp [chipAfter_append, chipAfter, h]

theorem chipAfter_concat_some {c : Params} {e : Exchange} {a : Addr} {v : Byte} (h : e.stored c = some (a, v))
    (m : Memory) (es : List Exchange) :
    chipAfter c m (es ++ [e]) = memWrite (chipAfter c m es) a.toNat v := by
  simp [chipAfter_append, chipAfter, h]

/-- Only the parameters, the trace and the image say whether the image follows the trace. -/
theorem ChipMatchesTrace.congr {s t : State} (h : ChipMatchesTrace s) (hcfg : t.cfg = s.cfg) (hchip : t.chip = s.chip)
    (htrace : t.trace = s.trace) : ChipMatchesTrace t := by
  rw [ChipMatchesTrace, hcfg, hchip, htrace]
  exact h

/-! ### The image across a step -/

/-- The exchange of a step puts into the image what it stores. -/
theorem ChipMatchesTrace.of_busStep {s u : State} (h : ChipMatchesTrace s) (hc : s.cfg.dirRead ≠ s.cfg.dirWrite)
    (hbus : BusStep s u) : ChipMatchesTrace u := by
  cases hbus with
  | none => exact h
  | read a => exact h.trans (chipAfter_concat_none (Exchange.stored_readFrame hc a _) _ _).symm
  | writeStored a v _ htaken =>
    have hstored := Exchange.stored_writeFrame (c := s.cfg) a v htaken
    exact (congrArg (memWrite · a.toNat v) h).trans (chipAfter_concat_some hstored _ _).symm
  | writeLost a v _ hlost =>
    have hstored : Exchange.stored s.cfg ⟨writeFrame s.cfg a v, s.nextAnswer⟩ = none := by
      rw [hlost]; exact Exchange.stored_writeFrame_lost s.cfg a v
    exact h.trans (chipAfter_concat_none hstored _ _).symm

/-- The parameters, the image and the trace after a step of a command are those after its exchange. -/
theorem CommandStep.bus {q : SeqStep} {s t : State} (h : CommandStep q s t) :
    ∃ u, BusStep s u ∧ t.cfg = u.cfg ∧ t.chip = u.chip ∧ t.trace = u.trace := by
  cases h with
  | goesOn hbus hframe hdest => exact ⟨_, hbus, hframe.cfg, hframe.chip, hframe.trace⟩
  | completes r hr => exact ⟨s, .none, rfl, rfl, rfl⟩
  | faults f info hbus => exact ⟨_, hbus, rfl, rfl, rfl⟩

/-- What a step does to the parameters, the image and the trace is the exchange it makes, if it makes one. -/
theorem step_bus {s t : State} (h : step s = .next t) :
    ∃ u, BusStep s.tick u ∧ t.cfg = u.cfg ∧ t.chip = u.chip ∧ t.trace = u.trace := by
  obtain ⟨-, rfl⟩ | ⟨-, q, -, hstep⟩ | ⟨-, hb, hstep⟩ := step_commandStep_cases h
  · exact ⟨s.tick, .none, by simp, by simp, by simp⟩
  · exact hstep.bus
  · obtain ⟨_, _, _, _, _, _, rfl⟩ := takeCommand_frame ((State.tick_isBusy s).trans hb) hstep
    exact ⟨s.tick, .none, rfl, rfl, rfl⟩

/-- An exchange changes the image at most at the address of the write that is issued. -/
theorem BusStep.memRead_chip {s u : State} (h : BusStep s u) {a : Addr}
    (ha : ∀ v, s.issued ≠ some (.busWrite a v)) : memRead u.chip a.toNat = memRead s.chip a.toNat := by
  cases h with
  | none | read | writeLost => rfl
  | writeStored b v hb =>
    have hne : b.toNat ≠ a.toNat := fun hab => by
      obtain rfl := BitVec.eq_of_toNat_eq hab
      exact ha v hb
    simp [hne]

/-! ### An exchange as the block issues it -/

theorem Action.eq_read_of_exchange {act : Action} {a : Addr} (h : act.exchange = some (.busRead a)) :
    ∃ k, act = .read a k := by
  cases act with
  | read b k => exact ⟨k, congrArg (Action.read · k) (Instr.busRead.inj (Option.some.inj h))⟩
  | write | compute | respond | raise | stop => simp [Action.exchange] at h

theorem Action.eq_write_of_exchange {act : Action} {a : Addr} {v : Byte} (h : act.exchange = some (.busWrite a v)) :
    ∃ k, act = .write a v k := by
  cases act with
  | write b w k =>
    obtain ⟨rfl, rfl⟩ := Instr.busWrite.inj (Option.some.inj h)
    exact ⟨k, rfl⟩
  | read | compute | respond | raise | stop => simp [Action.exchange] at h

/-- BUS_READ that is issued and succeeds: the exchange, and what the command in progress does with the byte (R102). -/
theorem exec_busRead_of_issued {s : State} {a : Addr} {r : Reply} (h : s.issued = some (.busRead a))
    (hr : s.nextAnswer = r.answer) :
    ∃ q k, s.mode = .busy q ∧ q.action s = .read a k ∧
      exec (.busRead a) s = .next (k r.r3 (s.afterBus [.rd a] [r])) := by
  obtain ⟨q, hm, hex, hexec⟩ := exec_issued h
  obtain ⟨k, hk⟩ := Action.eq_read_of_exchange hex
  refine ⟨q, k, hm, hk, ?_⟩
  rw [hexec, hk, perform, busRead_ok hr, State.exchanged_read a (s.nextAnswer_eq_upcoming ▸ hr)]

/-- BUS_WRITE that is issued and succeeds: the exchange, and how the command in progress goes on (R103). -/
theorem exec_busWrite_of_issued {s : State} {a : Addr} {v : Byte} {r : Reply} (h : s.issued = some (.busWrite a v))
    (hr : s.nextAnswer = r.answer) :
    ∃ q k, s.mode = .busy q ∧ q.action s = .write a v k ∧
      exec (.busWrite a v) s = .next (k (s.afterBus [.wr a v] [r])) := by
  obtain ⟨q, hm, hex, hexec⟩ := exec_issued h
  obtain ⟨k, hk⟩ := Action.eq_write_of_exchange hex
  refine ⟨q, k, hm, hk, ?_⟩
  rw [hexec, hk, perform, busWrite_ok hr, State.exchanged_write a v (s.nextAnswer_eq_upcoming ▸ hr)]

/-- The rest of a step after a write moves the position and the loop index, and nothing else. -/
theorem write_continues {s u : State} {q : SeqStep} {a : Addr} {v : Byte} {k : State → State}
    (ha : q.action s = .write a v k) (hu : ∃ p, u.mode = .busy p) :
    ∃ p i, k u = { u with mode := .busy p, x := { u.x with i := i } } := by
  obtain ⟨hframe, hsock, hdest, i, hx⟩ := write_frame ha u
  obtain ⟨p, hp⟩ := State.exists_mode_of_isBusy (hframe.busy hu)
  exact ⟨p, i, State.eq_of_fields ⟨hframe.cfg, hp, hsock, hframe.fault, hx, hframe.src, hdest, hframe.chip, hframe.port,
    hframe.resets, hframe.answers, hframe.draws, hframe.trace, hframe.responses⟩⟩

/-! ### Ring accesses -/

/-- An address at a ring offset below RING_SIZE lies in the ring (R10, R60). -/
theorem addrPlus_mem_ring {base : Addr} (hbase : base.toNat + 8192 ≤ 65536) {n : Nat} (hn : n < 8192) :
    base.toNat ≤ (addrPlus base n).toNat ∧ (addrPlus base n).toNat < base.toNat + 8192 := by
  rw [addrPlus_toNat, Nat.mod_eq_of_lt (by omega)]
  omega

theorem payloadLoop_issues {n index : Nat} {a b : Addr} {next : SeqStep} {s : State}
    (h : (payloadLoop n index a next s).exchange = some (.busRead b)) : s.x.i.toNat < n ∧ b = a := by
  rw [payloadLoop_exchange] at h
  split at h
  case isTrue hi =>
    split at h
    · exact ⟨hi, (Instr.busRead.inj (Option.some.inj h)).symm⟩
    · simp at h
  case isFalse => simp at h

theorem frameLoop_issues {n index : Nat} {a b : Addr} {v : Byte} {next : SeqStep} {s : State}
    (h : (frameLoop n index a next s).exchange = some (.busWrite b v)) : s.x.i.toNat < n ∧ b = a := by
  rw [frameLoop_exchange] at h
  split at h
  case isTrue hi =>
    obtain ⟨_, -, hb⟩ := Option.map_eq_some_iff.1 h
    exact ⟨hi, (Instr.busWrite.inj hb).1.symm⟩
  case isFalse => simp at h

/-- Both parts of a split run are at ring offsets below RING_SIZE (R154). -/
theorem ringSplit_offsets {off n : Nat} (hoff : off < 8192) (hn : n ≤ 8192) :
    (∀ i < (ringSplit off n).1, off + i < 8192) ∧ ∀ j < (ringSplit off n).2, j < 8192 := by
  obtain ⟨htail, hbase, -⟩ := ringSplit_bounds off n hoff hn
  exact ⟨fun i hi => by omega, fun j hj => by omega⟩

theorem payloadReady.offsets {s : State} (h : payloadReady s) :
    (∀ i < s.x.upper.toNat, s.x.doff.toNat + i < 8192) ∧ ∀ j < s.x.left.toNat, j < 8192 := by
  obtain ⟨-, hlen, -, hupper, hleft⟩ := h
  have hhdr : s.x.hdr.toNat + 2 ≤ 8192 := by simpa [headerTooLong, Config.ringSize, Config.hdrLen] using hlen
  rw [hupper, hleft]
  exact ringSplit_offsets s.x.doff.isLt (by omega)

theorem frameReady.offsets {s : State} (h : frameReady s) :
    (∀ i < s.x.upper.toNat, s.x.off.toNat + i < 8192) ∧ ∀ j < s.x.left.toNat, j < 8192 := by
  obtain ⟨⟨-, hlen⟩, -, -, hupper, hleft⟩ := h
  rw [hupper, hleft]
  exact ringSplit_offsets s.x.off.isLt (by simpa [frameTooLong, Config.ringSize] using hlen)

/-- RECEIVE_FRAME reads its header and its payload at ring offsets below RING_SIZE (R182, R184). -/
theorem receiveFrame_ring_read {s : State} {p : ReceiveStep} {a : Addr} (hok : p.ok s)
    (hp : p ∈ [.hdrHi, .hdrLo, .tail, .base]) (h : (receiveFrameAction p s).exchange = some (.busRead a)) :
    ∃ n < 8192, a = addrPlus s.cfg.rxBase n := by
  simp only [List.mem_cons, List.not_mem_nil, or_false] at hp
  obtain rfl | rfl | rfl | rfl := hp
  · obtain rfl : addrPlus s.cfg.rxBase s.x.off.toNat = a := by simpa [receiveFrameAction, Action.exchange] using h
    exact ⟨_, s.x.off.isLt, rfl⟩
  · simp only [receiveFrameAction, Action.exchange, Option.some.injEq, Instr.busRead.injEq] at h
    split at h
    case isTrue => exact ⟨0, by omega, by rw [addrPlus_zero, h]⟩
    case isFalse hs =>
      have hoff : s.x.off.toNat + 2 ≤ 8192 := by simpa [headerStraddles, Config.ringSize, Config.hdrLen] using hs
      exact ⟨_, by omega, h.symm⟩
  · obtain ⟨-, hready, -⟩ := hok
    obtain ⟨hi, rfl⟩ := payloadLoop_issues h
    exact ⟨_, hready.offsets.1 _ hi, rfl⟩
  · obtain ⟨-, hready, -⟩ := hok
    obtain ⟨hi, rfl⟩ := payloadLoop_issues h
    exact ⟨_, hready.offsets.2 _ hi, rfl⟩

/-- SEND_FRAME writes its data at ring offsets below RING_SIZE (R202). -/
theorem sendFrame_ring_write {s : State} {p : SendStep} {a : Addr} {v : Byte} (hok : p.ok s)
    (hp : p ∈ [.tail, .base]) (h : (sendFrameAction p s).exchange = some (.busWrite a v)) :
    ∃ n < 8192, a = addrPlus s.cfg.txBase n := by
  simp only [List.mem_cons, List.not_mem_nil, or_false] at hp
  obtain rfl | rfl := hp
  · obtain ⟨hready, -⟩ := hok
    obtain ⟨hi, rfl⟩ := frameLoop_issues h
    exact ⟨_, hready.offsets.1 _ hi, rfl⟩
  · obtain ⟨hready, -⟩ := hok
    obtain ⟨hi, rfl⟩ := frameLoop_issues h
    exact ⟨_, hready.offsets.2 _ hi, rfl⟩

/-! ### The obligations: the chip's image and the exchanges -/

/-- Settles O22: a step makes at most one exchange, and the two markers differ, so the image takes exactly what that exchange
stores. -/
theorem chipImageFollowsTheTrace : Obligations.ChipImageFollowsTheTrace := by
  intro s t hwf hs h
  obtain ⟨u, hbus, hcfg, hchip, htrace⟩ := step_bus h
  have htick : ChipMatchesTrace s.tick := hs.congr (by simp) (by simp) (by simp)
  have hc : s.tick.cfg.dirRead ≠ s.tick.cfg.dirWrite := by simpa using (Params.wf_elim hwf).1
  exact (htick.of_busStep hc hbus).congr hcfg hchip htrace

/-- Settles O37: a successful write is performed at the position of the command in progress, whose continuation moves the
position and the loop index only; WRITE_REG's continuation is written out. -/
theorem busWriteCompletes : Obligations.BusWriteCompletes := by
  intro s a v r hissued hr
  obtain ⟨q, k, hm, ha, hexec⟩ := exec_busWrite_of_issued hissued hr
  obtain ⟨p, i, hk⟩ := write_continues ha (u := s.afterBus [.wr a v] [r]) ⟨q, hm⟩
  refine ⟨p, i, hexec.trans (congrArg _ hk), fun hreg => ?_⟩
  obtain rfl : q = .writeReg .xfer := by simpa [hm] using hreg
  obtain ⟨-, -, rfl⟩ := Action.write.inj ha
  exact ⟨(Mode.busy.inj (congrArg State.mode hk)).symm, (congrArg (fun t => t.x.i) hk).symm⟩

/-- Settles O24: the image changes at the address of the issued write only, and a step at which a write is issued is that
write. -/
theorem stepsStoreOnlyTheIssuedWrite : Obligations.StepsStoreOnlyTheIssuedWrite := by
  intro s t h
  refine ⟨fun a ha => ?_, fun a v r hreset hissued hr => ?_⟩
  · obtain ⟨u, hbus, -, hchip, -⟩ := step_bus h
    rw [hchip, hbus.memRead_chip (by simpa using ha), State.tick_chip]
  · obtain ⟨p, i, hexec, -⟩ := busWriteCompletes s.tick a v r (by simpa using hissued) (by simpa using hr)
    have hstep := (stepPerformsTheIssuedExchange s _ hreset hissued).1
    obtain rfl := Host.Outcome.next.inj (h.symm.trans (hstep.trans hexec))
    simp [State.afterBus, chipWrites]

/-- Settles O36: a successful read is performed at the position of the command in progress, whose continuation keeps what the
frame of a read keeps; READ_REG's continuation is written out. -/
theorem busReadCompletes : Obligations.BusReadCompletes := by
  intro s a r hissued hr
  obtain ⟨q, k, hm, ha, hexec⟩ := exec_busRead_of_issued hissued hr
  obtain ⟨hframe, hsock, hdest⟩ := read_frame ha r.r3 (s.afterBus [.rd a] [r])
  refine ⟨_, hexec, hframe.busy ⟨q, hm⟩, hframe.trace, hframe.chip, hframe.answers.trans List.drop_one, hframe.draws,
    hsock, hframe.fault, hframe.responses, hframe.cfg, hframe.port, hframe.src, hframe.resets, fun j => ?_, fun hreg => ?_⟩
  · obtain hdest | ⟨rfl, -, hdest⟩ | ⟨rfl, -, hdest⟩ := hdest <;> rw [hdest]
    · exact .inl rfl
    · exact (memRead_memWrite_cases ..).imp_right fun ⟨hv, hj⟩ => ⟨hv, .inl ⟨hm, hj⟩⟩
    · exact (memRead_memWrite_cases ..).imp_right fun ⟨hv, hj⟩ => ⟨hv, .inr ⟨hm, hj⟩⟩
  · obtain rfl : q = .readReg .xfer := by simpa [hm] using hreg
    obtain ⟨-, rfl⟩ := Action.read.inj ha
    rfl

/-- Settles O59: the rings do not wrap round the address space, and every access is at a ring offset below RING_SIZE. -/
theorem ringAccessesStayInTheirRing : Obligations.RingAccessesStayInTheirRing := by
  intro s hinv
  obtain ⟨-, hrx, htx, -, -⟩ := Params.wf_elim hinv.cfgWf
  refine ⟨fun p a hm hp hissued => ?_, fun p a v hm hp hissued => ?_⟩
  · obtain ⟨-, -, -, hok⟩ := hinv.of_busy hm
    rw [State.issued_of_busy hm] at hissued
    obtain ⟨n, hn, rfl⟩ := receiveFrame_ring_read hok hp hissued
    exact addrPlus_mem_ring hrx hn
  · obtain ⟨-, -, -, hok⟩ := hinv.of_busy hm
    rw [State.issued_of_busy hm] at hissued
    obtain ⟨n, hn, rfl⟩ := sendFrame_ring_write hok hp hissued
    exact addrPlus_mem_ring htx hn

end Sys2Proof.Machine

/-! ## The encodings

What each argument decoder answers is said once, as an `↔` with the bytes it reads; the decoder of host commands then answers
exactly the host commands whose encoding stands in front (`decodeHost_eq_ok_iff`), and both directions of the round trip and the
length of a command are read off it. -/

namespace Sys2Proof

/-! ### The argument decoders -/

@[simp] theorem bytes16_join16 (h l : Byte) : bytes16 (join16 h l) = [h, l] := by simp [bytes16]

theorem decodeU16_eq_ok_iff {f : U16 → Instr} {bs rest : List Byte} {i : Instr} :
    decodeU16 f bs = .ok i rest ↔ ∃ v, i = f v ∧ bs = bytes16 v ++ rest := by
  constructor
  · intro h
    obtain _ | ⟨b, _ | ⟨b', bs⟩⟩ := bs
    · cases h
    · cases h
    · cases h
      exact ⟨_, rfl, by simp⟩
  · rintro ⟨v, rfl, rfl⟩
    simp [bytes16, decodeU16]

theorem decodeWriteReg_eq_ok_iff {bs rest : List Byte} {i : Instr} :
    decodeWriteReg bs = .ok i rest ↔ ∃ a v, i = .writeReg a v ∧ bs = bytes16 a ++ v :: rest := by
  constructor
  · intro h
    obtain _ | ⟨b, _ | ⟨b', _ | ⟨d, bs⟩⟩⟩ := bs
    · cases h
    · cases h
    · cases h
    · cases h
      exact ⟨_, _, rfl, by simp⟩
  · rintro ⟨a, v, rfl, rfl⟩
    simp [bytes16, decodeWriteReg]

theorem Bytes4.take_eq_some_iff {bs : List Byte} {p : Bytes4 × List Byte} :
    Bytes4.take bs = some p ↔ bs = p.1.toList ++ p.2 := by
  constructor
  · intro h
    obtain _ | ⟨a, _ | ⟨b, _ | ⟨c, _ | ⟨d, bs⟩⟩⟩⟩ := bs <;> cases h
    rfl
  · rintro rfl
    rfl

theorem Bytes6.take_eq_some_iff {bs : List Byte} {p : Bytes6 × List Byte} :
    Bytes6.take bs = some p ↔ bs = p.1.toList ++ p.2 := by
  constructor
  · intro h
    obtain _ | ⟨a, _ | ⟨b, _ | ⟨c, _ | ⟨d, _ | ⟨e, _ | ⟨f, bs⟩⟩⟩⟩⟩⟩ := bs <;> cases h
    rfl
  · rintro rfl
    rfl

theorem configureArgs_eq_some_iff {bs rest : List Byte} {i : Instr} :
    configureArgs bs = some (i, rest) ↔ ∃ mac ip gw sn, i = .configure mac ip gw sn ∧
      bs = mac.toList ++ ip.toList ++ gw.toList ++ sn.toList ++ rest := by
  simp only [configureArgs, Option.bind_eq_some_iff, Option.map_eq_some_iff, Bytes6.take_eq_some_iff,
    Bytes4.take_eq_some_iff]
  constructor
  · rintro ⟨mac, rfl, ip, hip, gw, hgw, sn, hsn, heq⟩
    cases heq
    exact ⟨mac.1, ip.1, gw.1, sn.1, rfl, by simp [hip, hgw, hsn]⟩
  · rintro ⟨mac, ip, gw, sn, rfl, rfl⟩
    exact ⟨(mac, _), by simp only [List.append_assoc], (ip, _), rfl, (gw, _), rfl, (sn, _), rfl, rfl⟩

theorem decodeConfigure_eq_ok_iff {bs rest : List Byte} {i : Instr} :
    decodeConfigure bs = .ok i rest ↔ ∃ mac ip gw sn, i = .configure mac ip gw sn ∧
      bs = mac.toList ++ ip.toList ++ gw.toList ++ sn.toList ++ rest := by
  rw [← configureArgs_eq_some_iff, decodeConfigure]
  cases configureArgs bs with
  | none => simp
  | some p => simp [Prod.ext_iff]

theorem decodeSendFrame_eq_ok_iff {bs rest : List Byte} {i : Instr} :
    decodeSendFrame bs = .ok i rest ↔ ∃ len data, i = .sendFrame len data ∧ data.length = len.toNat ∧
      bs = bytes16 len ++ data ++ rest := by
  constructor
  · intro h
    obtain _ | ⟨b, _ | ⟨b', bs⟩⟩ := bs
    · cases h
    · cases h
    · by_cases hlen : bs.length < (join16 b b').toNat
      · rw [decodeSendFrame, if_pos hlen] at h
        cases h
      · rw [decodeSendFrame, if_neg hlen] at h
        cases h
        exact ⟨_, _, rfl, List.length_take_of_le (Nat.le_of_not_lt hlen), by simp⟩
  · rintro ⟨len, data, rfl, hlen, rfl⟩
    simp [bytes16, decodeSendFrame, ← hlen]

theorem decodeRingRead_eq_ok_iff {bs rest : List Byte} {i : Instr} :
    decodeRingRead bs = .ok i rest ↔ ∃ sel, i = .ringRead sel ∧ bs = sel :: rest := by
  cases bs with
  | nil => simp [decodeRingRead]
  | cons sel bs => simp [decodeRingRead, eq_comm]

theorem decodeRingWrite_eq_ok_iff {bs rest : List Byte} {i : Instr} :
    decodeRingWrite bs = .ok i rest ↔ ∃ sel val, i = .ringWrite sel val ∧ bs = sel :: (bytes16 val ++ rest) := by
  constructor
  · intro h
    obtain _ | ⟨sel, _ | ⟨b, _ | ⟨b', bs⟩⟩⟩ := bs
    · cases h
    · cases h
    · cases h
    · cases h
      exact ⟨_, _, rfl, by simp⟩
  · rintro ⟨sel, val, rfl, rfl⟩
    simp [bytes16, decodeRingWrite]

/-! ### The decoder of host commands -/

/-- SEND_FRAME carries exactly LEN bytes (R77); every other instruction has fields of fixed size. Weaker than `Instr.wf`, since
the decoder takes any selector byte (log 24). -/
def Instr.CarriesLen (i : Instr) : Prop := ∀ len data, i = .sendFrame len data → data.length = len.toNat

theorem Instr.carriesLen_of_wf {i : Instr} (h : i.wf = true) : i.CarriesLen := by
  rintro len data rfl
  exact beq_iff_eq.1 h

/-- The encoding of a host command in front decodes to it, argument decoder by argument decoder. -/
theorem decodeHost_encode_append (c : Params) {i : Instr} (rest : List Byte) (hi : i.isExchange = false)
    (hlen : i.CarriesLen) : decodeHost (encode c i ++ rest) = .ok i rest := by
  cases i with
  | busRead | busWrite => cases hi
  | readReg a => exact decodeU16_eq_ok_iff.2 ⟨a, rfl, rfl⟩
  | writeReg a v => exact decodeWriteReg_eq_ok_iff.2 ⟨a, v, rfl, rfl⟩
  | configure mac ip gw sn => exact decodeConfigure_eq_ok_iff.2 ⟨mac, ip, gw, sn, rfl, rfl⟩
  | disableEcho | getMac | getIp | getGateway | getSubnet | enableRaw | frameAvailable => rfl
  | receiveFrame cap => exact decodeU16_eq_ok_iff.2 ⟨cap, rfl, rfl⟩
  | sendFrame len data => exact decodeSendFrame_eq_ok_iff.2 ⟨len, data, rfl, hlen len data rfl, rfl⟩
  | ringRead sel => exact decodeRingRead_eq_ok_iff.2 ⟨sel, rfl, rfl⟩
  | ringWrite sel val => exact decodeRingWrite_eq_ok_iff.2 ⟨sel, val, rfl, rfl⟩

/-- Bytes that decode are the encoding of their command, opcode by opcode of R77's table. -/
theorem eq_encode_append_of_decodeHost (c : Params) {bs rest : List Byte} {i : Instr}
    (h : decodeHost bs = .ok i rest) : bs = encode c i ++ rest := by
  obtain _ | ⟨op, args⟩ := bs
  · cases h
  by_cases hop : op ∈ legalOpcodes
  · simp only [legalOpcodes, List.mem_cons, List.not_mem_nil, or_false] at hop
    obtain rfl | rfl | rfl | rfl | rfl | rfl | rfl | rfl | rfl | rfl | rfl | rfl | rfl | rfl := hop
    · obtain ⟨a, rfl, rfl⟩ := (decodeU16_eq_ok_iff (f := .readReg)).1 h; rfl
    · obtain ⟨a, v, rfl, rfl⟩ := decodeWriteReg_eq_ok_iff.1 h; rfl
    · obtain ⟨mac, ip, gw, sn, rfl, rfl⟩ := decodeConfigure_eq_ok_iff.1 h; rfl
    iterate 7
      · cases h; rfl
    · obtain ⟨cap, rfl, rfl⟩ := (decodeU16_eq_ok_iff (f := .receiveFrame)).1 h; rfl
    · obtain ⟨len, data, rfl, -, rfl⟩ := decodeSendFrame_eq_ok_iff.1 h; rfl
    · obtain ⟨sel, rfl, rfl⟩ := decodeRingRead_eq_ok_iff.1 h; rfl
    · obtain ⟨sel, val, rfl, rfl⟩ := decodeRingWrite_eq_ok_iff.1 h; rfl
  · rw [decodeHost_illegal hop] at h
    cases h

/-- The decoder of host commands answers exactly the host commands whose encoding stands in front (R76, R77). -/
theorem decodeHost_eq_ok_iff (c : Params) {bs rest : List Byte} {i : Instr} :
    decodeHost bs = .ok i rest ↔ bs = encode c i ++ rest ∧ i.isExchange = false ∧ i.CarriesLen := by
  constructor
  · intro h
    exact ⟨eq_encode_append_of_decodeHost c h, decodeHost_isHost h, fun len data hi => decodeHost_sendFrame (hi ▸ h)⟩
  · rintro ⟨rfl, hi, hlen⟩
    exact decodeHost_encode_append c rest hi hlen

/-! ### The length of a command -/

/-- The length that R80 computes is that of the encoding, for every selector byte. -/
theorem commandLength_encode_append (c : Params) {i : Instr} (rest : List Byte) (hi : i.isExchange = false)
    (hlen : i.CarriesLen) : commandLength (encode c i ++ rest) = (encode c i).length := by
  cases i with
  | busRead | busWrite => cases hi
  | sendFrame len data => exact Laws.CommandLength.sendFrame len data (beq_iff_eq.2 (hlen len data rfl)) hi c rest
  | _ => rfl

theorem length_eq_commandLength_add {bs rest : List Byte} {i : Instr} (h : decodeHost bs = .ok i rest) :
    bs.length = commandLength bs + rest.length := by
  obtain ⟨rfl, hi, hlen⟩ := (decodeHost_eq_ok_iff Params.default).1 h
  rw [commandLength_encode_append _ _ hi hlen, List.length_append]

theorem commandLength_cons_congr {op : Byte} (hop : op ≠ opSendFrame) (as bs : List Byte) :
    commandLength (op :: as) = commandLength (op :: bs) := by
  simp [commandLength, hop]

theorem commandLength_illegal {op : Byte} (hop : op ∉ legalOpcodes) (rest : List Byte) :
    commandLength (op :: rest) = 1 := by
  simp only [legalOpcodes, List.mem_cons, List.not_mem_nil, or_false, not_or] at hop
  simp [commandLength, hop]

theorem decodeHost_eq_illegalOpcode_iff {op : Byte} {rest : List Byte} :
    decodeHost (op :: rest) = .error (.illegalOpcode op) ↔ op ∉ legalOpcodes :=
  ⟨fun h => (decodeHost_error h).2, fun h => decodeHost_illegal h rest⟩

/-- The opcode map by number (R77). -/
theorem toNat_mem_opcodes_iff (op : Byte) :
    op.toNat ∈ [0x01, 0x02, 0x10, 0x11, 0x12, 0x13, 0x14, 0x15, 0x20, 0x21, 0x22, 0x23, 0x30, 0x31] ↔
      op ∈ legalOpcodes :=
  List.mem_map_of_injective (l := legalOpcodes) fun _ _ => BitVec.eq_of_toNat_eq

/-! ### Bus exchanges -/

theorem decodeExchange_encode_busRead (c : Params) (a : Addr) (rest : List Byte) :
    decodeExchange c (encode c (.busRead a) ++ rest) = .ok (.busRead a) rest := by
  simp [encode, Instr.firstByte, Instr.fieldBytes, bytes16, decodeExchange]

theorem decodeExchange_encode_busWrite {c : Params} (h : c.dirRead ≠ c.dirWrite) (a : Addr) (v : Byte)
    (rest : List Byte) : decodeExchange c (encode c (.busWrite a v) ++ rest) = .ok (.busWrite a v) rest := by
  simp [encode, Instr.firstByte, Instr.fieldBytes, bytes16, decodeExchange, h.symm]

/-- The 32-bit view of four bytes whose middle two are those of a 16-bit field (R70, R75). -/
theorem append_hiByte_loByte (m : Byte) (a : Addr) (v : Byte) :
    (m ++ hiByte a ++ loByte a ++ v : BitVec 32) = (m ++ a ++ v : BitVec 32) := by
  have h : m ++ hiByte a ++ loByte a = m ++ a := by
    rw [← join16_hiByte_loByte a, hiByte_join16, loByte_join16, join16]
    exact BitVec.append_assoc
  rw [h]

/-- A mask of whole bytes looks at the marker and at the last byte. -/
theorem append_and_mask (m : Byte) (a : Addr) (v hi lo : Byte) :
    ((m ++ a ++ v : BitVec 32) &&& (hi ++ 0#16 ++ lo : BitVec 32)) = ((m &&& hi) ++ 0#16 ++ (v &&& lo) : BitVec 32) := by
  have h : (m ++ a) &&& (hi ++ 0#16) = (m &&& hi) ++ 0#16 := by rw [BitVec.and_append, BitVec.and_zero]
  exact BitVec.and_append.trans (by rw [h])

end Sys2Proof

namespace Sys2Proof.Machine

/-! ### The obligations: encodings -/

/-- Settles O1: the encoding in front is what the decoder of host commands answers. -/
theorem hostCommandsRoundTrip : Obligations.HostCommandsRoundTrip :=
  fun c _ rest hwf hi => decodeHost_encode_append c rest hi (Instr.carriesLen_of_wf hwf)

/-- Settles O3, by the other direction of the same equivalence. -/
theorem decodedBytesAreTheEncoding : Obligations.DecodedBytesAreTheEncoding :=
  fun c _ _ _ h => (decodeHost_eq_ok_iff c).1 h

/-- Settles O2: the marker tells the two forms apart, since R10 has the two markers differ. -/
theorem busExchangesRoundTrip : Obligations.BusExchangesRoundTrip := by
  intro c i rest hwf hi
  cases i with
  | busRead a => exact decodeExchange_encode_busRead c a rest
  | busWrite a v => exact decodeExchange_encode_busWrite (Params.wf_elim hwf).1 a v rest
  | _ => cases hi

/-- Settles O4: what decodes is an encoding, whose length byte 0 gives, or LEN for SEND_FRAME. -/
theorem commandLengthFollowsFromByteZero : Obligations.CommandLengthFollowsFromByteZero := by
  refine ⟨fun bs i rest h => length_eq_commandLength_add h, fun op as bs hop => commandLength_cons_congr hop as bs,
    fun h l rest => rfl, fun op rest hop => ⟨commandLength_illegal hop rest, decodeHost_illegal hop rest⟩, rfl⟩

/-- Settles O5. -/
theorem illegalOpcodesAreRejected : Obligations.IllegalOpcodesAreRejected := by
  intro op rest
  rw [decodeHost_eq_illegalOpcode_iff, toNat_mem_opcodes_iff]

/-- Settles O6, by evaluating the decoders. -/
theorem specWordsDecode : Obligations.SpecWordsDecode := by
  unfold Obligations.SpecWordsDecode
  decide

/-- Settles O7: the middle two bytes are the address, and the masks look at the other two. -/
theorem exchangeFormsMatchTheirPatterns : Obligations.ExchangeFormsMatchTheirPatterns := by
  refine ⟨fun c a v => ⟨append_hiByte_loByte .., append_hiByte_loByte ..⟩, fun a v => ⟨?_, ?_⟩⟩
  · exact append_and_mask 0x0F#8 a 0x00#8 0xFF#8 0xFF#8
  · refine (append_and_mask 0xF0#8 a v 0xFF#8 0x00#8).trans ?_
    rw [BitVec.and_zero]
    rfl

/-- Settles O8, each clause by `Response.encode`. -/
theorem responsesAreEncoded : Obligations.ResponsesAreEncoded :=
  ⟨rfl, fun _ => rfl, fun _ => rfl, rfl, rfl, fun _ => rfl, fun _ => rfl, fun _ _ => rfl, fun _ => rfl⟩

/-- Settles O9, each clause by `Pseudo.expand`. -/
theorem pseudoInstructionsExpand : Obligations.PseudoInstructionsExpand :=
  fun _ _ _ _ => ⟨rfl, rfl, rfl, rfl, rfl⟩

end Sys2Proof.Machine

/-! ## Ring commands

An illegal opcode or selector is refused at acceptance. The two exchanges of Read16 and of Write16 (R104, R105) in the middle of
a command are said once, for every command that makes them; RING_READ and RING_WRITE make one such pair each. -/

namespace Sys2Proof.Machine

/-! ### Selectors -/

theorem readPair_eq_none_iff {sel : Byte} : readPair sel = none ↔ 5 < sel.toNat := by
  rw [← Option.not_isSome_iff_eq_none, readPair, ringPair_isSome, legalReadSelector, decide_eq_true_iff, not_le]

theorem writePair_eq_none_iff {sel : Byte} : writePair sel = none ↔ sel.toNat ≠ 1 ∧ sel.toNat ≠ 5 := by
  rw [← Option.not_isSome_iff_eq_none, writePair_isSome, legalWriteSelector]
  simp

theorem selector_eq_ofNat {sel : Byte} {k : Nat} (h : sel.toNat = k) : sel = BitVec.ofNat 8 k := by
  rw [← h, BitVec.ofNat_toNat, BitVec.setWidth_eq]

/-- The register pair that each selector names to RING_READ (R78). -/
theorem exists_readPair_of_selector {c : Params} {sel : Byte} {a : Addr}
    (h : (sel.toNat, a) ∈ [(0, c.addrS0RxRsr), (1, c.addrS0RxRd), (2, c.addrS0RxWr), (3, c.addrS0TxFsr),
      (4, c.addrS0TxRd), (5, c.addrS0TxWr)]) : ∃ r, readPair sel = some r ∧ r.address c = a := by
  simp only [List.mem_cons, Prod.mk.injEq, List.not_mem_nil, or_false] at h
  obtain ⟨h, rfl⟩ | ⟨h, rfl⟩ | ⟨h, rfl⟩ | ⟨h, rfl⟩ | ⟨h, rfl⟩ | ⟨h, rfl⟩ := h <;> rw [selector_eq_ofNat h]
  · exact ⟨.rxRsr, rfl, rfl⟩
  · exact ⟨.rxRd, rfl, rfl⟩
  · exact ⟨.rxWr, rfl, rfl⟩
  · exact ⟨.txFsr, rfl, rfl⟩
  · exact ⟨.txRd, rfl, rfl⟩
  · exact ⟨.txWr, rfl, rfl⟩

/-- The pointer that each selector names to RING_WRITE (R78). -/
theorem exists_writePair_of_selector {c : Params} {sel : Byte} {a : Addr}
    (h : (sel.toNat, a) ∈ [(1, c.addrS0RxRd), (5, c.addrS0TxWr)]) :
    ∃ r, writePair sel = some r ∧ r.address c = a := by
  simp only [List.mem_cons, Prod.mk.injEq, List.not_mem_nil, or_false] at h
  obtain ⟨h, rfl⟩ | ⟨h, rfl⟩ := h <;> rw [selector_eq_ofNat h]
  · exact ⟨.rxRd, rfl, rfl⟩
  · exact ⟨.txWr, rfl, rfl⟩

/-! ### Acceptance of the ring commands -/

theorem ringReadAccepted_of_none {sel : Byte} (h : readPair sel = none) (s : State) :
    ringReadAccepted sel s =
      (s.setRegs fun x => { x with cmd := opRingRead, sel := sel }).raise .illegalCommand (join16 opRingRead sel) := by
  simp only [ringReadAccepted, h]
  rfl

theorem ringWriteAccepted_of_none {sel : Byte} (h : writePair sel = none) (val : U16) (s : State) :
    ringWriteAccepted sel val s =
      (s.setRegs fun x => { x with cmd := opRingWrite, sel := sel, val := val }).raise .illegalCommand
        (join16 opRingWrite sel) := by
  simp only [ringWriteAccepted, h]
  rfl

/-- Acceptance stands at the start of a command, before any exchange. -/
theorem State.accept_eq_midway (s : State) (op : Byte) (latch : Regs → Regs) (p : SeqStep) :
    s.accept op latch p = s.midway p (latch { s.x with cmd := op }) [] [] s.dest s.src := by
  apply State.eq_of_fields
  simp [State.midway, State.afterBus, busTrace, chipWrites]

/-- The response that ends a command leaves its exchanges, its registers and its buffers. -/
theorem State.respond_midway {s : State} {p : SeqStep} {x : Regs} {ops : List BusOp} {rs : List Reply} {dest : Memory}
    {src : List Byte} {r : Response} (hm : s.mode = .idle) :
    (s.midway p x ops rs dest src).respond r =
      { s.afterBus ops rs with x := x, dest := dest, src := src, responses := s.responses ++ [r] } := by
  apply State.eq_of_fields
  simp [State.midway, hm]

/-! ### Read16 and Write16 in the middle of a command -/

section
variable {s : State} {i : Instr} {p p' : SeqStep} {x : Regs} {ops : List BusOp} {rs rest : List Reply}
  {dest : Memory} {src : List Byte} {r : Reply} {a : Addr} {v : U16}
  (hr : s.repliesWith (rs ++ r :: rest)) (hl : ops.length = rs.length)
  (hi : p.instr (s.midway p x ops rs dest src) = i)
include hr hl hi

/-- The first exchange of Read16 keeps the high byte (R104). -/
theorem Continues.readHi (ha : p.action (s.midway p x ops rs dest src) = readHi a p') :
    Continues i 1 (s.midway p x ops rs dest src)
      (s.midway p' { x with hi16 := r.r3 } (ops ++ [.rd a]) (rs ++ [r]) dest src) :=
  .read hr hl hi ha fun u hu => by rw [← hu]; rfl

/-- The second exchange of Read16 stores the value (R104). -/
theorem Continues.readLo {f : U16 → Regs → Regs} (ha : p.action (s.midway p x ops rs dest src) = readLo a f p') :
    Continues i 1 (s.midway p x ops rs dest src)
      (s.midway p' (f (join16 x.hi16 r.r3) x) (ops ++ [.rd (addrPlus a 1)]) (rs ++ [r]) dest src) :=
  .read hr hl hi ha fun u hu => by rw [← hu]; rfl

/-- The first exchange of Write16 (R105). -/
theorem Continues.writeHi (ha : p.action (s.midway p x ops rs dest src) = writeHi a v p') :
    Continues i 1 (s.midway p x ops rs dest src)
      (s.midway p' x (ops ++ [.wr a (hiByte v)]) (rs ++ [r]) dest src) :=
  .write hr hl hi ha fun u hu => by rw [← hu]; rfl

/-- The second exchange of Write16 (R105). -/
theorem Continues.writeLo (ha : p.action (s.midway p x ops rs dest src) = writeLo a v p') :
    Continues i 1 (s.midway p x ops rs dest src)
      (s.midway p' x (ops ++ [.wr (addrPlus a 1) (loByte v)]) (rs ++ [r]) dest src) :=
  .write hr hl hi ha fun u hu => by rw [← hu]; rfl

end

/-! ### The procedures of the ring commands -/

theorem ringReadAction_hi {s : State} {pair : RingPair} (h : readPair s.x.sel = some pair) :
    ringReadAction .hi s = readHi (pair.address s.cfg) (.ringRead .lo) := by
  simp only [ringReadAction, h]

theorem ringReadAction_lo {s : State} {pair : RingPair} (h : readPair s.x.sel = some pair) :
    ringReadAction .lo s = readLo (pair.address s.cfg) (fun v x => { x with val := v }) (.ringRead .respond) := by
  simp only [ringReadAction, h]

theorem ringWriteAction_hi {s : State} {pair : RingPair} (h : writePair s.x.sel = some pair) :
    ringWriteAction .hi s = writeHi (pair.address s.cfg) s.x.val (.ringWrite .lo) := by
  simp only [ringWriteAction, h]

theorem ringWriteAction_lo {s : State} {pair : RingPair} (h : writePair s.x.sel = some pair) :
    ringWriteAction .lo s = writeLo (pair.address s.cfg) s.x.val (.ringWrite .respond) := by
  simp only [ringWriteAction, h]

/-! ### The obligations: the ring commands -/

/-- Settles O30: the decoder rejects the opcode, or the selector names no pair for the command. -/
theorem illegalCommandsFault : Obligations.IllegalCommandsFault := by
  refine ⟨fun s op rest hm hr hp hop => ?_, fun s sel hm hsel => ?_, fun s sel val hm hsel => ?_⟩
  · have hb : s.isBusy = false := by rw [State.isBusy, hm]
    have hd : decodeHost s.tick.port = .error (.illegalOpcode op) := by
      rw [State.tick_port, hp]
      exact decodeHost_illegal hop rest
    rw [step_of_not_busy hr hb, takeCommand_of_illegal hd]
    simp [State.acceptIllegal, hm, hp, State.setRegs, State.raise, BlockFault.code]
  · have hnone : readPair sel = none := readPair_eq_none_iff.2 (by simp at hsel; omega)
    rw [exec_idle hm rfl, acceptedState, ringReadAccepted_of_none hnone]
    rfl
  · have hnone : writePair sel = none := writePair_eq_none_iff.2 (by simpa using hsel)
    rw [exec_idle hm rfl, acceptedState, ringWriteAccepted_of_none hnone]
    rfl

/-- Settles O47: acceptance, Read16 of the pair that the selector names, and the response. -/
theorem ringReadCompletes : Obligations.RingReadCompletes := by
  intro s sel a h l hm ha hr
  obtain ⟨pair, hpair, rfl⟩ := exists_readPair_of_selector ha
  have hsel : sel.toNat ≤ 5 := not_lt.1 (readPair_eq_none_iff.not.1 (by simp [hpair]))
  have haccept : exec (.ringRead sel) s = .next (s.midway (.ringRead .hi)
      { s.x with cmd := opRingRead, sel := sel } [] [] s.dest s.src) := by
    rw [exec_idle hm rfl, acceptedState, ringReadAccepted_of_le hsel, State.accept_eq_midway]
  refine .cons haccept rfl (Continues.completes (n := 1) (m := 1) (.readHi hr rfl rfl (ringReadAction_hi hpair)) ?_)
  refine Continues.completes (n := 1) (m := 0)
    (.readLo (p := .ringRead .lo) (f := fun v x => { x with val := v }) hr rfl rfl (ringReadAction_lo hpair)) ?_
  exact .last (exec_respond (.ringRead .respond) rfl rfl rfl) (State.respond_midway hm) rfl

/-- Settles O48: acceptance, Write16 to the pointer that the selector names, and the response. -/
theorem ringWriteCompletes : Obligations.RingWriteCompletes := by
  intro s sel val a h l hm ha hr
  obtain ⟨pair, hpair, rfl⟩ := exists_writePair_of_selector ha
  have hsel : sel.toNat = 1 ∨ sel.toNat = 5 := by
    by_contra hsel
    rw [writePair_eq_none_iff.2 (not_or.1 hsel)] at hpair
    cases hpair
  have haccept : exec (.ringWrite sel val) s = .next (s.midway (.ringWrite .hi)
      { s.x with cmd := opRingWrite, sel := sel, val := val } [] [] s.dest s.src) := by
    rw [exec_idle hm rfl, acceptedState, ringWriteAccepted_of_pointer hsel, State.accept_eq_midway]
  refine .cons haccept rfl (Continues.completes (n := 1) (m := 1) (.writeHi hr rfl rfl (ringWriteAction_hi hpair)) ?_)
  refine Continues.completes (n := 1) (m := 0) (.writeLo hr rfl rfl (ringWriteAction_lo hpair)) ?_
  exact .last (exec_respond (.ringWrite .respond) rfl rfl rfl) (State.respond_midway hm) rfl

end Sys2Proof.Machine


/-! ## Transport commands

A failed exchange ends the command that issued it (O29), and acceptance refuses frame commands before any exchange (O31,
O32). The loops ReadSeq and WriteSeq (R106, R107) in the middle of a command are said once, for every command that runs them:
each of the four read-back commands is one ReadSeq (O44), and CONFIGURE is four WriteSeqs after the software reset (O40).
FRAME_AVAILABLE is one Read16 (O46). -/

namespace Sys2Proof

/-- `RB[k] <- v0`, `RB[k + 1] <- v1`, and so on: what the reads of ReadSeq leave in RB (R106). -/
def Bytes6.putList : Bytes6 → Nat → List Byte → Bytes6
  | b, _, [] => b
  | b, k, v :: vs => (b.put k v).putList (k + 1) vs

end Sys2Proof

namespace Sys2Proof.Machine

/-! ### A failed exchange -/

/-- BUS_READ that is issued and fails (R101, R222). -/
theorem exec_busRead_fails {s : State} {a : Addr} {b : Bool} (h : s.issued = some (.busRead a))
    (hb : s.nextAnswer = .fail b) :
    exec (.busRead a) s = .next ((s.exchanged (readFrame s.cfg a)).raise .busFault a) := by
  obtain ⟨q, -, hex, hexec⟩ := exec_issued h
  obtain ⟨k, hk⟩ := Action.eq_read_of_exchange hex
  rw [hexec, hk, perform, busRead_fail hb]

/-- BUS_WRITE that is issued and fails, stored or not (R101, R222). -/
theorem exec_busWrite_fails {s : State} {a : Addr} {v : Byte} {b : Bool} (h : s.issued = some (.busWrite a v))
    (hb : s.nextAnswer = .fail b) :
    exec (.busWrite a v) s = .next ((if b then (s.exchanged (writeFrame s.cfg a v)).storeChip a v
      else s.exchanged (writeFrame s.cfg a v)).raise .busFault a) := by
  obtain ⟨q, -, hex, hexec⟩ := exec_issued h
  obtain ⟨k, hk⟩ := Action.eq_write_of_exchange hex
  rw [hexec, hk, perform, busWrite_fail hb]

/-! ### Acceptance of the frame commands -/

theorem State.requireOpen_accept_of_closed {s : State} (hs : s.sock = .closed) (op : Byte) {l : Regs → Regs}
    (hl : ∀ x, (l x).cmd = x.cmd) (p : SeqStep) :
    (s.accept op l p).requireOpen = (s.accept op l p).raise .socketNotOpen (join16 0x00#8 op) := by
  rw [State.requireOpen_of_closed (by exact hs), State.accept_x, hl]

theorem sendFrameAccepted_of_closed {s : State} (hs : s.sock = .closed) (len : U16) (data : List Byte) :
    sendFrameAccepted len data s =
      ({ s with src := data }.accept opSendFrame (fun x => { x with len := len }) (.sendFrame .fsrHi)).raise
        .socketNotOpen (join16 0x00#8 opSendFrame) := by
  have hclosed := State.requireOpen_accept_of_closed (s := { s with src := data }) hs opSendFrame
    (l := fun x => { x with len := len }) (fun _ => rfl) (.sendFrame .fsrHi)
  simpa only [sendFrameAccepted, State.accept_sock, hs] using hclosed

theorem sendFrameAccepted_of_gt {s : State} {len : U16} (hs : s.sock = .opened) (h : len.toNat > 8192)
    (data : List Byte) :
    sendFrameAccepted len data s =
      ({ s with src := data }.accept opSendFrame (fun x => { x with len := len }) (.sendFrame .fsrHi)).raise
        .txLength len := by
  have hlong : frameTooLong len = true := by simpa [frameTooLong, Config.ringSize] using h
  simp only [sendFrameAccepted, State.accept_sock, State.accept_x, hs, if_pos hlong]

/-! ### One pass of ReadSeq and of WriteSeq -/

/-- The loop index I holds every count below its range (R24). -/
theorem index_toNat {k : Nat} (h : k < 131072) : (BitVec.ofNat 17 k).toNat = k := by
  rw [BitVec.toNat_ofNat, Nat.mod_eq_of_lt h]

section
variable {s : State} {k n : Nat} (hk : s.x.i.toNat = k) (a : Addr) (next : SeqStep)
include hk

theorem readSeq_of_lt (h : k < n) :
    readSeq a n next s = .read (addrPlus a k) fun v t =>
      (t.setRegs fun x => { x with rb := x.rb.put x.i.toNat v }).bump := by
  subst hk; exact if_pos h

theorem readSeq_of_le (h : n ≤ k) : readSeq a n next s = .compute (s.enter next) := by
  subst hk; exact if_neg h.not_gt

theorem writeSeq_of_lt (byte : Nat → Byte) (h : k < n) :
    writeSeq a n byte next s = .write (addrPlus a k) (byte k) fun t => t.bump := by
  subst hk; exact if_pos h

theorem writeSeq_of_le (byte : Nat → Byte) (h : n ≤ k) :
    writeSeq a n byte next s = .compute (s.enter next) := by
  subst hk; exact if_neg h.not_gt

end

/-! ### ReadSeq and WriteSeq in the middle of a command -/

section
variable {s : State} {i : Instr} {p next : SeqStep} {a : Addr} {x : Regs} {ops : List BusOp} {rs qs : List Reply}
  {dest : Memory} {src : List Byte}

theorem State.repliesWith.of_append (h : s.repliesWith (rs ++ qs)) : s.repliesWith rs :=
  (State.repliesWith_append.1 h).1

theorem State.midway_cfg : (s.midway p x ops rs dest src).cfg = s.cfg := rfl

/-- The response that ends a command which has set SOCK and has kept SRC and DEST. -/
theorem State.respond_midway_setSock {k : Sock} {r : Response} (hm : s.mode = .idle) :
    ((s.setSock k).midway p x ops rs s.dest s.src).respond r =
      { s.afterBus ops rs with sock := k, x := x, responses := s.responses ++ [r] } :=
  State.respond_midway (s := s.setSock k) hm

/-- A read exchange that succeeds and leaves the command at its position, as the passes of a loop do. -/
theorem Continues.read_in_place {k : Byte → State → State} {r : Reply} {x' : Regs}
    (hr : s.repliesWith (rs ++ r :: qs)) (hl : ops.length = rs.length)
    (hi : p.instr (s.midway p x ops rs dest src) = i) (ha : p.action (s.midway p x ops rs dest src) = .read a k)
    (hk : ∀ u : State, u.x = x → k r.r3 u = { u with x := x' }) :
    Continues i 1 (s.midway p x ops rs dest src) (s.midway p x' (ops ++ [.rd a]) (rs ++ [r]) dest src) := by
  have h0 : (s.midway p x ops rs dest src).upcoming 0 = r.answer := State.repliesWith_midway hr 0 r rfl
  have he := exec_read p rfl hi ha h0
  rw [State.exchanged_read a h0, State.midway_afterBus _ _ hl, hk _ rfl] at he
  exact Continues.one he rfl

/-- The reads of ReadSeq from byte `k` on, `qs` being the replies still to come (R106). -/
theorem Continues.readSeq_from {k n : Nat} (hn : n < 131072) (hi : ∀ u : State, p.instr u = i)
    (ha : ∀ u : State, u.cfg = s.cfg → p.action u = readSeq a n next u) (hx : x.i = BitVec.ofNat 17 k)
    (hkn : k + qs.length = n) (hl : ops.length = rs.length) (hr : s.repliesWith (rs ++ qs)) :
    Continues i qs.length (s.midway p x ops rs dest src)
      (s.midway p { x with rb := x.rb.putList k (qs.map (·.r3)), i := BitVec.ofNat 17 n }
        (ops ++ (List.range' k qs.length).map fun j => .rd (addrPlus a j)) (rs ++ qs) dest src) := by
  induction qs generalizing k x ops rs with
  | nil =>
    obtain rfl : k = n := hkn
    simp [Continues, Bytes6.putList, ← hx]
  | cons q qs ih =>
    rw [List.length_cons] at hkn
    have hk : x.i.toNat = k := by rw [hx, index_toNat (by omega)]
    have hpass : Continues i 1 (s.midway p x ops rs dest src)
        (s.midway p { x with rb := x.rb.put k q.r3, i := BitVec.ofNat 17 (k + 1) }
          (ops ++ [.rd (addrPlus a k)]) (rs ++ [q]) dest src) := by
      refine .read_in_place hr hl (hi _) ((ha _ State.midway_cfg).trans (readSeq_of_lt hk a next (by omega)))
        fun u hu => ?_
      rw [State.bump_eq, State.setRegs, State.setRegs, hu, hk, hx, BitVec.ofNat_add]
    have hrest := ih (x := { x with rb := x.rb.put k q.r3, i := BitVec.ofNat 17 (k + 1) })
      (ops := ops ++ [.rd (addrPlus a k)]) (rs := rs ++ [q]) rfl (by omega) (by simp [hl]) (by simpa using hr)
    have hrun := hpass.append hrest
    simpa [Nat.add_comm, List.range'_succ, Bytes6.putList] using hrun

/-- ReadSeq of as many bytes as there are replies, into RB from its byte 0 on; leaving it sets I to 0 (R106, log 28). -/
theorem Continues.readSeq (hn : qs.length < 131072) (hi : ∀ u : State, p.instr u = i)
    (ha : ∀ u : State, u.cfg = s.cfg → p.action u = readSeq a qs.length next u)
    (hx : x.i = 0#17) (hl : ops.length = rs.length) (hr : s.repliesWith (rs ++ qs)) :
    Continues i (qs.length + 1) (s.midway p x ops rs dest src)
      (s.midway next { x with rb := x.rb.putList 0 (qs.map (·.r3)), i := 0#17 }
        (ops ++ (List.range qs.length).map fun j => .rd (addrPlus a j)) (rs ++ qs) dest src) := by
  rw [List.range_eq_range']
  exact (Continues.readSeq_from hn hi ha hx (Nat.zero_add _) hl hr).append
    (.compute (hi _) ((ha _ State.midway_cfg).trans (readSeq_of_le (index_toNat hn) a next le_rfl)))

/-- WriteSeq of the bytes `bs`, entered with I = 0, which leaving it restores (R107, log 28). -/
theorem Continues.writeSeq {bs : List Byte} (hn : bs.length < 131072) (hq : bs.length = qs.length)
    (hi : ∀ (u : State) (j : BitVec 17), u.x = { x with i := j } → p.instr u = i)
    (ha : ∀ (u : State) (j : BitVec 17), u.cfg = s.cfg → u.x = { x with i := j } →
      p.action u = writeSeq a bs.length (bs.getD · 0x00#8) next u)
    (hx : x.i = 0#17) (hl : ops.length = rs.length) (hr : s.repliesWith (rs ++ qs)) :
    Continues i (bs.length + 1) (s.midway p x ops rs dest src)
      (s.midway next x (ops ++ seqWrites a bs) (rs ++ qs) dest src) := by
  have hlen : (seqWrites a bs).length = bs.length := List.length_mapIdx
  have hloop := Continues.write_loop (i := i) (q := p) (seqWrites a bs) qs (s.midway p x ops rs dest src) 0
    (hlen.trans hq) rfl (State.repliesWith_midway hr) hx fun k hk u hcfg _ _ hux => by
      rw [hlen] at hk
      have hidx : u.x.i.toNat = k := by rw [hux, Nat.zero_add]; exact index_toNat (by omega)
      refine ⟨hi u _ hux, addrPlus a k, bs[k], by simp [seqWrites], ?_⟩
      rw [ha u _ hcfg hux, writeSeq_of_lt hidx _ _ _ hk, List.getD_eq_getElem _ _ hk]
  rw [State.midway_afterBus _ _ hl, hlen, Nat.zero_add] at hloop
  have hleave : Continues i 1
      (s.midway p { x with i := BitVec.ofNat 17 bs.length } (ops ++ seqWrites a bs) (rs ++ qs) dest src)
      (s.midway next { x with i := 0#17 } (ops ++ seqWrites a bs) (rs ++ qs) dest src) :=
    .compute (hi _ _ rfl) ((ha _ _ State.midway_cfg rfl).trans (writeSeq_of_le (index_toNat hn) a next _ le_rfl))
  rw [← hx] at hleave
  exact hloop.append hleave

end

/-! ### The read-back commands -/

/-- A read-back command: acceptance, ReadSeq of its field into RB, and the answer (R124 to R127). -/
theorem readBack_completes {s : State} {i : Instr} {op : Byte} {position : FetchStep → SeqStep}
    {a : Params → Addr} {answer : Bytes6 → List Byte} (hm : s.mode = .idle) (rs : List Reply) (hn : rs.length < 131072)
    (haccept : exec i s = .next (s.accept op (fun x => { x with i := 0#17 }) (position .bytes)))
    (hi : ∀ p u, (position p).instr u = i)
    (hbytes : ∀ u : State, (position .bytes).action u = readSeq (a u.cfg) rs.length (position .respond) u)
    (hrespond : ∀ u : State, (position .respond).action u = .respond (.bytes (answer u.x.rb)))
    (hr : s.repliesWith rs) :
    Completes i (rs.length + 2) s { s.afterBus ((List.range rs.length).map fun k => .rd (addrPlus (a s.cfg) k)) rs with
      x := { s.x with cmd := op, rb := s.x.rb.putList 0 (rs.map (·.r3)), i := 0#17 }
      responses := s.responses ++ [.bytes (answer (s.x.rb.putList 0 (rs.map (·.r3))))] } := by
  rw [State.accept_eq_midway] at haccept
  have hread : ∀ u : State, u.cfg = s.cfg →
      (position .bytes).action u = readSeq (a s.cfg) rs.length (position .respond) u :=
    fun u hu => hu ▸ hbytes u
  refine .cons haccept rfl (Continues.completes (m := 0) (.readSeq (rs := []) hn (hi _) hread rfl rfl hr) ?_)
  exact .last (exec_respond (position .respond) rfl (hi _ _) (hrespond _)) (State.respond_midway hm) rfl

/-! ### CONFIGURE -/

theorem exists_append_of_length {α : Type} {l : List α} {m n : Nat} (h : l.length = m + n) :
    ∃ l₁ l₂, l = l₁ ++ l₂ ∧ l₁.length = m ∧ l₂.length = n :=
  ⟨l.take m, l.drop m, (l.take_append_drop m).symm, by simp [h], by simp [h]⟩

theorem configure_instr {u : State} {x : Regs} {j : BitVec 17} (hx : u.x = { x with i := j }) (p : ConfigureStep) :
    (SeqStep.configure p).instr u = .configure x.idb.mac x.idb.ip x.idb.gw x.idb.sn := by
  rw [SeqStep.instr, hx]

section
variable {s : State} {x : Regs} {dest : Memory} {src : List Byte}

/-- CONFIGURE's WriteSeq of one latched field (R122). -/
theorem Continues.configure_field {p p' : ConfigureStep} {a : Params → Addr} {field : Idb → List Byte}
    {ops : List BusOp} {rs qs : List Reply}
    (ha : ∀ u : State, configureAction p u =
      Machine.writeSeq (a u.cfg) (field u.x.idb).length ((field u.x.idb).getD · 0x00#8) (.configure p') u)
    (hn : (field x.idb).length < 131072) (hq : (field x.idb).length = qs.length) (hx : x.i = 0#17)
    (hl : ops.length = rs.length) (hr : s.repliesWith (rs ++ qs)) :
    Continues (.configure x.idb.mac x.idb.ip x.idb.gw x.idb.sn) ((field x.idb).length + 1)
      (s.midway (.configure p) x ops rs dest src)
      (s.midway (.configure p') x (ops ++ seqWrites (a s.cfg) (field x.idb)) (rs ++ qs) dest src) :=
  .writeSeq hn hq (fun _ _ hu => configure_instr hu p)
    (fun u _ hc hu => by rw [SeqStep.action, ha, hc, hu]) hx hl hr

/-- CONFIGURE's four fields, after the exchanges `ops` (R120, R122). -/
theorem Continues.configure_fields {ops : List BusOp} {rs q1 q2 q3 q4 : List Reply} (hl : ops.length = rs.length)
    (h1 : q1.length = 6) (h2 : q2.length = 4) (h3 : q3.length = 4) (h4 : q4.length = 4) (hx : x.i = 0#17)
    (hr : s.repliesWith (rs ++ q1 ++ q2 ++ q3 ++ q4)) :
    Continues (.configure x.idb.mac x.idb.ip x.idb.gw x.idb.sn) 22 (s.midway (.configure .mac) x ops rs dest src)
      (s.midway (.configure .respond) x
        (ops ++ seqWrites s.cfg.addrShar x.idb.mac.toList ++ seqWrites s.cfg.addrSipr x.idb.ip.toList ++
          seqWrites s.cfg.addrGar x.idb.gw.toList ++ seqWrites s.cfg.addrSubr x.idb.sn.toList)
        (rs ++ q1 ++ q2 ++ q3 ++ q4) dest src) := by
  have hr3 := hr.of_append
  have hr2 := hr3.of_append
  have hr1 := hr2.of_append
  have hmac := Continues.configure_field (x := x) (dest := dest) (src := src) (p := .mac) (p' := .ip)
    (a := Params.addrShar) (field := fun d => d.mac.toList) (fun _ => rfl) (show 6 < 131072 by decide) h1.symm hx hl hr1
  have hip := hmac.append (.configure_field (x := x) (p' := .gateway) (a := Params.addrSipr)
    (field := fun d => d.ip.toList) (fun _ => rfl) (show 4 < 131072 by decide) h2.symm hx
    (by simp [hl, h1, seqWrites, Bytes6.toList]) hr2)
  have hgateway := hip.append (.configure_field (x := x) (p' := .subnet) (a := Params.addrGar)
    (field := fun d => d.gw.toList) (fun _ => rfl) (show 4 < 131072 by decide) h3.symm hx
    (by simp [hl, h1, h2, seqWrites, Bytes6.toList, Bytes4.toList]) hr3)
  exact hgateway.append (.configure_field (x := x) (a := Params.addrSubr) (field := fun d => d.sn.toList)
    (fun _ => rfl) (show 4 < 131072 by decide) h4.symm hx
    (by simp [hl, h1, h2, h3, seqWrites, Bytes6.toList, Bytes4.toList]) hr)

/-- CONFIGURE up to its fields: the operands are latched, SOCK closes, and the chip is reset (R100, R120, R121). -/
theorem Continues.configure_begins {r : Reply} (hm : s.mode = .idle) (mac : Bytes6) (ip gw sn : Bytes4)
    (hr : s.repliesWith [r]) :
    Continues (.configure mac ip gw sn) 3 s
      ((s.setSock .closed).midway (.configure .mac)
        { s.x with cmd := opConfigure, idb := ⟨mac, ip, gw, sn⟩, i := 0#17 } [.wr s.cfg.addrMr s.cfg.mrRst] [r]
        s.dest s.src) := by
  have hclose : exec (.configure mac ip gw sn) (acceptedState (.configure mac ip gw sn) s) =
      .next ((s.setSock .closed).accept opConfigure (fun x => { x with idb := ⟨mac, ip, gw, sn⟩ })
        (.configure .softReset)) := exec_compute (.configure .closeSock) rfl rfl rfl
  rw [State.accept_eq_midway] at hclose
  exact ⟨_, exec_idle hm rfl, rfl, _, hclose, rfl, .write (rs := []) hr rfl rfl rfl fun u hu =>
    congrArg (fun x => { u with mode := .busy (.configure .mac), x := { x with i := 0#17 } }) hu⟩

/-- CONFIGURE up to its response: all of its nineteen writes (R120 to R122). -/
theorem Continues.configure_writes {r : Reply} {q1 q2 q3 q4 : List Reply} (hm : s.mode = .idle) (mac : Bytes6)
    (ip gw sn : Bytes4) (h1 : q1.length = 6) (h2 : q2.length = 4) (h3 : q3.length = 4) (h4 : q4.length = 4)
    (hr : s.repliesWith ([r] ++ q1 ++ q2 ++ q3 ++ q4)) :
    Continues (.configure mac ip gw sn) 25 s
      ((s.setSock .closed).midway (.configure .respond)
        { s.x with cmd := opConfigure, idb := ⟨mac, ip, gw, sn⟩, i := 0#17 } (configureWrites s.cfg mac ip gw sn)
        ([r] ++ q1 ++ q2 ++ q3 ++ q4) s.dest s.src) := by
  have hbegins := Continues.configure_begins hm mac ip gw sn hr.of_append.of_append.of_append.of_append
  exact hbegins.append (.configure_fields (s := s.setSock .closed)
    (x := { s.x with cmd := opConfigure, idb := ⟨mac, ip, gw, sn⟩, i := 0#17 }) rfl h1 h2 h3 h4 rfl hr)

end

/-! ### FRAME_AVAILABLE -/

theorem frameQueued_eq (v : U16) : frameQueued v = decide (v ≠ 0#16) := by
  rw [Bool.eq_iff_iff, decide_eq_true_iff]
  exact bne_iff_ne

/-! ### The obligations: failures and refusals -/

/-- Settles O29: the exchange that is issued is performed at the position of the command in progress, and its failure is
fault entry. -/
theorem failedExchangesRaiseBusFault : Obligations.FailedExchangesRaiseBusFault := by
  refine fun s a b hb => ⟨fun hissued => ?_, fun v hissued => ?_⟩
  · rw [exec_busRead_fails hissued hb, State.raise, State.exchanged, hb]
    rfl
  · rw [exec_busWrite_fails hissued hb, State.raise, State.exchanged, hb]
    cases b <;> rfl

/-- Settles O31: acceptance checks SOCK first. -/
theorem frameCommandsNeedAnOpenSocket : Obligations.FrameCommandsNeedAnOpenSocket := by
  refine fun s hm hs => ⟨?_, fun cap => ?_, fun len data => ?_⟩
  · rw [exec_idle hm rfl, acceptedState, State.requireOpen_accept_of_closed hs]
    · rfl
    · exact fun _ => rfl
  · rw [exec_idle hm rfl, acceptedState, State.requireOpen_accept_of_closed hs]
    · rfl
    · exact fun _ => rfl
  · rw [exec_idle hm rfl, acceptedState, sendFrameAccepted_of_closed hs]
    rfl

/-- Settles O32: with SOCK open acceptance checks LEN. -/
theorem longFramesAreRefused : Obligations.LongFramesAreRefused := by
  intro s len data hm hs hlen
  rw [exec_idle hm rfl, acceptedState, sendFrameAccepted_of_gt hs hlen]
  rfl

/-! ### The obligations: commands that complete -/

/-- Settles O40: the replies are split along the software reset and the four fields, each of which is one WriteSeq. -/
theorem configureCompletes : Obligations.ConfigureCompletes := by
  intro mac ip gw sn s rs hm hlen hr
  obtain ⟨rs, q4, rfl, hlen, h4⟩ := exists_append_of_length (m := 15) (n := 4) hlen
  obtain ⟨rs, q3, rfl, hlen, h3⟩ := exists_append_of_length (m := 11) (n := 4) hlen
  obtain ⟨rs, q2, rfl, hlen, h2⟩ := exists_append_of_length (m := 7) (n := 4) hlen
  obtain ⟨rs, q1, rfl, hlen, h1⟩ := exists_append_of_length (m := 1) (n := 6) hlen
  obtain ⟨q0, rfl⟩ := List.length_eq_one_iff.1 hlen
  refine (Continues.configure_writes hm mac ip gw sn h1 h2 h3 h4 hr).completes (m := 0) ?_
  exact .last (exec_respond (.configure .respond) rfl rfl rfl) (State.respond_midway_setSock hm) rfl

/-- Settles O44: each command is an instance of `readBack_completes`. -/
theorem readBackCommandsComplete : Obligations.ReadBackCommandsComplete := by
  refine fun s hm => ⟨fun r0 r1 r2 r3 r4 r5 hr => ?_, fun r0 r1 r2 r3 hr => ⟨?_, ?_, ?_⟩⟩
  · exact readBack_completes (position := .getMac) (a := Params.addrShar) (answer := Bytes6.toList) hm
      [r0, r1, r2, r3, r4, r5] (show 6 < 131072 by decide) (exec_idle hm rfl) (fun _ _ => rfl) (fun _ => rfl)
      (fun _ => rfl) hr
  · exact readBack_completes (position := .getIp) (a := Params.addrSipr) (answer := fun b => b.toList.take 4) hm
      [r0, r1, r2, r3] (show 4 < 131072 by decide) (exec_idle hm rfl) (fun _ _ => rfl) (fun _ => rfl) (fun _ => rfl) hr
  · exact readBack_completes (position := .getGateway) (a := Params.addrGar) (answer := fun b => b.toList.take 4) hm
      [r0, r1, r2, r3] (show 4 < 131072 by decide) (exec_idle hm rfl) (fun _ _ => rfl) (fun _ => rfl) (fun _ => rfl) hr
  · exact readBack_completes (position := .getSubnet) (a := Params.addrSubr) (answer := fun b => b.toList.take 4) hm
      [r0, r1, r2, r3] (show 4 < 131072 by decide) (exec_idle hm rfl) (fun _ _ => rfl) (fun _ => rfl) (fun _ => rfl) hr

/-- Settles O46: acceptance, Read16 of the received-size counter, and the response. -/
theorem frameAvailableCompletes : Obligations.FrameAvailableCompletes := by
  intro s h l hm hs hr
  have haccept : exec .frameAvailable s = .next (s.midway (.frameAvailable .cntHi)
      { s.x with cmd := opFrameAvailable } [] [] s.dest s.src) := by
    rw [exec_idle hm rfl, acceptedState, State.requireOpen_accept hs, State.accept_eq_midway]; rfl
  rw [← frameQueued_eq]
  refine .cons haccept rfl (Continues.completes (n := 1) (m := 1) (.readHi hr rfl rfl rfl) ?_)
  refine Continues.completes (n := 1) (m := 0)
    (.readLo (p := .frameAvailable .cntLo) (f := fun v x => { x with cnt := v }) hr rfl rfl rfl) ?_
  exact .last (exec_respond (.frameAvailable .respond) rfl rfl rfl) (State.respond_midway hm) rfl

end Sys2Proof.Machine

/-! ## Device configuration

A run of a command is determined by its start, so a run that is known to complete can be taken apart step by step: each
exchange it makes has succeeded, or the block halted there (`FaultedSince`). CONFIGURE's run up to any of its nineteen
writes is said by `ComesToWrite`, field by field, since a failure may fall inside a field's WriteSeq (O41). With O40 that
leaves one way for CONFIGURE to end idle, from which O42 and O54 follow. -/

namespace Sys2Proof.Machine

/-! ### A run is determined by its start -/

/-- A completed run passes through every state that the command comes to while it is in progress. -/
theorem Completes.after_continues {i : Instr} {n m : Nat} {s u t : State} (hc : Completes i n s t)
    (h : Continues i m s u) : ∃ k, Completes i k u t := by
  induction m generalizing s n with
  | zero => obtain rfl : s = u := h; exact ⟨n, hc⟩
  | succ m ih =>
    obtain ⟨v, hv, hb, hrest⟩ := h
    cases n with
    | zero =>
      obtain rfl := Host.Outcome.next.inj (hc.1.symm.trans hv)
      simp [hc.2] at hb
    | succ n =>
      obtain ⟨w, hw, -, hc⟩ := hc
      obtain rfl := Host.Outcome.next.inj (hw.symm.trans hv)
      exact ih hc hrest

/-- A step after which the command is no longer in progress ends the run. -/
theorem Completes.eq_of_exec {i : Instr} {n : Nat} {s u t : State} (hc : Completes i n s t) (he : exec i s = .next u)
    (hb : u.isBusy = false) : t = u := by
  cases n with
  | zero => exact Host.Outcome.next.inj (hc.1.symm.trans he)
  | succ n =>
    obtain ⟨v, hv, hb', -⟩ := hc
    obtain rfl := Host.Outcome.next.inj (hv.symm.trans he)
    simp [hb] at hb'

/-- Two completed runs of a command from one state end alike. -/
theorem Completes.unique {i : Instr} {n m : Nat} {s t u : State} (ht : Completes i n s t) (hu : Completes i m s u) :
    t = u := by
  induction m generalizing s n with
  | zero => exact ht.eq_of_exec hu.1 hu.2
  | succ m ih =>
    obtain ⟨v, hv, hb, hu⟩ := hu
    obtain ⟨k, hk⟩ := ht.after_continues (Continues.one hv hb)
    exact ih hk hu

/-! ### A completed run, exchange by exchange -/

/-- The block has halted, and its one response since `s` is that of a fault. -/
def State.FaultedSince (s t : State) : Prop :=
  t.mode = .halted ∧ ∃ code info, t.responses = s.responses ++ [.fault code info]

theorem State.not_faultedSince_of_idle {s t : State} (h : t.mode = .idle) : ¬s.FaultedSince t :=
  fun hf => by simp [h, State.FaultedSince] at hf

theorem State.not_faultedSince_of_bool {s t : State} {b : Bool} (h : t.responses = s.responses ++ [.bool b]) :
    ¬s.FaultedSince t :=
  fun hf => by simp [h, State.FaultedSince] at hf

theorem State.repliesWith_concat {s : State} {rs : List Reply} {r : Reply} :
    s.repliesWith (rs ++ [r]) ↔ s.repliesWith rs ∧ s.upcoming rs.length = r.answer := by
  rw [State.repliesWith_append]
  refine and_congr_right fun _ => ⟨fun h => ?_, fun h ops k q hq => ?_⟩
  · simpa [State.upcoming_afterBus] using h [] 0 r rfl
  · obtain ⟨rfl, rfl⟩ : k = 0 ∧ r = q := by cases k <;> simp_all
    simpa [State.upcoming_afterBus] using h

theorem State.goto_of_x {u : State} {x : Regs} {p : SeqStep} (hu : u.x = x) :
    u.goto p = { u with mode := .busy p, x := x } := by
  rw [← hu]; rfl

theorem State.setRegs_goto_of_x {u : State} {x : Regs} {f : Regs → Regs} {p : SeqStep} (hu : u.x = x) :
    (u.setRegs f).goto p = { u with mode := .busy p, x := f x } := by
  rw [← hu]; rfl

section
variable {s t : State} {i : Instr} {n : Nat} {p p' : SeqStep} {x : Regs} {ops : List BusOp} {rs : List Reply}
  {dest : Memory} {src : List Byte} {a : Addr}
  (hc : Completes i n (s.midway p x ops rs dest src) t) (hok : ¬s.FaultedSince t) (hr : s.repliesWith rs)
  (hl : ops.length = rs.length) (hi : p.instr (s.midway p x ops rs dest src) = i)
include hc hok hr hl hi

/-- A read in the middle of a run that ends without a fault has succeeded. -/
theorem Completes.after_read {f : Byte → Regs → Regs}
    (ha : p.action (s.midway p x ops rs dest src) = .read a fun v u => (u.setRegs (f v)).goto p') :
    ∃ m r, s.repliesWith (rs ++ [r]) ∧
      Completes i m (s.midway p' (f r.r3 x) (ops ++ [.rd a]) (rs ++ [r]) dest src) t := by
  have hup : (s.midway p x ops rs dest src).upcoming 0 = s.upcoming rs.length := State.upcoming_midway 0
  obtain ⟨r, hans⟩ | ⟨b, hfail⟩ := BusAnswer.ok_or_fail (s.upcoming rs.length)
  · have hr' := State.repliesWith_concat.2 ⟨hr, hans⟩
    obtain ⟨m, hm⟩ := hc.after_continues (.read hr' hl hi ha fun _ hu => State.setRegs_goto_of_x hu)
    exact ⟨m, r, hr', hm⟩
  · obtain rfl := hc.eq_of_exec (exec_read_fails p rfl hi ha (hup.trans hfail)) rfl
    exact absurd ⟨rfl, _, _, rfl⟩ hok

/-- A write in the middle of a run that ends without a fault has succeeded. -/
theorem Completes.after_write {v : Byte}
    (ha : p.action (s.midway p x ops rs dest src) = .write a v fun u => u.goto p') :
    ∃ m r, s.repliesWith (rs ++ [r]) ∧
      Completes i m (s.midway p' x (ops ++ [.wr a v]) (rs ++ [r]) dest src) t := by
  have hup : (s.midway p x ops rs dest src).upcoming 0 = s.upcoming rs.length := State.upcoming_midway 0
  obtain ⟨r, hans⟩ | ⟨b, hfail⟩ := BusAnswer.ok_or_fail (s.upcoming rs.length)
  · have hr' := State.repliesWith_concat.2 ⟨hr, hans⟩
    obtain ⟨m, hm⟩ := hc.after_continues (.write hr' hl hi ha fun _ hu => State.goto_of_x hu)
    exact ⟨m, r, hr', hm⟩
  · obtain rfl := hc.eq_of_exec (exec_write_fails p rfl hi ha (hup.trans hfail)) rfl
    exact absurd ⟨rfl, _, _, by cases b <;> rfl⟩ hok

end

theorem Continues.accepted {s : State} {i : Instr} {p : SeqStep} {x : Regs} (hm : s.mode = .idle)
    (hi : i.isExchange = false) (ha : acceptedState i s = s.midway p x [] [] s.dest s.src) :
    Continues i 1 s (s.midway p x [] [] s.dest s.src) :=
  .one ((exec_idle hm hi).trans (congrArg _ ha)) rfl

/-! ### The first exchange that fails -/

/-- The next `n` exchanges succeed, or some succeed and then one fails. -/
theorem State.replies_or_fails (s : State) (n : Nat) :
    (∃ rs, rs.length = n ∧ s.repliesWith rs) ∨
      ∃ rs b, rs.length < n ∧ s.repliesWith rs ∧ s.upcoming rs.length = .fail b := by
  induction n with
  | zero => exact .inl ⟨[], rfl, s.repliesWith_nil⟩
  | succ n ih =>
    obtain ⟨rs, rfl, hr⟩ | ⟨rs, b, hlt, hr, hb⟩ := ih
    · obtain ⟨r, hans⟩ | ⟨b, hfail⟩ := BusAnswer.ok_or_fail (s.upcoming rs.length)
      · exact .inl ⟨rs ++ [r], by simp, State.repliesWith_concat.2 ⟨hr, hans⟩⟩
      · exact .inr ⟨rs, b, by omega, hr, hfail⟩
    · exact .inr ⟨rs, b, by omega, hr, hb⟩

/-- Run from `u`, the command `i` comes to the write of `ops` that follows those which `rs` answer: it stands there with
`s` as these writes leave it, but for the position and the working registers. -/
def ComesToWrite (i : Instr) (u s : State) (ops : List BusOp) (rs : List Reply) : Prop :=
  ∃ n p x done a v k todo, Continues i n u (s.midway p x done rs s.dest s.src) ∧
    p.instr (s.midway p x done rs s.dest s.src) = i ∧ p.action (s.midway p x done rs s.dest s.src) = .write a v k ∧
    done.length = rs.length ∧ ops = done ++ .wr a v :: todo

theorem Continues.comesToWrite {i : Instr} {n : Nat} {u v s : State} {ops : List BusOp} {rs : List Reply}
    (h1 : Continues i n u v) (h2 : ComesToWrite i v s ops rs) : ComesToWrite i u s ops rs := by
  obtain ⟨m, p, x, done, a, w, k, todo, hrun, hstands⟩ := h2
  exact ⟨_, p, x, done, a, w, k, todo, h1.append hrun, hstands⟩

theorem busTrace_append_left {done : List BusOp} {rs : List Reply} (h : done.length = rs.length) (c : Params)
    (todo : List BusOp) : busTrace c (done ++ todo) rs = busTrace c done rs := by
  simpa [busTrace] using List.zipWith_append (l₁' := todo) (l₂' := []) h

/-- The write that the command has come to fails: the writes before it stay done, and it may have been stored (R222). -/
theorem ComesToWrite.halts {i : Instr} {u s : State} {ops : List BusOp} {rs : List Reply} {b : Bool} {a : Addr}
    {v : Byte} (h : ComesToWrite i u s ops rs) (hb : s.upcoming rs.length = .fail b) (ho : ops[rs.length]? = some (.wr a v)) :
    ∃ n t, Completes i n u t ∧ t.mode = .halted ∧ t.fault = ⟨0x01#8, a⟩ ∧ t.sock = s.sock ∧
      t.responses = s.responses ++ [.fault 0x01#8 a] ∧
      t.trace = s.trace ++ busTrace s.cfg ops rs ++ [⟨writeFrame s.cfg a v, .fail b⟩] ∧
      t.chip = chipWrites s.chip (ops.take (if b then rs.length + 1 else rs.length)) := by
  obtain ⟨n, p, x, done, a', v', k, todo, hrun, hi, ha, hl, rfl⟩ := h
  obtain ⟨rfl, rfl⟩ : a' = a ∧ v' = v := by simpa [← hl] using ho
  have h0 : (s.midway p x done rs s.dest s.src).upcoming 0 = .fail b := (State.upcoming_midway 0).trans hb
  refine ⟨_, _, hrun.completes (m := 0) (.last (exec_write_fails p rfl hi ha h0) rfl rfl), rfl, rfl, ?_, ?_, ?_, ?_⟩
  · cases b <;> rfl
  · cases b <;> rfl
  · rw [← State.nextAnswer_eq_upcoming] at h0
    rw [busTrace_append_left hl, ← h0]
    cases b <;> rfl
  · cases b with
    | false => simp [← hl, State.midway, State.afterBus]
    | true => simp [← hl, List.take_append, List.take_of_length_le, chipWrites_append, chipWrites, State.midway,
        State.afterBus]

/-! ### CONFIGURE up to any of its writes -/

theorem seqWrites_eq_append {bs : List Byte} {k : Nat} (h : k < bs.length) (a : Addr) :
    seqWrites a bs =
      (seqWrites a bs).take k ++ .wr (addrPlus a k) (bs.getD k 0x00#8) :: (seqWrites a bs).drop (k + 1) := by
  have hk : k < (seqWrites a bs).length := by simpa [seqWrites] using h
  rw [show BusOp.wr (addrPlus a k) (bs.getD k 0x00#8) = (seqWrites a bs)[k] by simp [seqWrites, h],
    ← List.drop_eq_getElem_cons hk, List.take_append_drop]

/-- WriteSeq comes to the write of each of its bytes (R107). -/
theorem ComesToWrite.writeSeq {s : State} {i : Instr} {p next : SeqStep} {a : Addr} {x : Regs} {ops : List BusOp}
    {rs qs : List Reply} {bs : List Byte} (hn : bs.length < 131072) (hq : qs.length < bs.length)
    (hi : ∀ (u : State) (j : BitVec 17), u.x = { x with i := j } → p.instr u = i)
    (ha : ∀ (u : State) (j : BitVec 17), u.cfg = s.cfg → u.x = { x with i := j } →
      p.action u = Machine.writeSeq a bs.length (bs.getD · 0x00#8) next u)
    (hx : x.i = 0#17) (hl : ops.length = rs.length) (hr : s.repliesWith (rs ++ qs)) (todo : List BusOp) :
    ComesToWrite i (s.midway p x ops rs s.dest s.src) s (ops ++ (seqWrites a bs ++ todo)) (rs ++ qs) := by
  have hlen : ((seqWrites a bs).take qs.length).length = qs.length := by simp [seqWrites, hq.le]
  have hloop := Continues.write_loop (i := i) (q := p) ((seqWrites a bs).take qs.length) qs
    (s.midway p x ops rs s.dest s.src) 0 hlen rfl (State.repliesWith_midway hr) hx fun k hk u hcfg _ _ hux => by
      have hk' : k < bs.length := by omega
      have hidx : u.x.i.toNat = k := by rw [hux, Nat.zero_add]; exact index_toNat (by omega)
      refine ⟨hi u _ hux, addrPlus a k, bs[k], by simp [seqWrites], ?_⟩
      rw [ha u _ hcfg hux, writeSeq_of_lt hidx _ _ _ hk', List.getD_eq_getElem _ _ hk']
  rw [State.midway_afterBus _ _ hl, hlen, Nat.zero_add] at hloop
  refine ⟨_, p, { x with i := BitVec.ofNat 17 qs.length }, ops ++ (seqWrites a bs).take qs.length, _, _, _,
    (seqWrites a bs).drop (qs.length + 1) ++ todo, hloop, hi _ _ rfl,
    (ha _ _ State.midway_cfg rfl).trans (writeSeq_of_lt (index_toNat (hq.trans hn)) a next _ hq),
    by simp [hl, hlen], ?_⟩
  conv_lhs => rw [seqWrites_eq_append hq a]
  simp only [List.append_assoc, List.cons_append]

section
variable {s : State} {x : Regs}

/-- CONFIGURE comes to every write of one latched field, and to the writes after it if it does so from the next
position. -/
theorem ComesToWrite.configure_field {p p' : ConfigureStep} {a : Params → Addr} {field : Idb → List Byte}
    {ops todo : List BusOp} {rs qs : List Reply}
    (ha : ∀ u : State, configureAction p u =
      Machine.writeSeq (a u.cfg) (field u.x.idb).length ((field u.x.idb).getD · 0x00#8) (.configure p') u)
    (hn : (field x.idb).length < 131072) (hx : x.i = 0#17) (hl : ops.length = rs.length) (hr : s.repliesWith (rs ++ qs))
    (hnext : ∀ q1 q2, qs.length = (field x.idb).length + q2.length →
      (ops ++ seqWrites (a s.cfg) (field x.idb)).length = (rs ++ q1).length → s.repliesWith (rs ++ q1 ++ q2) →
      ComesToWrite (.configure x.idb.mac x.idb.ip x.idb.gw x.idb.sn)
        (s.midway (.configure p') x (ops ++ seqWrites (a s.cfg) (field x.idb)) (rs ++ q1) s.dest s.src) s
        (ops ++ seqWrites (a s.cfg) (field x.idb) ++ todo) (rs ++ q1 ++ q2)) :
    ComesToWrite (.configure x.idb.mac x.idb.ip x.idb.gw x.idb.sn) (s.midway (.configure p) x ops rs s.dest s.src) s
      (ops ++ (seqWrites (a s.cfg) (field x.idb) ++ todo)) (rs ++ qs) := by
  obtain hlt | hle := lt_or_ge qs.length (field x.idb).length
  · exact .writeSeq hn hlt (fun _ _ hu => configure_instr hu p)
      (fun u _ hc hu => by rw [SeqStep.action, ha, hc, hu]) hx hl hr todo
  · obtain ⟨q1, q2, rfl, h1, -⟩ := exists_append_of_length (Nat.add_sub_cancel' hle).symm
    rw [← List.append_assoc] at hr
    rw [← List.append_assoc, ← List.append_assoc]
    exact (Continues.configure_field ha hn h1.symm hx hl hr.of_append).comesToWrite
      (hnext q1 q2 (by simp [h1]) (by simp [hl, h1, seqWrites]) hr)

/-- CONFIGURE comes to each of the writes of its four fields (R120, R122). -/
theorem ComesToWrite.configure_fields {ops : List BusOp} {rs qs : List Reply} (hx : x.i = 0#17)
    (hl : ops.length = rs.length) (hr : s.repliesWith (rs ++ qs)) (hq : qs.length < 18) :
    ComesToWrite (.configure x.idb.mac x.idb.ip x.idb.gw x.idb.sn) (s.midway (.configure .mac) x ops rs s.dest s.src) s
      (ops ++ (seqWrites s.cfg.addrShar x.idb.mac.toList ++ (seqWrites s.cfg.addrSipr x.idb.ip.toList ++
        (seqWrites s.cfg.addrGar x.idb.gw.toList ++ (seqWrites s.cfg.addrSubr x.idb.sn.toList ++ [])))))
      (rs ++ qs) := by
  refine .configure_field (a := Params.addrShar) (field := fun d => d.mac.toList) (p' := .ip) (fun _ => rfl)
    (show 6 < 131072 by decide) hx hl hr fun q1 rest1 h1 hl hr => ?_
  refine .configure_field (a := Params.addrSipr) (field := fun d => d.ip.toList) (p' := .gateway) (fun _ => rfl)
    (show 4 < 131072 by decide) hx hl hr fun q2 rest2 h2 hl hr => ?_
  refine .configure_field (a := Params.addrGar) (field := fun d => d.gw.toList) (p' := .subnet) (fun _ => rfl)
    (show 4 < 131072 by decide) hx hl hr fun q3 rest3 h3 hl hr => ?_
  refine .configure_field (a := Params.addrSubr) (field := fun d => d.sn.toList) (p' := .respond) (fun _ => rfl)
    (show 4 < 131072 by decide) hx hl hr fun q4 rest4 h4 hl hr => ?_
  simp only [Bytes6.toList, Bytes4.toList, List.length_cons, List.length_nil] at h1 h2 h3 h4
  omega

end

/-- CONFIGURE comes to each of its nineteen writes, with SOCK closed (R120, R121). -/
theorem ComesToWrite.configure {s : State} (hm : s.mode = .idle) (mac : Bytes6) (ip gw sn : Bytes4) {rs : List Reply}
    (hlt : rs.length < 19) (hr : s.repliesWith rs) :
    ComesToWrite (.configure mac ip gw sn) s (s.setSock .closed) (configureWrites s.cfg mac ip gw sn) rs := by
  cases rs with
  | nil =>
    have haccept : Continues (.configure mac ip gw sn) 1 s (s.midway (.configure .closeSock)
        { s.x with cmd := opConfigure, idb := ⟨mac, ip, gw, sn⟩ } [] [] s.dest s.src) :=
      .accepted hm rfl (by rw [acceptedState, State.accept_eq_midway])
    have hclose : Continues (.configure mac ip gw sn) 1 (s.midway (.configure .closeSock)
        { s.x with cmd := opConfigure, idb := ⟨mac, ip, gw, sn⟩ } [] [] s.dest s.src)
        ((s.setSock .closed).midway (.configure .softReset)
          { s.x with cmd := opConfigure, idb := ⟨mac, ip, gw, sn⟩ } [] [] s.dest s.src) :=
      .one (exec_compute (.configure .closeSock) rfl rfl rfl) rfl
    exact ⟨_, _, _, [], _, _, _, _, haccept.append hclose, rfl, rfl, rfl, rfl⟩
  | cons r rs =>
    have hbegins := Continues.configure_begins hm mac ip gw sn (hr.of_append (rs := [r]))
    have hfields := ComesToWrite.configure_fields (s := s.setSock .closed)
      (x := { s.x with cmd := opConfigure, idb := ⟨mac, ip, gw, sn⟩, i := 0#17 })
      (ops := [.wr s.cfg.addrMr s.cfg.mrRst]) (rs := [r]) rfl rfl hr (Nat.succ_lt_succ_iff.1 hlt)
    simpa [configureWrites] using hbegins.comesToWrite hfields

/-- Settles O41: CONFIGURE comes to the write with SOCK closed and the writes before it done, and the block halts. -/
theorem configureHaltsAtAFailedWrite : Obligations.ConfigureHaltsAtAFailedWrite := by
  intro mac ip gw sn s rs b a v hm hr hb ho
  have hlt : rs.length < 19 := (List.getElem?_eq_some_iff.1 ho).1
  exact (ComesToWrite.configure hm mac ip gw sn hlt hr).halts hb ho

/-! ### CONFIGURE run to its end -/

/-- A CONFIGURE that leaves the block idle has made all of its nineteen writes (R120). -/
theorem Completes.configure_done {mac : Bytes6} {ip gw sn : Bytes4} {n : Nat} {s t : State} (hm : s.mode = .idle)
    (hc : Completes (.configure mac ip gw sn) n s t) (ht : t.mode = .idle) :
    t.cfg = s.cfg ∧ t.chip = chipWrites s.chip (configureWrites s.cfg mac ip gw sn) ∧
      ∃ rs, (configureWrites s.cfg mac ip gw sn).length = rs.length ∧
        t.trace = s.trace ++ busTrace s.cfg (configureWrites s.cfg mac ip gw sn) rs := by
  obtain ⟨rs, hlen, hr⟩ | ⟨rs, b, hlt, hr, hb⟩ := s.replies_or_fails 19
  · rw [hc.unique (configureCompletes mac ip gw sn s rs hm hlen hr)]
    dsimp only [State.afterBus]
    exact ⟨rfl, rfl, rs, hlen.symm, rfl⟩
  · obtain ⟨n, p, x, done, a, v, k, todo, -, -, -, hl, ho⟩ := ComesToWrite.configure hm mac ip gw sn hlt hr
    obtain ⟨m, u, hu, hhalted, -⟩ := configureHaltsAtAFailedWrite mac ip gw sn s rs b a v hm hr hb (by simp [ho, ← hl])
    rw [hc.unique hu, hhalted] at ht
    cases ht

/-! ### Writes that are made a second time -/

/-- What an address holds after a list of exchanges is either the last byte written there or what it held before. -/
theorem memRead_chipWrites_cases (ops : List BusOp) (a : Nat) :
    (∃ v, ∀ m, memRead (chipWrites m ops) a = some v) ∨ ∀ m, memRead (chipWrites m ops) a = memRead m a := by
  induction ops with
  | nil => exact .inr fun _ => rfl
  | cons o ops ih =>
    obtain ⟨v, hv⟩ | hkeep := ih
    · exact .inl ⟨v, fun m => by cases o <;> exact hv _⟩
    · cases o with
      | rd b => exact .inr hkeep
      | wr b w =>
        by_cases hb : b.toNat = a
        · exact .inl ⟨w, fun m => (hkeep _).trans (by simp [hb])⟩
        · exact .inr fun m => (hkeep _).trans (by simp [hb])

theorem memRead_chipWrites_twice (m : Memory) (ops : List BusOp) (a : Nat) :
    memRead (chipWrites (chipWrites m ops) ops) a = memRead (chipWrites m ops) a := by
  obtain ⟨v, hv⟩ | hkeep := memRead_chipWrites_cases ops a
  · rw [hv, hv]
  · rw [hkeep]

theorem busTrace_map_sent (c : Params) {ops : List BusOp} {rs : List Reply} (h : ops.length = rs.length) :
    (busTrace c ops rs).map (·.sent) = ops.map (·.frame c) := by
  induction ops generalizing rs with
  | nil => rfl
  | cons o ops ih =>
    cases rs with
    | nil => cases h
    | cons r rs => exact congrArg (_ :: ·) (ih (Nat.succ.inj h))

/-- Settles O42: each of the two runs has made the same nineteen writes, and a list of writes made twice stores what
it stores once. -/
theorem configureIsIdempotent : Obligations.ConfigureIsIdempotent := by
  intro mac ip gw sn s t u n m hm hst ht htu hu
  obtain ⟨hcfg, htchip, rs, hrs, httrace⟩ := hst.configure_done hm ht
  obtain ⟨-, huchip, qs, hqs, hutrace⟩ := htu.configure_done ht hu
  rw [hcfg] at huchip hqs hutrace
  refine ⟨fun a => ?_, ?_⟩
  · rw [huchip, htchip, memRead_chipWrites_twice]
  · rw [hutrace, httrace, List.drop_left, List.drop_left, busTrace_map_sent _ hqs, busTrace_map_sent _ hrs]

/-! ### DISABLE_ECHO -/

theorem Continues.disableEcho_accepted {s : State} (hm : s.mode = .idle) :
    Continues .disableEcho 1 s (s.midway (.disableEcho .readMr) { s.x with cmd := opDisableEcho } [] [] s.dest s.src) :=
  .accepted hm rfl (State.accept_eq_midway ..)

/-- Settles O43: acceptance, the read of MR, its write with the ping-block bit set, and the response; or acceptance and
the failed read. -/
theorem disableEchoCompletes : Obligations.DisableEchoCompletes := by
  refine fun s hm => ⟨fun r w hr => ?_, fun b hb => ?_⟩
  · have hread := (Continues.disableEcho_accepted hm).append (.read (p' := .disableEcho .writeMr)
      (x' := { s.x with cmd := opDisableEcho, mrv := r.r3 }) (rs := []) hr rfl rfl rfl
      fun _ hu => State.setRegs_goto_of_x hu)
    have hwrite := hread.append (.write (p' := .disableEcho .respond) hr rfl rfl rfl fun _ hu => State.goto_of_x hu)
    exact hwrite.completes (.last (exec_respond (.disableEcho .respond) rfl rfl rfl) (State.respond_midway hm) rfl)
  · refine .cons (exec_idle hm rfl) rfl (.last (exec_read_fails (.disableEcho .readMr) rfl rfl rfl hb) ?_ rfl)
    apply State.eq_of_fields
    simp [acceptedState, BlockFault.code, opDisableEcho, State.nextAnswer_eq_upcoming, hb]

/-- A DISABLE_ECHO that leaves the block idle has read MR and written it back with the ping-block bit set (R123). -/
theorem Completes.disableEcho_done {n : Nat} {s t : State} (hm : s.mode = .idle) (hc : Completes .disableEcho n s t)
    (ht : t.mode = .idle) :
    t.cfg = s.cfg ∧ ∃ mrv : Byte, t.chip = chipWrites s.chip [.wr s.cfg.addrMr (mrv ||| s.cfg.mrPb)] := by
  have hok := State.not_faultedSince_of_idle (s := s) ht
  obtain ⟨_, hc⟩ := hc.after_continues (.disableEcho_accepted hm)
  obtain ⟨_, r, hr, hc⟩ := hc.after_read (p' := .disableEcho .writeMr) (f := fun v x => { x with mrv := v }) hok
    s.repliesWith_nil rfl rfl rfl
  obtain ⟨_, w, -, hc⟩ := hc.after_write (p' := .disableEcho .respond) hok hr rfl rfl rfl
  rw [hc.eq_of_exec (exec_respond (.disableEcho .respond) rfl rfl rfl) rfl]
  exact ⟨rfl, r.r3, rfl⟩

/-! ### ENABLE_RAW -/

/-- An ENABLE_RAW that answers true has made its four writes and read the status 0x42 (R161). -/
theorem Completes.enableRaw_true {n : Nat} {s t : State} (hm : s.mode = .idle) (hc : Completes .enableRaw n s t)
    (ht : t.responses = s.responses ++ [.bool true]) :
    t.mode = .idle ∧ t.sock = .opened ∧ t.x.stat = 0x42#8 ∧
      t.chip = chipWrites s.chip [.wr s.cfg.addrRmsr s.cfg.msrSock0All, .wr s.cfg.addrTmsr s.cfg.msrSock0All,
        .wr s.cfg.addrS0Mr s.cfg.s0MrMacraw, .wr s.cfg.addrS0Cr s.cfg.cmdOpen] := by
  have hok := State.not_faultedSince_of_bool ht
  have haccept : Continues .enableRaw 1 s
      (s.midway (.enableRaw .rmsr) { s.x with cmd := opEnableRaw } [] [] s.dest s.src) :=
    .accepted hm rfl (State.accept_eq_midway ..)
  obtain ⟨_, hc⟩ := hc.after_continues haccept
  obtain ⟨_, w0, hr, hc⟩ := hc.after_write (p' := .enableRaw .tmsr) hok s.repliesWith_nil rfl rfl rfl
  obtain ⟨_, w1, hr, hc⟩ := hc.after_write (p' := .enableRaw .sockMode) hok hr rfl rfl rfl
  obtain ⟨_, w2, hr, hc⟩ := hc.after_write (p' := .enableRaw .openCmd) hok hr rfl rfl rfl
  obtain ⟨_, w3, hr, hc⟩ := hc.after_write (p' := .enableRaw .status) hok hr rfl rfl rfl
  obtain ⟨_, r, hr, hc⟩ := hc.after_read (p' := .enableRaw .check) (f := fun v x => { x with stat := v }) hok hr
    rfl rfl rfl
  by_cases hraw : rawActive r.r3 = true
  · obtain ⟨_, hc⟩ := hc.after_continues (.one (exec_compute (.enableRaw .check) rfl rfl (if_pos hraw)) rfl)
    rw [hc.eq_of_exec (exec_respond (.enableRaw .respondTrue) rfl rfl rfl) rfl]
    exact ⟨rfl, rfl, (rawActive_iff _).1 hraw, rfl⟩
  · obtain ⟨_, hc⟩ := hc.after_continues (.compute (p' := .enableRaw .closeCmd) rfl (if_neg hraw))
    obtain ⟨_, w5, -, hc⟩ := hc.after_write (p' := .enableRaw .closed) hok hr rfl rfl rfl
    obtain ⟨_, hc⟩ := hc.after_continues (.one (exec_compute (.enableRaw .closed) rfl rfl rfl) rfl)
    rw [hc.eq_of_exec (exec_respond (.enableRaw .respondFalse) rfl rfl rfl) rfl] at ht
    simp [State.midway] at ht

/-! ### The obligations: the boot sequence -/

/-- Settles O54: what the three runs have stored, one after the other; the two reads store nothing. -/
theorem bootStoresExactlyTheStatedRegisters : Obligations.BootStoresExactlyTheStatedRegisters := by
  intro mac ip gw sn s s1 s2 s3 n1 n2 n3 hm hconfigure h1 hecho h2 hraw hresp
  obtain ⟨hcfg1, hchip1, -⟩ := hconfigure.configure_done hm h1
  obtain ⟨hcfg2, mrv, hchip2⟩ := hecho.disableEcho_done h1 h2
  obtain ⟨hidle, hsock, hstat, hchip3⟩ := hraw.enableRaw_true h2 hresp
  refine ⟨hidle, hsock, hstat, mrv, ?_⟩
  rw [chipWrites_append, ← hchip1, hchip3, hchip2, hcfg2, hcfg1]
  rfl

end Sys2Proof.Machine

/-! ## Ring arithmetic

Translation, advance and the split of a run (O55 to O58) are facts about ring offsets; `map_ringSplit` is R155, for
whatever is done at each offset. -/

namespace Sys2Proof.Machine

/-! ### Ring offsets -/

/-- A ring that R10 admits does not wrap round the address space, so translation only takes the offset (R141, R142). -/
theorem ringAddress_toNat {base : Addr} (hbase : base.toNat + 8192 ≤ 65536) (p : U16) :
    (base + (p &&& Config.ringMask)).toNat = base.toNat + p.toNat % 8192 := by
  rw [BitVec.toNat_add, ringMask_toNat, Nat.mod_eq_of_lt (by omega)]

theorem ringSplit_of_gt {off n : Nat} (h : off + n > 8192) : ringSplit off n = (8192 - off, n - (8192 - off)) :=
  if_pos h

theorem ringSplit_of_le {off n : Nat} (h : off + n ≤ 8192) : ringSplit off n = (n, 0) :=
  if_neg (Nat.not_lt.2 h)

/-- A split run visits the ring offsets of the unsplit run modulo RING_SIZE, in the same order (R155). -/
theorem map_ringSplit {α : Type} (f : Nat → α) {off n : Nat} (hoff : off < 8192) (hn : n ≤ 8192) :
    ((List.range (ringSplit off n).1).map fun i => f (off + i)) ++ (List.range (ringSplit off n).2).map f =
      (List.range n).map fun i => f ((off + i) % 8192) := by
  conv_rhs => rw [← ringSplit_sum off n hoff, List.range_add, List.map_append, List.map_map]
  refine congrArg₂ _ (List.map_congr_left fun i hi => ?_) (List.map_congr_left fun j hj => ?_)
  · rw [ringSplit_tail off n i hoff (List.mem_range.1 hi)]
  · rw [Function.comp_apply, ringSplit_base off n j hoff hn (List.mem_range.1 hj)]

/-! ### The obligations: ring arithmetic -/

/-- Settles O55. -/
theorem ringTranslationStaysInTheRing : Obligations.RingTranslationStaysInTheRing := by
  intro c p hwf
  obtain ⟨-, hrx, htx, -, -⟩ := Params.wf_elim hwf
  have hrx' : (rxPhys c p).toNat = _ := ringAddress_toNat hrx p
  have htx' : (txPhys c p).toNat = _ := ringAddress_toNat htx p
  exact ⟨hrx', by omega, htx', by omega⟩

/-- Settles O56: RING_SIZE divides 65536, so masking forgets the overflow. -/
theorem pointerAdvanceWraps : Obligations.PointerAdvanceWraps := by
  intro p n
  have hsum : (advancePtr p n).toNat = (p.toNat + n.toNat) % 65536 := BitVec.toNat_add p n
  have hmask : ∀ q : U16, (q &&& 0x1FFF#16).toNat = q.toNat % 8192 := ringMask_toNat
  refine ⟨hsum, ?_⟩
  rw [hmask, hmask, hsum]
  omega

/-- Settles O57: the two branches of the split; and the checks in front of a frame command's split bound its run. -/
theorem runsSplitAtMostOnce : Obligations.RunsSplitAtMostOnce := by
  refine ⟨fun off n hoff => ⟨ringSplit_of_gt, ringSplit_of_le, ringSplit_sum off n hoff, fun hn => ?_⟩,
    fun s hinv => ⟨fun hm => ?_, fun hm => ?_⟩⟩
  · obtain ⟨htail, hbase, -⟩ := ringSplit_bounds off n hoff hn
    exact ⟨hbase, htail⟩
  · obtain ⟨-, -, -, -, -, hlen, -⟩ := hinv.of_busy hm
    have hhdr : s.x.hdr.toNat + 2 ≤ 8192 := by simpa [headerTooLong, Config.ringSize, Config.hdrLen] using hlen
    omega
  · obtain ⟨-, -, -, ⟨-, hlen⟩, -⟩ := hinv.of_busy hm
    simpa [frameTooLong, Config.ringSize] using hlen

/-- Settles O58: the addresses are those of the ring offsets, each above the base. -/
theorem splitRunsAreTransparent : Obligations.SplitRunsAreTransparent := by
  intro base off n hoff hn
  simpa only [Nat.add_assoc] using map_ringSplit (base + ·) hoff hn

end Sys2Proof.Machine

/-! ## RECEIVE_FRAME

The procedure in four parts, each from one position to another in the middle of the command: the counter, the pointer
with the header, the checks with the payload, and the end (O49). Each says what it reads of the registers before it (CAP,
and the header's values) as equations, so that the parts compose whatever the other registers hold. -/

namespace Sys2Proof.Machine

/-! ### The exchanges of a procedure, counted -/

@[simp] theorem read16_length (a : Addr) : (read16 a).length = 2 := rfl

@[simp] theorem write16_length (a : Addr) (v : U16) : (write16 a v).length = 2 := rfl

@[simp] theorem rxReads_length (c : Params) (off n : Nat) : (rxReads c off n).length = n := by simp [rxReads]

@[simp] theorem txWrites_length (c : Params) (off : Nat) (data : List Byte) :
    (txWrites c off data).length = data.length := by simp [txWrites]

/-! ### Read16 and Write16 as one -/

section
variable {s : State} {i : Instr} {p p' p'' : SeqStep} {x : Regs} {ops : List BusOp} {rs : List Reply}
  {dest : Memory} {src : List Byte} {h l : Reply} {a : Addr} (hr : s.repliesWith (rs ++ [h, l]))
  (hl : ops.length = rs.length)
include hr hl

/-- Both exchanges of Read16 (R104). -/
theorem Continues.reads16 {f : U16 → Regs → Regs} (hi : p.instr (s.midway p x ops rs dest src) = i)
    (hhi : p.action (s.midway p x ops rs dest src) = Machine.readHi a p')
    (hi' : p'.instr (s.midway p' { x with hi16 := h.r3 } (ops ++ [.rd a]) (rs ++ [h]) dest src) = i)
    (hlo : p'.action (s.midway p' { x with hi16 := h.r3 } (ops ++ [.rd a]) (rs ++ [h]) dest src) =
      Machine.readLo a f p'') :
    Continues i 2 (s.midway p x ops rs dest src)
      (s.midway p'' (f (join16 h.r3 l.r3) { x with hi16 := h.r3 }) (ops ++ read16 a) (rs ++ [h, l]) dest src) := by
  have hrun := (Continues.readHi hr hl hi hhi).append
    (.readLo (rest := []) (r := l) (by simpa using hr) (by simp [hl]) hi' hlo)
  simpa [read16] using hrun

/-- Both exchanges of Write16 (R105). -/
theorem Continues.writes16 {v : U16} (hi : p.instr (s.midway p x ops rs dest src) = i)
    (hhi : p.action (s.midway p x ops rs dest src) = Machine.writeHi a v p')
    (hi' : p'.instr (s.midway p' x (ops ++ [.wr a (hiByte v)]) (rs ++ [h]) dest src) = i)
    (hlo : p'.action (s.midway p' x (ops ++ [.wr a (hiByte v)]) (rs ++ [h]) dest src) = Machine.writeLo a v p'') :
    Continues i 2 (s.midway p x ops rs dest src)
      (s.midway p'' x (ops ++ write16 a v) (rs ++ [h, l]) dest src) := by
  have hrun := (Continues.writeHi hr hl hi hhi).append
    (.writeLo (rest := []) (r := l) (by simpa using hr) (by simp [hl]) hi' hlo)
  simpa [write16] using hrun

end

/-! ### The payload loops -/

section
variable {s : State} {n index : Nat} {a : Addr} {next : SeqStep}

theorem payloadLoop_of_lt (hi : s.x.i.toNat < n) (hcap : index < s.x.cap.toNat) :
    payloadLoop n index a next s = .read a fun v t => (t.storeDest index v).bump := by
  rw [payloadLoop, if_pos hi, if_pos hcap]

theorem payloadLoop_of_le (hi : n ≤ s.x.i.toNat) : payloadLoop n index a next s = .compute (s.enter next) :=
  if_neg hi.not_gt

end

/-- A payload loop, entered with I = 0, which leaving it restores (log 28): DEST takes one byte at each pass (R184). -/
theorem Continues.payloadLoop {s : State} {i : Instr} {p next : SeqStep} {x : Regs} {ops : List BusOp}
    {rs qs : List Reply} {dest : Memory} {src : List Byte} {n index : Nat} {a : Nat → Addr} (hn : n < 131072)
    (hq : qs.length = n) (hcap : index + n ≤ x.cap.toNat)
    (hi : ∀ (u : State) (j : BitVec 17), u.x = { x with i := j } → p.instr u = i)
    (ha : ∀ (u : State) (j : BitVec 17), u.cfg = s.cfg → u.x = { x with i := j } →
      p.action u = Machine.payloadLoop n (index + j.toNat) (a j.toNat) next u)
    (hx : x.i = 0#17) (hl : ops.length = rs.length) (hr : s.repliesWith (rs ++ qs)) :
    Continues i (n + 1) (s.midway p x ops rs dest src)
      (s.midway next x (ops ++ (List.range n).map fun k => .rd (a k)) (rs ++ qs)
        (memWriteList dest index (qs.map (·.r3))) src) := by
  have hlen : ((List.range n).map fun k => BusOp.rd (a k)).length = n := by simp
  have hloop := Continues.read_loop (i := i) (q := p) ((List.range n).map fun k => .rd (a k)) qs
    (s.midway p x ops rs dest src) 0 index (hlen.trans hq.symm) rfl (State.repliesWith_midway hr) hx
    fun k hk u hcfg _ _ hux => by
      rw [hlen] at hk
      have hj : (BitVec.ofNat 17 (0 + k)).toNat = k := by rw [Nat.zero_add]; exact index_toNat (by omega)
      have hidx : u.x.i.toNat = k := by rw [hux]; exact hj
      have hucap : u.x.cap = x.cap := by rw [hux]; rfl
      refine ⟨hi u _ hux, a k, by simp, ?_⟩
      rw [ha u _ hcfg hux, hj, payloadLoop_of_lt (by omega) (by rw [hucap]; omega)]
  rw [State.midway_afterBus _ _ hl, hlen, Nat.zero_add] at hloop
  have hleave : Continues i 1
      (s.midway p { x with i := BitVec.ofNat 17 n } (ops ++ (List.range n).map fun k => .rd (a k)) (rs ++ qs)
        (memWriteList dest index (qs.map (·.r3))) src)
      (s.midway next { x with i := 0#17 } (ops ++ (List.range n).map fun k => .rd (a k)) (rs ++ qs)
        (memWriteList dest index (qs.map (·.r3))) src) :=
    .compute (hi _ _ rfl) ((ha _ _ State.midway_cfg rfl).trans (payloadLoop_of_le (index_toNat hn).ge))
  rw [← hx] at hleave
  exact hloop.append hleave

/-! ### RECEIVE_FRAME -/

/-- The two header bytes are next to each other in the ring, whether or not the header straddles the ring end (R182). -/
theorem rxReads_header (c : Params) (p : Nat) :
    rxReads c p 2 = [.rd (addrPlus c.rxBase (p % 8192))] ++
      [.rd (if headerStraddles (p % 8192) then c.rxBase else addrPlus c.rxBase (p % 8192 + 1))] := by
  have hstraddles : headerStraddles (p % 8192) = decide (p % 8192 = 8191) := by
    rw [headerStraddles, Config.hdrLen, Config.ringSize, decide_eq_decide]
    omega
  have hnext : rxReads c p 2 = [.rd (addrPlus c.rxBase (p % 8192)), .rd (addrPlus c.rxBase ((p + 1) % 8192))] := rfl
  rw [hnext, hstraddles]
  by_cases hlast : p % 8192 = 8191
  · rw [show (p + 1) % 8192 = 0 by omega]
    simp [hlast]
  · rw [show (p + 1) % 8192 = p % 8192 + 1 by omega]
    simp [hlast]

/-- The payload reads fall into those of the tail part and those of the base part (R154, R155). -/
theorem rxReads_ringSplit {c : Params} {off n : Nat} (hoff : off < 8192) (hn : n ≤ 8192) :
    rxReads c off n = ((List.range (ringSplit off n).1).map fun i => .rd (addrPlus c.rxBase (off + i))) ++
      (List.range (ringSplit off n).2).map fun j => .rd (addrPlus c.rxBase j) :=
  (map_ringSplit (fun o => BusOp.rd (addrPlus c.rxBase o)) hoff hn).symm

/-- The payload starts two bytes after the header (R182). -/
theorem ringOffset_header (p : U16) :
    ringOffset (BitVec.ofNat 16 ((ringOffset p).toNat + Config.hdrLen)) =
      BitVec.ofNat 13 ((p.toNat % 8192 + 2) % 8192) := by
  apply BitVec.eq_of_toNat_eq
  simp [Config.hdrLen]

section
variable {s : State} {x : Regs} {ops : List BusOp} {rs : List Reply} {dest : Memory} {src : List Byte}
  {cap : U16} (hc : x.cap = cap) (hl : ops.length = rs.length)
include hc hl

/-- RECEIVE_FRAME reads the counter and finds a frame (R181, R183 check 1). -/
theorem Continues.receiveFrame_counter {ch cl : Reply} (hcnt : join16 ch.r3 cl.r3 ≠ 0#16)
    (hr : s.repliesWith (rs ++ [ch, cl])) :
    Continues (.receiveFrame cap) 3 (s.midway (.receiveFrame .cntHi) x ops rs dest src)
      (s.midway (.receiveFrame .ptrHi) { x with cnt := join16 ch.r3 cl.r3, hi16 := ch.r3 }
        (ops ++ read16 s.cfg.addrS0RxRsr) (rs ++ [ch, cl]) dest src) := by
  subst hc
  have hqueued : frameQueued (join16 ch.r3 cl.r3) = true := by rwa [frameQueued_eq, decide_eq_true_iff]
  exact Continues.append (n := 2) (m := 1)
    (.reads16 (f := fun v x => { x with cnt := v }) (p' := .receiveFrame .cntLo) hr hl rfl rfl rfl rfl)
    (.compute (p := .receiveFrame .checkEmpty) rfl (if_pos hqueued))

/-- RECEIVE_FRAME reads the pointer and the header (R181, R182). -/
theorem Continues.receiveFrame_header {ph pl hh hlo : Reply} {ptr : U16} (hptr : ptr = join16 ph.r3 pl.r3)
    (hr : s.repliesWith (rs ++ [ph, pl] ++ [hh] ++ [hlo])) :
    Continues (.receiveFrame cap) 6 (s.midway (.receiveFrame .ptrHi) x ops rs dest src)
      (s.midway (.receiveFrame .checkLength)
        { x with
          ptr := ptr, off := BitVec.ofNat 13 ptr.toNat, hi := hh.r3, lo := hlo.r3
          hdr := headerValue s.cfg hh.r3 hlo.r3, doff := BitVec.ofNat 13 ((ptr.toNat % 8192 + 2) % 8192)
          hi16 := ph.r3 }
        (ops ++ read16 s.cfg.addrS0RxRd ++ rxReads s.cfg ptr.toNat 2) (rs ++ [ph, pl] ++ [hh] ++ [hlo]) dest src) := by
  subst hc hptr
  rw [rxReads_header, ← ringOffset_header, ← ringOffset_eq, ← ringOffset_toNat, ← List.append_assoc]
  refine Continues.append (n := 2) (m := 4) (.reads16 (f := fun v x => { x with ptr := v })
    (p' := .receiveFrame .ptrLo) hr.of_append.of_append hl rfl rfl rfl rfl) ?_
  have hl' : (ops ++ read16 s.cfg.addrS0RxRd).length = (rs ++ [ph, pl]).length := by simp [hl]
  refine Continues.append (n := 1) (m := 3) (.compute (p' := .receiveFrame .hdrHi)
    (x' := { x with ptr := join16 ph.r3 pl.r3, off := ringOffset (join16 ph.r3 pl.r3), hi16 := ph.r3 }) rfl rfl) ?_
  refine Continues.append (n := 1) (m := 2) (.read (p' := .receiveFrame .hdrLo) hr.of_append hl' rfl rfl
    fun _ hu => State.setRegs_goto_of_x hu) ?_
  refine Continues.append (n := 1) (m := 1) (.read (p' := .receiveFrame .header) hr (by simp [hl]) rfl rfl
    fun _ hu => State.setRegs_goto_of_x hu) ?_
  exact .compute (p' := .receiveFrame .checkLength) rfl rfl

/-- RECEIVE_FRAME's two payload loops, the tail part and the base part (R184). -/
theorem Continues.receiveFrame_loops {u l : Nat} {tail base : List Reply} (hupper : x.upper.toNat = u)
    (hleft : x.left.toNat = l) (htail : tail.length = u) (hbase : base.length = l) (hcap : u + l ≤ cap.toNat)
    (hx : x.i = 0#17) (hr : s.repliesWith (rs ++ tail ++ base)) :
    Continues (.receiveFrame cap) (u + 1 + (l + 1)) (s.midway (.receiveFrame .tail) x ops rs dest src)
      (s.midway (.receiveFrame .advance) x
        (ops ++ ((List.range u).map fun i => .rd (addrPlus s.cfg.rxBase (x.doff.toNat + i))) ++
          (List.range l).map fun j => .rd (addrPlus s.cfg.rxBase j)) (rs ++ tail ++ base)
        (memWriteList (memWriteList dest 0 (tail.map (·.r3))) u (base.map (·.r3))) src) := by
  subst hc hupper hleft
  have hupper := x.upper.isLt
  have hleft := x.left.isLt
  refine Continues.append (.payloadLoop (next := .receiveFrame .base)
    (a := fun i => addrPlus s.cfg.rxBase (x.doff.toNat + i)) (by omega) htail (by omega)
    (fun u j hu => by rw [SeqStep.instr, hu]) (fun u j hc hu => ?_) hx hl hr.of_append)
    (.payloadLoop (next := .receiveFrame .advance) (a := addrPlus s.cfg.rxBase) (by omega) hbase (by omega)
    (fun u j hu => by rw [SeqStep.instr, hu]) (fun u j hc hu => ?_) hx (by simp [hl, htail]) hr)
  · rw [SeqStep.action, receiveFrameAction, hu, hc, Nat.zero_add]
  · rw [SeqStep.action, receiveFrameAction, hu, hc]

/-- RECEIVE_FRAME's header passes both checks, and the payload goes to DEST, in one run or in two (R183, R184). -/
theorem Continues.receiveFrame_payload {doff n : Nat} {payload : List Reply} (hdoff : x.doff.toNat = doff)
    (hn : x.hdr.toNat = n) (hlen : n + 2 ≤ 8192) (hcap : n ≤ cap.toNat) (hpayload : payload.length = n)
    (hr : s.repliesWith (rs ++ payload)) :
    Continues (.receiveFrame cap) (n + 5) (s.midway (.receiveFrame .checkLength) x ops rs dest src)
      (s.midway (.receiveFrame .advance)
        { x with
          upper := BitVec.ofNat 14 (ringSplit doff n).1, left := BitVec.ofNat 16 (ringSplit doff n).2, i := 0#17 }
        (ops ++ rxReads s.cfg doff n) (rs ++ payload) (memWriteList dest 0 (payload.map (·.r3))) src) := by
  subst hc hdoff hn
  have hshort : ¬headerTooLong x.hdr = true := by simpa [headerTooLong, Config.hdrLen, Config.ringSize] using hlen
  have hfits : ¬overflowsDest x.hdr x.cap = true := by simpa [overflowsDest] using hcap
  have hsum := ringSplit_sum x.doff.toNat x.hdr.toNat x.doff.isLt
  obtain ⟨hupper, hleft⟩ := ringSplit_fits (off := x.doff.toNat) (n := x.hdr.toNat) x.doff.isLt (by omega)
  obtain ⟨tail, base, rfl, htail, hbase⟩ := exists_append_of_length (hpayload.trans hsum.symm)
  have hlengthOk : Continues (.receiveFrame x.cap) 1 (s.midway (.receiveFrame .checkLength) x ops rs dest src)
      (s.midway (.receiveFrame .checkCapacity) x ops rs dest src) := .compute rfl (if_neg hshort)
  have hcapacityOk := hlengthOk.append (.compute (p' := .receiveFrame .split) rfl (if_neg hfits))
  have hsplit := hcapacityOk.append (.compute (p' := .receiveFrame .tail)
    (x' := { x with
      upper := BitVec.ofNat 14 (ringSplit x.doff.toNat x.hdr.toNat).1
      left := BitVec.ofNat 16 (ringSplit x.doff.toNat x.hdr.toNat).2, i := 0#17 }) rfl rfl)
  have hloops := hsplit.append (.receiveFrame_loops (by rfl) hl hupper hleft htail hbase (hsum.trans_le hcap) rfl
    (by simpa using hr))
  have hsteps : x.hdr.toNat + 5 = 1 + 1 + 1 +
      ((ringSplit x.doff.toNat x.hdr.toNat).1 + 1 + ((ringSplit x.doff.toNat x.hdr.toNat).2 + 1)) := by omega
  rw [rxReads_ringSplit x.doff.isLt (by omega), List.map_append, memWriteList_append, List.length_map, htail,
    Nat.zero_add, ← List.append_assoc, ← List.append_assoc, hsteps]
  exact hloops

/-- RECEIVE_FRAME advances the pointer, acknowledges and answers the counter (R185 to R187). -/
theorem Completes.receiveFrame_ends {w0 w1 w2 : Reply} (hm : s.mode = .idle)
    (hr : s.repliesWith (rs ++ [w0, w1, w2])) :
    Completes (.receiveFrame cap) 4 (s.midway (.receiveFrame .advance) x ops rs dest src)
      { s.afterBus (ops ++ write16 s.cfg.addrS0RxRd (x.ptr + x.cnt) ++ [.wr s.cfg.addrS0Cr s.cfg.cmdRecv])
          (rs ++ [w0, w1, w2]) with
        dest := dest, src := src, x := { x with nptr := x.ptr + x.cnt }
        responses := s.responses ++ [.count x.cnt] } := by
  subst hc
  rw [show [w0, w1, w2] = [w0, w1] ++ [w2] from rfl, ← List.append_assoc] at hr ⊢
  have hadvance : Continues (.receiveFrame x.cap) 1 (s.midway (.receiveFrame .advance) x ops rs dest src)
    (s.midway (.receiveFrame .rdHi) { x with nptr := x.ptr + x.cnt } ops rs dest src) := .compute rfl rfl
  have hpointer := hadvance.append (.writes16 (p' := .receiveFrame .rdLo) (p'' := .receiveFrame .acknowledge)
    hr.of_append hl rfl rfl rfl rfl)
  have hack := hpointer.append (.write (p' := .receiveFrame .respond) hr (by simp [hl]) rfl rfl
    fun _ hu => State.goto_of_x hu)
  exact hack.completes (m := 0)
    (.last (exec_respond (.receiveFrame .respond) rfl rfl rfl) (State.respond_midway hm) rfl)

end

/-- Settles O49: acceptance, the counter, the pointer and the header, the checks and the payload, and the end. -/
theorem receiveFrameCompletes : Obligations.ReceiveFrameCompletes := by
  intro cap s ch cl ph pl hh hl w0 w1 w2 payload cnt ptr hdr doff hm hs hcnt hptr hhdr hdoff hne hlen hcap hpayload hr
  subst hcnt hdoff
  have haccept := Continues.accepted (i := .receiveFrame cap) (p := .receiveFrame .cntHi)
    (x := { s.x with cmd := opReceiveFrame, cap := cap }) hm rfl
    (by rw [acceptedState, State.requireOpen_accept hs, State.accept_eq_midway])
  have hcounter := haccept.append (.receiveFrame_counter (ch := ch) (cl := cl) (by rfl) (by rfl) hne
    (State.repliesWith.of_append (qs := [ph, pl, hh, hl]) hr.of_append.of_append))
  have hheader := hcounter.append (.receiveFrame_header (hh := hh) (hlo := hl) (by rfl) (by rfl) hptr
    hr.of_append.of_append)
  have hread := hheader.append (.receiveFrame_payload (n := hdr.toNat) (doff := (ptr.toNat % 8192 + 2) % 8192) (by rfl)
    (by simp) (by simp) (by rw [hhdr]) hlen hcap hpayload hr.of_append)
  have hrun := hread.completes (.receiveFrame_ends (by rfl) (by simp [hpayload]; omega) hm hr)
  rw [show hdr.toNat + 19 = 1 + 3 + 6 + (hdr.toNat + 5) + 4 by omega, hhdr]
  rw [hhdr] at hrun
  exact hrun

end Sys2Proof.Machine

/-! ## SEND_FRAME

The procedure in parts, each from one position to another in the middle of the command: the free-space polls, the pointer
with the split, the data, the pointer's advance with the send command, and the completion polls. Put together they say
where the command stands, from its acceptance on, after each group of replies; with the response that is O50. -/

namespace Sys2Proof.Machine

/-! ### The frame loops -/

section
variable {s : State} {n index : Nat} {a : Addr} {next : SeqStep}

theorem frameLoop_of_lt {v : Byte} (hi : s.x.i.toNat < n) (hv : s.src[index]? = some v) :
    frameLoop n index a next s = .write a v fun t => t.bump := by
  rw [frameLoop, if_pos hi, hv]

theorem frameLoop_of_le (hi : n ≤ s.x.i.toNat) : frameLoop n index a next s = .compute (s.enter next) :=
  if_neg hi.not_gt

end

/-- With the registers `x` but for I, the position `p` of the command `i` makes the writes `w`, one at each pass, and
then goes on at `next`. -/
structure FrameLoop (c : Params) (i : Instr) (p next : SeqStep) (x : Regs) (src : List Byte) (w : List BusOp) :
    Prop where
  length_lt : w.length < 131072
  instr : ∀ (u : State) (j : BitVec 17), u.src = src → u.x = { x with i := j } → p.instr u = i
  pass : ∀ (u : State) (k : Nat) (h : k < w.length), u.cfg = c → u.src = src →
    u.x = { x with i := BitVec.ofNat 17 k } → ∃ a v, w[k] = .wr a v ∧ p.action u = .write a v fun t => t.bump
  leave : ∀ u : State, u.cfg = c → u.x = { x with i := BitVec.ofNat 17 w.length } →
    p.action u = .compute (u.enter next)

section
variable {s : State} {i : Instr} {p next : SeqStep} {x : Regs} {ops w : List BusOp} {rs qs : List Reply} {dest : Memory}
  {src : List Byte} (h : FrameLoop s.cfg i p next x src w) (hx : x.i = 0#17) (hl : ops.length = rs.length)
include h hx hl

/-- The loop makes as many of its writes as replies are given. -/
theorem FrameLoop.passes (hq : qs.length ≤ w.length) (hr : s.repliesWith (rs ++ qs)) :
    Continues i qs.length (s.midway p x ops rs dest src)
      (s.midway p { x with i := BitVec.ofNat 17 qs.length } (ops ++ w.take qs.length) (rs ++ qs) dest src) := by
  have hlen : (w.take qs.length).length = qs.length := List.length_take_of_le hq
  have hloop := Continues.write_loop (i := i) (q := p) (w.take qs.length) qs (s.midway p x ops rs dest src) 0 hlen rfl
    (State.repliesWith_midway hr) hx fun k hk u hcfg _ hsrc hux => by
      rw [Nat.zero_add] at hux
      obtain ⟨a, v, hw, ha⟩ := h.pass u k (by omega) hcfg hsrc hux
      exact ⟨h.instr u _ hsrc hux, a, v, by rwa [List.getElem_take], ha⟩
  rwa [State.midway_afterBus _ _ hl, hlen, Nat.zero_add] at hloop

/-- The loop, run to its end, leaves I at 0 (log 28). -/
theorem FrameLoop.run (hq : qs.length = w.length) (hr : s.repliesWith (rs ++ qs)) :
    Continues i (w.length + 1) (s.midway p x ops rs dest src) (s.midway next x (ops ++ w) (rs ++ qs) dest src) := by
  have hpasses := h.passes hx hl hq.le hr (dest := dest)
  rw [hq, List.take_length] at hpasses
  have hleave : Continues i 1 (s.midway p { x with i := BitVec.ofNat 17 w.length } (ops ++ w) (rs ++ qs) dest src)
      (s.midway next { x with i := 0#17 } (ops ++ w) (rs ++ qs) dest src) :=
    .compute (h.instr _ _ rfl rfl) (h.leave _ rfl rfl)
  rw [← hx] at hleave
  exact hpasses.append hleave

end

/-! ### The data of a frame -/

theorem txWrites_mod (c : Params) (p : Nat) (data : List Byte) : txWrites c (p % 8192) data = txWrites c p data := by
  simp [txWrites, Config.ringSize]

theorem txWrites_getElem {c : Params} {off : Nat} {data : List Byte} {k : Nat} (h : k < (txWrites c off data).length) :
    (txWrites c off data)[k] =
      .wr (addrPlus c.txBase ((off + k) % 8192)) (data[k]'(by simpa using h)) := by
  simp [txWrites, Config.ringSize]

/-- The registers that SEND_FRAME's split leaves, of a frame that fits the ring (R202). -/
structure SplitFor (x : Regs) (src : List Byte) : Prop where
  length_le : src.length ≤ 8192
  upper : x.upper.toNat = (ringSplit x.off.toNat src.length).1
  left : x.left.toNat = (ringSplit x.off.toNat src.length).2

section
variable {x : Regs} {src : List Byte} (h : SplitFor x src)
include h

theorem SplitFor.sum : x.upper.toNat + x.left.toNat = src.length := by
  rw [h.upper, h.left, ringSplit_sum _ _ x.off.isLt]

/-- The tail part of the data, from the split offset on (R202). -/
theorem SplitFor.tail_loop (c : Params) :
    FrameLoop c (.sendFrame x.len src) (.sendFrame .tail) (.sendFrame .base) x src
      ((txWrites c x.off.toNat src).take x.upper.toNat) := by
  have hsum := h.sum
  have hupper := x.upper.isLt
  have hlen : ((txWrites c x.off.toNat src).take x.upper.toNat).length = x.upper.toNat := by simp; omega
  refine ⟨by omega, fun u j hsrc hux => by rw [SeqStep.instr, hux, hsrc], fun u k hk hcfg hsrc hux => ?_,
    fun u hcfg hux => ?_⟩
  · rw [hlen] at hk
    have hidx : u.x.i.toNat = k := by rw [hux]; exact index_toNat (by omega)
    refine ⟨_, _, by rw [List.getElem_take, txWrites_getElem], ?_⟩
    rw [ringSplit_tail _ _ k x.off.isLt (h.upper ▸ hk), SeqStep.action, sendFrameAction,
      frameLoop_of_lt (v := src[k]) (by rw [hidx, hux]; exact hk) (by rw [hidx, hsrc]; simp), hidx, hux, hcfg]
  · rw [hlen] at hux
    exact frameLoop_of_le (by rw [hux]; exact (index_toNat (by omega)).ge)

/-- The base part of the data, from the ring's base on (R202). -/
theorem SplitFor.base_loop (c : Params) :
    FrameLoop c (.sendFrame x.len src) (.sendFrame .base) (.sendFrame .advance) x src
      ((txWrites c x.off.toNat src).drop x.upper.toNat) := by
  have hsum := h.sum
  have hleft := x.left.isLt
  have hlen : ((txWrites c x.off.toNat src).drop x.upper.toNat).length = x.left.toNat := by simp; omega
  refine ⟨by omega, fun u j hsrc hux => by rw [SeqStep.instr, hux, hsrc], fun u k hk hcfg hsrc hux => ?_,
    fun u hcfg hux => ?_⟩
  · rw [hlen] at hk
    have hidx : u.x.i.toNat = k := by rw [hux]; exact index_toNat (by omega)
    have hupper : u.x.upper = x.upper := by rw [hux]
    refine ⟨_, _, by rw [List.getElem_drop, txWrites_getElem], ?_⟩
    have haddr : (x.off.toNat + (x.upper.toNat + k)) % 8192 = k := by
      rw [h.upper]; exact ringSplit_base _ _ k x.off.isLt h.length_le (h.left ▸ hk)
    rw [haddr, SeqStep.action, sendFrameAction, frameLoop_of_lt (v := src[x.upper.toNat + k])
      (by rw [hidx, hux]; exact hk) (by rw [hidx, hsrc, hupper]; simp), hidx, hcfg]
  · rw [hlen] at hux
    exact frameLoop_of_le (by rw [hux]; exact (index_toNat (by omega)).ge)

end

/-! ### SEND_FRAME from position to position -/

/-- What a list of polls of the free-size counter answers, two replies a poll (R201). -/
def pollReplies (polls : List (Reply × Reply)) : List Reply := polls.flatMap fun p => [p.1, p.2]

def pollReads (c : Params) (polls : List (Reply × Reply)) : List BusOp := polls.flatMap fun _ => read16 c.addrS0TxFsr

@[simp] theorem pollReplies_length (polls : List (Reply × Reply)) : (pollReplies polls).length = polls.length * 2 := by
  simp [pollReplies, List.length_flatMap]

@[simp] theorem pollReads_length (c : Params) (polls : List (Reply × Reply)) :
    (pollReads c polls).length = polls.length * 2 := by
  simp [pollReads, List.length_flatMap]

section
variable {s : State} {x : Regs} {ops : List BusOp} {rs : List Reply} {dest : Memory} {src : List Byte}
  {len : U16} (hlen : x.len = len) (hl : ops.length = rs.length)

theorem Continues.sendFrame_accepted {data : List Byte} (hm : s.mode = .idle) (hs : s.sock = .opened)
    (h : len.toNat ≤ 8192) :
    Continues (.sendFrame len data) 1 s
      (s.midway (.sendFrame .fsrHi) { s.x with cmd := opSendFrame, len := len } [] [] s.dest data) :=
  .one ((exec_idle hm rfl).trans
    (congrArg _ (by rw [acceptedState, sendFrameAccepted_of_le hs h, State.accept_eq_midway]; rfl))) rfl

include hlen hl

/-- SEND_FRAME reads the free-size counter (R201). -/
theorem Continues.sendFrame_free {h l : Reply} (hr : s.repliesWith (rs ++ [h, l])) :
    Continues (.sendFrame len src) 2 (s.midway (.sendFrame .fsrHi) x ops rs dest src)
      (s.midway (.sendFrame .checkFree) { x with free := join16 h.r3 l.r3, hi16 := h.r3 }
        (ops ++ read16 s.cfg.addrS0TxFsr) (rs ++ [h, l]) dest src) := by
  subst hlen
  exact .reads16 (f := fun v x => { x with free := v }) (p' := .sendFrame .fsrLo) hr hl rfl rfl rfl rfl

/-- A poll that finds too little free space (R201). -/
theorem Continues.sendFrame_poll {h l : Reply} (hbusy : (join16 h.r3 l.r3).toNat < len.toNat)
    (hr : s.repliesWith (rs ++ [h, l])) :
    Continues (.sendFrame len src) 3 (s.midway (.sendFrame .fsrHi) x ops rs dest src)
      (s.midway (.sendFrame .fsrHi) { x with free := join16 h.r3 l.r3, hi16 := h.r3 }
        (ops ++ read16 s.cfg.addrS0TxFsr) (rs ++ [h, l]) dest src) := by
  have hfree := Continues.sendFrame_free hlen hl hr (dest := dest) (src := src)
  subst hlen
  have hless : ¬enoughFree (join16 h.r3 l.r3) x.len = true := by simpa [enoughFree] using hbusy
  exact hfree.append (.compute (p' := .sendFrame .fsrHi) rfl (if_neg hless))

/-- A poll that finds enough free space (R201). -/
theorem Continues.sendFrame_space {h l : Reply} (hfree : len.toNat ≤ (join16 h.r3 l.r3).toNat)
    (hr : s.repliesWith (rs ++ [h, l])) :
    Continues (.sendFrame len src) 3 (s.midway (.sendFrame .fsrHi) x ops rs dest src)
      (s.midway (.sendFrame .ptrHi) { x with free := join16 h.r3 l.r3, hi16 := h.r3 }
        (ops ++ read16 s.cfg.addrS0TxFsr) (rs ++ [h, l]) dest src) := by
  have hread := Continues.sendFrame_free hlen hl hr (dest := dest) (src := src)
  subst hlen
  have henough : enoughFree (join16 h.r3 l.r3) x.len = true := by simpa [enoughFree] using hfree
  exact hread.append (.compute (p' := .sendFrame .ptrHi) rfl (if_pos henough))

/-- Any number of polls that find too little free space: of the registers, only FREE and Read16's local move (R201). -/
theorem Continues.sendFrame_polls (polls : List (Reply × Reply))
    (hbusy : ∀ p ∈ polls, (join16 p.1.r3 p.2.r3).toNat < len.toNat) (hr : s.repliesWith (rs ++ pollReplies polls)) :
    ∃ free hi16, Continues (.sendFrame len src) (3 * polls.length) (s.midway (.sendFrame .fsrHi) x ops rs dest src)
      (s.midway (.sendFrame .fsrHi) { x with free := free, hi16 := hi16 }
        (ops ++ pollReads s.cfg polls) (rs ++ pollReplies polls) dest src) := by
  induction polls generalizing x ops rs with
  | nil => exact ⟨x.free, x.hi16, by simp [pollReads, pollReplies, Continues]⟩
  | cons p polls ih =>
    have hr : s.repliesWith (rs ++ [p.1, p.2] ++ pollReplies polls) := by simpa [pollReplies] using hr
    have hpoll := Continues.sendFrame_poll hlen hl (hbusy p (by simp)) hr.of_append (dest := dest) (src := src)
    obtain ⟨free, hi16, hrest⟩ := ih (x := { x with free := join16 p.1.r3 p.2.r3, hi16 := p.1.r3 })
      (ops := ops ++ read16 s.cfg.addrS0TxFsr) hlen (by simp [hl]) (fun q hq => hbusy q (by simp [hq])) hr
    refine ⟨free, hi16, ?_⟩
    rw [List.length_cons, Nat.mul_succ, Nat.add_comm]
    simpa [pollReads, pollReplies] using hpoll.append hrest

/-- SEND_FRAME reads the pointer and splits the run (R154, R202). -/
theorem Continues.sendFrame_split {ph pl : Reply} {ptr : U16} (hptr : ptr = join16 ph.r3 pl.r3)
    (hr : s.repliesWith (rs ++ [ph, pl])) :
    Continues (.sendFrame len src) 3 (s.midway (.sendFrame .ptrHi) x ops rs dest src)
      (s.midway (.sendFrame .tail)
        { x with
          ptr := ptr, off := BitVec.ofNat 13 ptr.toNat
          upper := BitVec.ofNat 14 (ringSplit (ptr.toNat % 8192) len.toNat).1
          left := BitVec.ofNat 16 (ringSplit (ptr.toNat % 8192) len.toNat).2, i := 0#17, hi16 := ph.r3 }
        (ops ++ read16 s.cfg.addrS0TxWr) (rs ++ [ph, pl]) dest src) := by
  subst hlen hptr
  rw [← ringOffset_eq, ← ringOffset_toNat]
  exact Continues.append (n := 2) (m := 1)
    (.reads16 (f := fun v x => { x with ptr := v }) (p' := .sendFrame .ptrLo) hr hl rfl rfl rfl rfl)
    (.compute (p := .sendFrame .split) rfl rfl)

/-- SEND_FRAME writes the data, in one run or in two (R155, R202). -/
theorem Continues.sendFrame_data {ws : List Reply} (h : SplitFor x src) (hx : x.i = 0#17) (hws : ws.length = src.length)
    (hr : s.repliesWith (rs ++ ws)) :
    Continues (.sendFrame len src) (src.length + 2) (s.midway (.sendFrame .tail) x ops rs dest src)
      (s.midway (.sendFrame .advance) x (ops ++ txWrites s.cfg x.off.toNat src) (rs ++ ws) dest src) := by
  subst hlen
  have hsum := h.sum
  obtain ⟨tail, base, rfl, htail, hbase⟩ := exists_append_of_length (hws.trans hsum.symm)
  rw [← List.append_assoc] at hr
  have hrun := ((h.tail_loop s.cfg).run hx hl (qs := tail) (dest := dest) (by simp; omega) hr.of_append).append
    ((h.base_loop s.cfg).run hx (qs := base) (by simp [hl]; omega) (by simp; omega) hr)
  simp only [List.append_assoc, List.take_append_drop, List.length_take, List.length_drop, txWrites_length] at hrun
  convert hrun using 1
  omega

/-- SEND_FRAME advances the pointer by LEN and sends (R203, R204). -/
theorem Continues.sendFrame_sends {w0 w1 w2 : Reply} (hr : s.repliesWith (rs ++ [w0, w1] ++ [w2])) :
    Continues (.sendFrame len src) 4 (s.midway (.sendFrame .advance) x ops rs dest src)
      (s.midway (.sendFrame .poll) { x with nptr := x.ptr + len }
        (ops ++ write16 s.cfg.addrS0TxWr (x.ptr + len) ++ [.wr s.cfg.addrS0Cr s.cfg.cmdSend]) (rs ++ [w0, w1] ++ [w2])
        dest src) := by
  subst hlen
  have hadvance : Continues (.sendFrame x.len src) 1 (s.midway (.sendFrame .advance) x ops rs dest src)
    (s.midway (.sendFrame .wrHi) { x with nptr := x.ptr + x.len } ops rs dest src) := .compute rfl rfl
  have hpointer := hadvance.append (.writes16 (p' := .sendFrame .wrLo) (p'' := .sendFrame .sendCmd)
    hr.of_append hl rfl rfl rfl rfl)
  exact hpointer.append (.write (p' := .sendFrame .poll) hr (by simp [hl]) rfl rfl fun _ hu => State.goto_of_x hu)

/-- A completion poll (R204). -/
theorem Continues.sendFrame_status {r : Reply} (hr : s.repliesWith (rs ++ [r])) :
    Continues (.sendFrame len src) 1 (s.midway (.sendFrame .poll) x ops rs dest src)
      (s.midway (.sendFrame .checkIdle) { x with stat := r.r3 } (ops ++ [.rd s.cfg.addrS0Cr]) (rs ++ [r]) dest
        src) := by
  subst hlen
  exact .read (p' := .sendFrame .checkIdle) hr hl rfl rfl fun _ hu => State.setRegs_goto_of_x hu

/-- Any number of completion polls that find the command register busy: of the registers, only STAT moves (R204). -/
theorem Continues.sendFrame_waits (waits : List Reply) (hbusy : ∀ r ∈ waits, r.r3 ≠ s.cfg.cmdIdle)
    (hr : s.repliesWith (rs ++ waits)) :
    ∃ stat, Continues (.sendFrame len src) (2 * waits.length) (s.midway (.sendFrame .poll) x ops rs dest src)
      (s.midway (.sendFrame .poll) { x with stat := stat } (ops ++ waits.map fun _ => .rd s.cfg.addrS0Cr)
        (rs ++ waits) dest src) := by
  induction waits generalizing x ops rs with
  | nil => exact ⟨x.stat, by simp [Continues]⟩
  | cons r waits ih =>
    have hr : s.repliesWith (rs ++ [r] ++ waits) := by simpa using hr
    have hwait : ¬commandIdle s.cfg r.r3 = true := by simpa [commandIdle] using hbusy r (by simp)
    have hpoll := (Continues.sendFrame_status hlen hl hr.of_append (dest := dest) (src := src)).append
      (.compute (p' := .sendFrame .poll) (congrArg (Instr.sendFrame · src) hlen) (if_neg hwait))
    obtain ⟨stat, hrest⟩ := ih (x := { x with stat := r.r3 }) (ops := ops ++ [.rd s.cfg.addrS0Cr]) hlen
      (by simp [hl]) (fun q hq => hbusy q (by simp [hq])) hr
    refine ⟨stat, ?_⟩
    rw [List.length_cons, Nat.mul_succ, Nat.add_comm]
    simpa using hpoll.append hrest

/-- The completion poll that finds the command register idle, and the response (R204, R205). -/
theorem Completes.sendFrame_ends {done : Reply} (hm : s.mode = .idle) (hdone : done.r3 = s.cfg.cmdIdle)
    (hr : s.repliesWith (rs ++ [done])) :
    Completes (.sendFrame len src) 2 (s.midway (.sendFrame .poll) x ops rs dest src)
      { s.afterBus (ops ++ [.rd s.cfg.addrS0Cr]) (rs ++ [done]) with
        dest := dest, src := src, x := { x with stat := done.r3 }, responses := s.responses ++ [.bool true] } := by
  have hidle : commandIdle s.cfg done.r3 = true := by simpa [commandIdle] using hdone
  have hpoll := (Continues.sendFrame_status hlen hl hr (dest := dest) (src := src)).append
    (.compute (p' := .sendFrame .respond) (congrArg (Instr.sendFrame · src) hlen) (if_pos hidle))
  exact hpoll.completes (m := 0)
    (.last (exec_respond (.sendFrame .respond) rfl (congrArg (Instr.sendFrame · src) hlen) rfl)
      (State.respond_midway hm) rfl)

end

/-! ### SEND_FRAME from its acceptance on -/

/-- The working registers after SEND_FRAME's split (R202), from those before the command. -/
def Regs.splitToSend (x : Regs) (len free ptr : U16) (hi16 : Byte) : Regs :=
  { x with
    cmd := opSendFrame, len := len, free := free, ptr := ptr, off := BitVec.ofNat 13 ptr.toNat
    upper := BitVec.ofNat 14 (ringSplit (ptr.toNat % 8192) len.toNat).1
    left := BitVec.ofNat 16 (ringSplit (ptr.toNat % 8192) len.toNat).2, i := 0#17, hi16 := hi16 }

theorem Regs.splitToSend_off (x : Regs) (len free ptr : U16) (hi16 : Byte) :
    (x.splitToSend len free ptr hi16).off.toNat = ptr.toNat % 8192 := by
  simp [Regs.splitToSend]

theorem Regs.splitToSend_splitFor {x : Regs} {src : List Byte} {len free ptr : U16} {hi16 : Byte}
    (hsrc : src.length = len.toNat) (hlen : len.toNat ≤ 8192) : SplitFor (x.splitToSend len free ptr hi16) src := by
  have hoff := x.splitToSend_off len free ptr hi16
  obtain ⟨hupper, hleft⟩ := ringSplit_fits (off := ptr.toNat % 8192) (n := len.toNat) (by omega) hlen
  refine ⟨by omega, ?_, ?_⟩
  · rw [hoff, hsrc]; exact hupper
  · rw [hoff, hsrc]; exact hleft

/-- SEND_FRAME's exchanges up to the send command (R201 to R203). -/
def sendExchanges (c : Params) (polls : List (Reply × Reply)) (ptr len : U16) (data : List Byte) : List BusOp :=
  pollReads c polls ++ read16 c.addrS0TxFsr ++ read16 c.addrS0TxWr ++ txWrites c ptr.toNat data ++
    write16 c.addrS0TxWr (ptr + len) ++ [.wr c.addrS0Cr c.cmdSend]

@[simp] theorem sendExchanges_length (c : Params) (polls : List (Reply × Reply)) (ptr len : U16) (data : List Byte) :
    (sendExchanges c polls ptr len data).length = polls.length * 2 + data.length + 7 := by
  simp [sendExchanges]; omega

section
variable {s : State} {len : U16} {data : List Byte} (hm : s.mode = .idle) (hs : s.sock = .opened)
  (hlen : len.toNat ≤ 8192) {polls : List (Reply × Reply)}
  (hpolls : ∀ p ∈ polls, (join16 p.1.r3 p.2.r3).toNat < len.toNat)
include hm hs hlen hpolls

/-- SEND_FRAME after its polls that found too little free space. -/
theorem Continues.sendFrame_to_free (hr : s.repliesWith (pollReplies polls)) :
    ∃ free hi16, Continues (.sendFrame len data) (1 + 3 * polls.length) s
      (s.midway (.sendFrame .fsrHi) { s.x with cmd := opSendFrame, len := len, free := free, hi16 := hi16 }
        (pollReads s.cfg polls) (pollReplies polls) s.dest data) := by
  obtain ⟨free, hi16, hrun⟩ := Continues.sendFrame_polls (s := s) (x := { s.x with cmd := opSendFrame, len := len })
    (ops := []) (rs := []) (dest := s.dest) (src := data) rfl rfl polls hpolls hr
  exact ⟨free, hi16, (Continues.sendFrame_accepted hm hs hlen).append hrun⟩

variable {fh fl : Reply} (hfree : len.toNat ≤ (join16 fh.r3 fl.r3).toNat)
include hfree

/-- SEND_FRAME when it has found enough free space. -/
theorem Continues.sendFrame_to_ptr (hr : s.repliesWith (pollReplies polls ++ [fh, fl])) :
    Continues (.sendFrame len data) (1 + 3 * polls.length + 3) s
      (s.midway (.sendFrame .ptrHi)
        { s.x with cmd := opSendFrame, len := len, free := join16 fh.r3 fl.r3, hi16 := fh.r3 }
        (pollReads s.cfg polls ++ read16 s.cfg.addrS0TxFsr) (pollReplies polls ++ [fh, fl]) s.dest data) := by
  obtain ⟨_, _, hrun⟩ := Continues.sendFrame_to_free (data := data) hm hs hlen hpolls hr.of_append
  exact hrun.append (.sendFrame_space (by rfl) (by simp) hfree hr)

variable {ph pl : Reply} {ptr : U16} (hptr : ptr = join16 ph.r3 pl.r3)
include hptr

/-- SEND_FRAME at the start of its data. -/
theorem Continues.sendFrame_to_data (hr : s.repliesWith (pollReplies polls ++ [fh, fl] ++ [ph, pl])) :
    Continues (.sendFrame len data) (1 + 3 * polls.length + 3 + 3) s
      (s.midway (.sendFrame .tail) (s.x.splitToSend len (join16 fh.r3 fl.r3) ptr ph.r3)
        (pollReads s.cfg polls ++ read16 s.cfg.addrS0TxFsr ++ read16 s.cfg.addrS0TxWr)
        (pollReplies polls ++ [fh, fl] ++ [ph, pl]) s.dest data) :=
  (Continues.sendFrame_to_ptr hm hs hlen hpolls hfree hr.of_append).append
    (.sendFrame_split (by rfl) (by simp) hptr hr)

variable (hdata : data.length = len.toNat) {ws : List Reply} (hws : ws.length = len.toNat)
include hdata hws

/-- SEND_FRAME when its data are written. -/
theorem Continues.sendFrame_to_advance (hr : s.repliesWith (pollReplies polls ++ [fh, fl] ++ [ph, pl] ++ ws)) :
    Continues (.sendFrame len data) (1 + 3 * polls.length + 3 + 3 + (len.toNat + 2)) s
      (s.midway (.sendFrame .advance) (s.x.splitToSend len (join16 fh.r3 fl.r3) ptr ph.r3)
        (pollReads s.cfg polls ++ read16 s.cfg.addrS0TxFsr ++ read16 s.cfg.addrS0TxWr ++ txWrites s.cfg ptr.toNat data)
        (pollReplies polls ++ [fh, fl] ++ [ph, pl] ++ ws) s.dest data) := by
  have hrun := (Continues.sendFrame_to_data hm hs hlen hpolls hfree hptr hr.of_append (data := data)).append
    (.sendFrame_data (by rfl) (by simp) (Regs.splitToSend_splitFor hdata hlen) (by rfl) (hws.trans hdata.symm) hr)
  rwa [Regs.splitToSend_off, txWrites_mod, hdata] at hrun

variable {w0 w1 w2 : Reply}

/-- SEND_FRAME when it has sent and begins to wait. -/
theorem Continues.sendFrame_to_poll
    (hr : s.repliesWith (pollReplies polls ++ [fh, fl] ++ [ph, pl] ++ ws ++ [w0, w1] ++ [w2])) :
    Continues (.sendFrame len data) (1 + 3 * polls.length + 3 + 3 + (len.toNat + 2) + 4) s
      (s.midway (.sendFrame .poll) { s.x.splitToSend len (join16 fh.r3 fl.r3) ptr ph.r3 with nptr := ptr + len }
        (sendExchanges s.cfg polls ptr len data)
        (pollReplies polls ++ [fh, fl] ++ [ph, pl] ++ ws ++ [w0, w1] ++ [w2]) s.dest data) :=
  (Continues.sendFrame_to_advance hm hs hlen hpolls hfree hptr hdata hws hr.of_append.of_append).append
    (.sendFrame_sends (by rfl) (by simp [hdata, hws]; omega) hr)

/-- SEND_FRAME after its polls that found the command register busy. -/
theorem Continues.sendFrame_to_done {waits : List Reply} (hwaits : ∀ r ∈ waits, r.r3 ≠ s.cfg.cmdIdle)
    (hr : s.repliesWith (pollReplies polls ++ [fh, fl] ++ [ph, pl] ++ ws ++ [w0, w1] ++ [w2] ++ waits)) :
    ∃ stat, Continues (.sendFrame len data)
      (1 + 3 * polls.length + 3 + 3 + (len.toNat + 2) + 4 + 2 * waits.length) s
      (s.midway (.sendFrame .poll)
        { s.x.splitToSend len (join16 fh.r3 fl.r3) ptr ph.r3 with nptr := ptr + len, stat := stat }
        (sendExchanges s.cfg polls ptr len data ++ waits.map fun _ => .rd s.cfg.addrS0Cr)
        (pollReplies polls ++ [fh, fl] ++ [ph, pl] ++ ws ++ [w0, w1] ++ [w2] ++ waits) s.dest data) := by
  obtain ⟨stat, hwait⟩ := Continues.sendFrame_waits (len := len) (dest := s.dest) (src := data)
    (x := { s.x.splitToSend len (join16 fh.r3 fl.r3) ptr ph.r3 with nptr := ptr + len })
    (ops := sendExchanges s.cfg polls ptr len data) rfl (by simp [hdata, hws]; omega) waits hwaits hr
  exact ⟨stat, (Continues.sendFrame_to_poll hm hs hlen hpolls hfree hptr hdata hws hr.of_append).append hwait⟩

end

/-- Settles O50: acceptance, the free-space polls, the pointer and the split, the data, the send command, the completion
polls, and the response. -/
theorem sendFrameCompletes : Obligations.SendFrameCompletes := by
  intro len data s polls fh fl ph pl w0 w1 w2 done ws waits free ptr hm hs hdata hlen hfree hptr hpolls hspace hws
    hwaits hdone hr
  subst hfree
  have hreplies : (polls.flatMap fun p => [p.1, p.2]) ++ [fh, fl, ph, pl] ++ ws ++ [w0, w1, w2] ++ waits ++ [done] =
      pollReplies polls ++ [fh, fl] ++ [ph, pl] ++ ws ++ [w0, w1] ++ [w2] ++ waits ++ [done] := by simp [pollReplies]
  rw [hreplies] at hr ⊢
  obtain ⟨stat, hwait⟩ := Continues.sendFrame_to_done hm hs hlen hpolls hspace hptr hdata hws hwaits hr.of_append
  have hrun := hwait.completes (.sendFrame_ends (by rfl) (by simp [hdata, hws]; omega) hm hdone hr)
  rw [show 3 * polls.length + len.toNat + 2 * waits.length + 15 =
    1 + 3 * polls.length + 3 + 3 + (len.toNat + 2) + 4 + 2 * waits.length + 2 by omega]
  exact hrun

end Sys2Proof.Machine

/-! ## A frame that was sent

Every exchange of a SEND_FRAME that ends without a fault has succeeded, and its two waits have ended; so the run is the
one of O50, whose writes leave the frame in the TX ring (O51). -/

namespace Sys2Proof.Machine

/-! ### What a run that ends without a fault has been answered -/

/-- A completed run is no shorter than any part of it in which the command stays in progress. -/
theorem Completes.le_of_continues {i : Instr} {n m : Nat} {s t u : State} (hc : Completes i n s t)
    (h : Continues i m s u) : m ≤ n := by
  induction m generalizing s n with
  | zero => exact Nat.zero_le n
  | succ m ih =>
    obtain ⟨v, hv, hb, hrest⟩ := h
    cases n with
    | zero =>
      obtain rfl := Host.Outcome.next.inj (hc.1.symm.trans hv)
      simp [hc.2] at hb
    | succ n =>
      obtain ⟨w, hw, -, hc⟩ := hc
      obtain rfl := Host.Outcome.next.inj (hw.symm.trans hv)
      exact Nat.succ_le_succ (ih hc hrest)

section
variable {s t : State} {i : Instr} {n m : Nat} {p p' next : SeqStep} {x : Regs} {ops w : List BusOp} {rs : List Reply}
  {dest : Memory} {src : List Byte}
  (hc : Completes i n s t) (hok : ¬s.FaultedSince t)
include hc hok

/-- Where a run that ends without a fault makes an exchange, the exchange has succeeded. -/
theorem Completes.next_reply (hrun : Continues i m s (s.midway p x ops rs dest src)) (hr : s.repliesWith rs)
    (hi : p.instr (s.midway p x ops rs dest src) = i)
    (hex : (p.action (s.midway p x ops rs dest src)).exchange.isSome) : ∃ r, s.repliesWith (rs ++ [r]) := by
  obtain ⟨_, hc⟩ := hc.after_continues hrun
  have hup : (s.midway p x ops rs dest src).upcoming 0 = s.upcoming rs.length := State.upcoming_midway 0
  obtain ⟨r, hans⟩ | ⟨b, hfail⟩ := BusAnswer.ok_or_fail (s.upcoming rs.length)
  · exact ⟨r, State.repliesWith_concat.2 ⟨hr, hans⟩⟩
  · cases ha : p.action (s.midway p x ops rs dest src) with
    | read a k =>
      obtain rfl := hc.eq_of_exec (exec_read_fails p rfl hi ha (hup.trans hfail)) rfl
      exact absurd ⟨rfl, _, _, rfl⟩ hok
    | write a v k =>
      obtain rfl := hc.eq_of_exec (exec_write_fails p rfl hi ha (hup.trans hfail)) rfl
      exact absurd ⟨rfl, _, _, by cases b <;> rfl⟩ hok
    | compute | respond | raise | stop => simp [ha, Action.exchange] at hex

/-- Both exchanges of a Read16 have succeeded (R104). -/
theorem Completes.next_read16 {a : Addr} {f : U16 → Regs → Regs} {p'' : SeqStep}
    (hrun : Continues i m s (s.midway p x ops rs dest src)) (hr : s.repliesWith rs)
    (hl : ops.length = rs.length) (hi : p.instr (s.midway p x ops rs dest src) = i)
    (hhi : p.action (s.midway p x ops rs dest src) = readHi a p')
    (hi' : ∀ h : Reply, p'.instr (s.midway p' { x with hi16 := h.r3 } (ops ++ [.rd a]) (rs ++ [h]) dest src) = i)
    (hlo : ∀ h : Reply, p'.action (s.midway p' { x with hi16 := h.r3 } (ops ++ [.rd a]) (rs ++ [h]) dest src) =
      readLo a f p'') : ∃ h l, s.repliesWith (rs ++ [h, l]) := by
  obtain ⟨h, hrh⟩ := hc.next_reply hok hrun hr hi (by rw [hhi]; rfl)
  obtain ⟨l, hrl⟩ := hc.next_reply hok (hrun.append (.readHi hrh hl hi hhi)) hrh (hi' h) (by rw [hlo]; rfl)
  exact ⟨h, l, by simpa using hrl⟩

/-- All the writes of a loop have succeeded. -/
theorem FrameLoop.replies (h : FrameLoop s.cfg i p next x src w) (hx : x.i = 0#17)
    (hrun : Continues i m s (s.midway p x ops rs dest src)) (hr : s.repliesWith rs) (hl : ops.length = rs.length) :
    ∃ qs, qs.length = w.length ∧ s.repliesWith (rs ++ qs) := by
  have hupto : ∀ k ≤ w.length, ∃ qs, qs.length = k ∧ s.repliesWith (rs ++ qs) := by
    intro k
    induction k with
    | zero => exact fun _ => ⟨[], rfl, by simpa using hr⟩
    | succ k ih =>
      intro hk
      obtain ⟨qs, rfl, hqs⟩ := ih (by omega)
      obtain ⟨a, v, -, ha⟩ := h.pass (s.midway p { x with i := BitVec.ofNat 17 qs.length } (ops ++ w.take qs.length)
        (rs ++ qs) dest src) qs.length (by omega) rfl rfl rfl
      obtain ⟨q, hq⟩ := hc.next_reply hok (hrun.append (h.passes hx hl (by omega) hqs)) hqs (h.instr _ _ rfl rfl)
        (by rw [ha]; rfl)
      exact ⟨qs ++ [q], by simp, by simpa using hq⟩
  exact hupto _ le_rfl

end

/-- All the data writes of a frame have succeeded, in one run or in two (R202). -/
theorem SplitFor.replies {s t : State} {n m : Nat} {x : Regs} {ops : List BusOp} {rs : List Reply} {dest : Memory}
    {src : List Byte} (h : SplitFor x src) (hc : Completes (.sendFrame x.len src) n s t) (hok : ¬s.FaultedSince t)
    (hx : x.i = 0#17) (hrun : Continues (.sendFrame x.len src) m s (s.midway (.sendFrame .tail) x ops rs dest src))
    (hr : s.repliesWith rs) (hl : ops.length = rs.length) :
    ∃ ws, ws.length = src.length ∧ s.repliesWith (rs ++ ws) := by
  obtain ⟨tail, htail, hrt⟩ := (h.tail_loop s.cfg).replies hc hok hx hrun hr hl
  obtain ⟨base, hbase, hrb⟩ := (h.base_loop s.cfg).replies hc hok hx
    (hrun.append ((h.tail_loop s.cfg).run hx hl htail hrt)) hrt (by simp [hl, htail])
  refine ⟨tail ++ base, ?_, by rwa [← List.append_assoc]⟩
  rw [List.length_append, htail, hbase, ← List.length_append, List.take_append_drop, txWrites_length]

/-- Polls that go on as long as they find the chip busy, and are bounded in number, come to one that does not. -/
theorem exists_last_poll {α : Type} {busy : α → Prop} {P : List α → Prop} {bound : Nat} (hnil : P [])
    (hnext : ∀ l, (∀ a ∈ l, busy a) → P l → ∃ a, P (l ++ [a]))
    (hbound : ∀ l, (∀ a ∈ l, busy a) → P l → l.length ≤ bound) :
    ∃ l a, (∀ b ∈ l, busy b) ∧ ¬busy a ∧ P (l ++ [a]) := by
  by_contra hnone
  push Not at hnone
  have hlong : ∀ n, ∃ l : List α, l.length = n ∧ (∀ a ∈ l, busy a) ∧ P l := by
    intro n
    induction n with
    | zero => exact ⟨[], rfl, by simp, hnil⟩
    | succ n ih =>
      obtain ⟨l, rfl, hl, hP⟩ := ih
      obtain ⟨a, ha⟩ := hnext l hl hP
      have hbusy : busy a := by
        by_contra hidle
        exact hnone l a hl hidle ha
      exact ⟨l ++ [a], by simp, by simpa [or_imp, forall_and] using ⟨hl, hbusy⟩, ha⟩
  obtain ⟨l, hlen, hl, hP⟩ := hlong (bound + 1)
  have := hbound l hl hP
  omega

/-! ### SEND_FRAME run to its end -/

section
variable {s t : State} {len : U16} {data : List Byte} {n : Nat} (hm : s.mode = .idle) (hs : s.sock = .opened)
  (hlen : len.toNat ≤ 8192) (hc : Completes (.sendFrame len data) n s t) (hok : ¬s.FaultedSince t)
include hm hs hlen hc hok

/-- The free-space polls have ended (R201). -/
theorem Completes.sendFrame_finds_space :
    ∃ polls fh fl, (∀ p ∈ polls, (join16 p.1.r3 p.2.r3).toNat < len.toNat) ∧
      len.toNat ≤ (join16 fh.r3 fl.r3).toNat ∧ s.repliesWith (pollReplies polls ++ [fh, fl]) := by
  obtain ⟨polls, ⟨fh, fl⟩, hbusy, hfree, hr⟩ := exists_last_poll (bound := n)
    (busy := fun p : Reply × Reply => (join16 p.1.r3 p.2.r3).toNat < len.toNat)
    (P := fun polls => s.repliesWith (pollReplies polls)) s.repliesWith_nil
    (fun polls hbusy hr => by
      obtain ⟨_, _, hrun⟩ := Continues.sendFrame_to_free (data := data) hm hs hlen hbusy hr
      obtain ⟨h, l, hr⟩ := hc.next_read16 hok (p' := .sendFrame .fsrLo) (f := fun v x => { x with free := v }) hrun
        hr (by simp) rfl rfl (fun _ => rfl) fun _ => rfl
      exact ⟨(h, l), by simpa [pollReplies] using hr⟩)
    (fun polls hbusy hr => by
      obtain ⟨_, _, hrun⟩ := Continues.sendFrame_to_free (data := data) hm hs hlen hbusy hr
      have := hc.le_of_continues hrun
      omega)
  exact ⟨polls, fh, fl, hbusy, Nat.le_of_not_lt hfree, by simpa [pollReplies] using hr⟩

variable {polls : List (Reply × Reply)} (hpolls : ∀ p ∈ polls, (join16 p.1.r3 p.2.r3).toNat < len.toNat)
  {fh fl : Reply} (hfree : len.toNat ≤ (join16 fh.r3 fl.r3).toNat) (hdata : data.length = len.toNat)
include hpolls hfree hdata

/-- The pointer has been read, the data and the pointer are written, and the send command is given (R202, R203). -/
theorem Completes.sendFrame_has_sent (hr : s.repliesWith (pollReplies polls ++ [fh, fl])) :
    ∃ ph pl ws w0 w1 w2, ws.length = len.toNat ∧
      s.repliesWith (pollReplies polls ++ [fh, fl] ++ [ph, pl] ++ ws ++ [w0, w1] ++ [w2]) := by
  obtain ⟨ph, pl, hr⟩ := hc.next_read16 hok (p' := .sendFrame .ptrLo) (f := fun v x => { x with ptr := v })
    (Continues.sendFrame_to_ptr hm hs hlen hpolls hfree hr) hr (by simp) rfl rfl (fun _ => rfl) fun _ => rfl
  have hdat := Continues.sendFrame_to_data (data := data) hm hs hlen hpolls hfree rfl hr
  have hsplit := Regs.splitToSend_splitFor (x := s.x) (free := join16 fh.r3 fl.r3) (ptr := join16 ph.r3 pl.r3)
    (hi16 := ph.r3) hdata hlen
  obtain ⟨ws, hws, hr⟩ := hsplit.replies hc hok rfl hdat hr (by simp)
  rw [hdata] at hws
  have hstart := (Continues.sendFrame_to_advance hm hs hlen hpolls hfree rfl hdata hws hr).append
    (.compute (p' := .sendFrame .wrHi)
      (x' := { s.x.splitToSend len (join16 fh.r3 fl.r3) (join16 ph.r3 pl.r3) ph.r3 with
        nptr := join16 ph.r3 pl.r3 + len }) rfl rfl)
  obtain ⟨w0, hr0⟩ := hc.next_reply hok hstart hr rfl rfl
  have hhi := hstart.append (.writeHi (rest := []) hr0 (by simp [hdata, hws]; omega) rfl rfl)
  obtain ⟨w1, hr1⟩ := hc.next_reply hok hhi hr0 rfl rfl
  have hlo := hhi.append (.writeLo (rest := []) hr1 (by simp [hdata, hws]; omega) rfl rfl)
  obtain ⟨w2, hr2⟩ := hc.next_reply hok hlo hr1 rfl rfl
  exact ⟨ph, pl, ws, w0, w1, w2, hws, by simpa using hr2⟩

/-- The completion polls have ended (R204). -/
theorem Completes.sendFrame_finds_idle {ph pl w0 w1 w2 : Reply} {ws : List Reply} (hws : ws.length = len.toNat)
    (hr : s.repliesWith (pollReplies polls ++ [fh, fl] ++ [ph, pl] ++ ws ++ [w0, w1] ++ [w2])) :
    ∃ waits done, (∀ r ∈ waits, r.r3 ≠ s.cfg.cmdIdle) ∧ done.r3 = s.cfg.cmdIdle ∧
      s.repliesWith
        (pollReplies polls ++ [fh, fl] ++ [ph, pl] ++ ws ++ [w0, w1] ++ [w2] ++ waits ++ [done]) := by
  obtain ⟨waits, done, hbusy, hidle, hr⟩ := exists_last_poll (bound := n)
    (busy := fun r : Reply => r.r3 ≠ s.cfg.cmdIdle)
    (P := fun waits => s.repliesWith
      (pollReplies polls ++ [fh, fl] ++ [ph, pl] ++ ws ++ [w0, w1] ++ [w2] ++ waits)) (by simpa using hr)
    (fun waits hbusy hr => by
      obtain ⟨_, hrun⟩ := Continues.sendFrame_to_done hm hs hlen hpolls hfree rfl hdata hws hbusy hr
      obtain ⟨r, hr⟩ := hc.next_reply hok hrun hr rfl rfl
      exact ⟨r, by simpa using hr⟩)
    (fun waits hbusy hr => by
      obtain ⟨_, hrun⟩ := Continues.sendFrame_to_done hm hs hlen hpolls hfree rfl hdata hws hbusy hr
      have := hc.le_of_continues hrun
      omega)
  exact ⟨waits, done, hbusy, not_not.1 hidle, by simpa using hr⟩

end

/-- A SEND_FRAME that leaves the block idle was accepted (R224, R228). -/
theorem Completes.sendFrame_was_accepted {s t : State} {len : U16} {data : List Byte} {n : Nat} (hm : s.mode = .idle)
    (hc : Completes (.sendFrame len data) n s t) (ht : t.mode = .idle) : s.sock = .opened ∧ len.toNat ≤ 8192 := by
  have hexec : exec (.sendFrame len data) s = .next (sendFrameAccepted len data s) := exec_idle hm rfl
  cases hs : s.sock with
  | closed =>
    rw [sendFrameAccepted_of_closed hs] at hexec
    obtain rfl := hc.eq_of_exec hexec rfl
    cases ht
  | opened =>
    refine ⟨rfl, ?_⟩
    by_contra hlong
    rw [sendFrameAccepted_of_gt hs (Nat.lt_of_not_le hlong)] at hexec
    obtain rfl := hc.eq_of_exec hexec rfl
    cases ht

/-- A SEND_FRAME that leaves the block idle is the run of O50: the frame is among what it has stored (R202 to R205). -/
theorem Completes.sendFrame_done {s t : State} {len : U16} {data : List Byte} {n : Nat} (hm : s.mode = .idle)
    (hdata : data.length = len.toNat) (hc : Completes (.sendFrame len data) n s t) (ht : t.mode = .idle) :
    len.toNat ≤ 8192 ∧ t.responses = s.responses ++ [.bool true] ∧
      ∃ polls waits, t.chip = chipWrites s.chip (sendExchanges s.cfg polls t.x.ptr len data ++
        (waits : List Reply).map (fun _ => .rd s.cfg.addrS0Cr) ++ [.rd s.cfg.addrS0Cr]) := by
  have hok := State.not_faultedSince_of_idle (s := s) ht
  obtain ⟨hs, hlen⟩ := hc.sendFrame_was_accepted hm ht
  obtain ⟨polls, fh, fl, hpolls, hfree, hr⟩ := Completes.sendFrame_finds_space hm hs hlen hc hok
  obtain ⟨ph, pl, ws, w0, w1, w2, hws, hr⟩ := Completes.sendFrame_has_sent hm hs hlen hc hok hpolls hfree hdata hr
  obtain ⟨waits, done, hwaits, hdone, hr⟩ :=
    Completes.sendFrame_finds_idle hm hs hlen hc hok hpolls hfree hdata hws hr
  obtain rfl := hc.unique (sendFrameCompletes len data s polls fh fl ph pl w0 w1 w2 done ws waits _ _ hm hs hdata hlen
    rfl rfl hpolls hfree hws hwaits hdone (by simpa [pollReplies] using hr))
  exact ⟨hlen, rfl, polls, waits, rfl⟩

/-! ### What the exchanges have stored -/

/-- Writes at other addresses leave a byte as it is. -/
theorem memRead_chipWrites_of_ne {ops : List BusOp} {a : Nat} (h : ∀ b v, .wr b v ∈ ops → b.toNat ≠ a)
    (m : Memory) : memRead (chipWrites m ops) a = memRead m a := by
  induction ops generalizing m with
  | nil => rfl
  | cons o ops ih =>
    have hrest := ih (fun b v hb => h b v (.tail _ hb))
    cases o with
    | rd b => exact hrest m
    | wr b v => rw [chipWrites, hrest, memRead_memWrite, if_neg (h b v (.head _))]

/-- The data writes of a frame that fits the ring leave each byte at its ring offset, since no two meet (R155). -/
theorem memRead_chipWrites_txWrites {c : Params} (hbase : c.txBase.toNat + 8192 ≤ 65536) {off i : Nat}
    {data : List Byte} {v : Byte} (hlen : data.length ≤ 8192) (hv : data[i]? = some v) (m : Memory) :
    memRead (chipWrites m (txWrites c off data)) (c.txBase.toNat + (off + i) % 8192) = some v := by
  have haddr : ∀ k, (addrPlus c.txBase ((off + k) % 8192)).toNat = c.txBase.toNat + (off + k) % 8192 := fun k => by
    rw [addrPlus_toNat, Nat.mod_eq_of_lt (by omega)]
  obtain ⟨hi, rfl⟩ := List.getElem?_eq_some_iff.1 hv
  have hi' : i < (txWrites c off data).length := by simpa using hi
  rw [← List.take_append_drop i (txWrites c off data), List.drop_eq_getElem_cons hi', txWrites_getElem,
    chipWrites_append, chipWrites, memRead_chipWrites_of_ne, memRead_memWrite, if_pos (haddr i)]
  intro b w hb
  obtain ⟨k, hk, hbk⟩ := List.getElem_of_mem hb
  rw [List.getElem_drop, txWrites_getElem, BusOp.wr.injEq] at hbk
  rw [← hbk.1, haddr]
  rw [List.length_drop, txWrites_length] at hk
  omega

/-- R10 keeps the registers out of the TX ring. -/
theorem Params.register_ne_tx {c : Params} (hwf : c.wf = true) {a : Addr} {n k o : Nat} (ha : (a, n) ∈ c.registers)
    (hk : k < n) (ho : o < 8192) : (addrPlus a k).toNat ≠ c.txBase.toNat + o := by
  obtain ⟨-, -, -, -, hout⟩ := Params.wf_elim hwf
  obtain ⟨-, htx⟩ := hout _ ha k hk
  rw [addrPlus_toNat]
  dsimp only at htx
  omega

theorem txPhys_add (c : Params) (hbase : c.txBase.toNat + 8192 ≤ 65536) (p : U16) (i : Nat) :
    (txPhys c (p + BitVec.ofNat 16 i)).toNat = c.txBase.toNat + (p.toNat + i) % 8192 := by
  rw [txPhys, ringAddress_toNat hbase, BitVec.toNat_add, BitVec.toNat_ofNat]
  omega

/-- Settles O51: the run is the one of O50, and what it writes after the data lies outside the ring. -/
theorem sentFrameStandsInTheTxRing : Obligations.SentFrameStandsInTheTxRing := by
  intro len data s t n hm hwf hdata hc ht
  obtain ⟨hlen, hresp, polls, waits, hchip⟩ := hc.sendFrame_done hm hdata ht
  obtain ⟨-, -, hbase, -, -⟩ := Params.wf_elim hwf
  refine ⟨hresp, fun i v hv => ?_⟩
  rw [hchip, txPhys_add _ hbase, sendExchanges, List.append_assoc, List.append_assoc, List.append_assoc,
    chipWrites_append, memRead_chipWrites_of_ne, chipWrites_append, memRead_chipWrites_txWrites hbase (by omega) hv]
  intro b w hb
  have hring : (t.x.ptr.toNat + i) % 8192 < 8192 := Nat.mod_lt _ (by decide)
  have hwr : (s.cfg.addrS0TxWr, 2) ∈ s.cfg.registers := by simp [Params.registers]
  have hcr : (s.cfg.addrS0Cr, 1) ∈ s.cfg.registers := by simp [Params.registers]
  simp only [write16, List.cons_append, List.nil_append, List.mem_cons, List.mem_append, List.mem_map, BusOp.wr.injEq,
    reduceCtorEq, and_false, exists_false, List.not_mem_nil, or_false] at hb
  obtain ⟨rfl, -⟩ | ⟨rfl, -⟩ | ⟨rfl, -⟩ := hb
  · simpa using Params.register_ne_tx hwf hwr (k := 0) (by omega) hring
  · exact Params.register_ne_tx hwf hwr (k := 1) (by omega) hring
  · simpa using Params.register_ne_tx hwf hcr (k := 0) (by omega) hring

end Sys2Proof.Machine

/-! ## Fault entry and socket initialization

A step comes to HALTED only by fault entry: at a check of the command in progress, at its failed exchange, or at acceptance
(O27). ENABLE_RAW goes one way up to its status read, and there are two ways on from the check of the status (O45). -/

namespace Sys2Proof.Machine

/-! ### Fault entry -/

/-- The step from `s` to `t` ends in a fault entry. What it does first, up to `u`, moves none of the responses, SOCK and
DEST, and adds to the trace at most the failed exchange of a BUS_FAULT (R221, R222). -/
def State.EntersFault (s t : State) : Prop :=
  ∃ (u : State) (f : BlockFault) (info : U16), t = u.raise f info ∧ u.responses = s.responses ∧ u.sock = s.sock ∧
    u.dest = s.dest ∧ (u.trace = s.trace ∨ ∃ e b, u.trace = s.trace ++ [e] ∧ e.answer = .fail b ∧ f = .busFault)

theorem State.entersFault_tick {s t : State} : s.tick.EntersFault t ↔ s.EntersFault t := by
  simp only [State.EntersFault, State.tick_responses, State.tick_sock, State.tick_dest, State.tick_trace]

theorem StepFrame.not_halted {s u t : State} {q : SeqStep} (h : StepFrame s u t) (hm : u.mode = .busy q) :
    t.mode ≠ .halted := fun ht => by
  have hbusy := h.busy ⟨q, hm⟩
  rw [State.not_isBusy_of_halted ht] at hbusy
  cases hbusy

/-- A command in progress halts the block only by a failed exchange or by raising a fault of its own. -/
theorem entersFault_of_perform {s t : State} {q : SeqStep} (hm : s.mode = .busy q)
    (h : perform (q.action s) s = .next t) (ht : t.mode = .halted) : s.EntersFault t := by
  obtain ⟨a, k, ha, hread⟩ | ⟨a, v, k, ha, hwrite⟩ | ha | ⟨r, -, rfl⟩ | ⟨f, info, -, rfl⟩ := perform_cases h
  · obtain ⟨r, -, rfl⟩ | ⟨b, hb, rfl⟩ := hread
    · exact absurd ht ((read_frame ha _ _).1.not_halted hm)
    · exact ⟨_, .busFault, a, rfl, rfl, rfl, rfl, .inr ⟨_, b, rfl, hb, rfl⟩⟩
  · obtain ⟨r, -, rfl⟩ | ⟨b, hb, rfl⟩ := hwrite
    · exact absurd ht ((write_frame ha _).1.not_halted hm)
    · cases b with
      | false => exact ⟨_, .busFault, a, rfl, rfl, rfl, rfl, .inr ⟨_, false, rfl, hb, rfl⟩⟩
      | true => exact ⟨_, .busFault, a, rfl, rfl, rfl, rfl, .inr ⟨_, true, rfl, hb, rfl⟩⟩
  · exact absurd ht ((compute_frame hm ha).1.not_halted hm)
  · cases ht
  · exact ⟨s, f, info, rfl, rfl, rfl, rfl, .inl rfl⟩

/-- A block that is not yet halted comes to HALTED at the port only by a command that acceptance turns away, or by a byte
that is no opcode. -/
theorem entersFault_of_takeCommand {s t : State} (hb : s.isBusy = false) (hs : s.mode ≠ .halted)
    (h : takeCommand s = .next t) (ht : t.mode = .halted) : s.EntersFault t := by
  obtain ⟨-, rfl⟩ | ⟨i, rest, hd, ⟨-, rfl⟩ | ⟨hm, -⟩⟩ | ⟨op, -, rfl⟩ := takeCommand_cases hb h
  · exact absurd ht hs
  · obtain ⟨-, q, src, x, hrun⟩ | ⟨src, x, f, info, hraise⟩ := acceptedState_cases hd { s with port := rest }
    · rw [hrun] at ht
      cases ht
    · exact ⟨_, f, info, hraise, rfl, rfl, rfl, .inl rfl⟩
  · exact absurd hm hs
  · obtain ⟨-, hraise⟩ | ⟨hm, -⟩ := State.acceptIllegal_cases (s := { s with port := s.port.tail }) hb op
    · exact ⟨_, .illegalCommand, _, hraise, rfl, rfl, rfl, .inl rfl⟩
    · exact absurd hm hs

/-- A step that comes to HALTED is a fault entry. -/
theorem entersFault_of_step {s t : State} (h : step s = .next t) (hs : s.mode ≠ .halted) (ht : t.mode = .halted) :
    s.EntersFault t := by
  obtain ⟨-, rfl⟩ | ⟨-, q, hm, hstep⟩ | ⟨-, hb, hstep⟩ := step_cases h
  · cases ht
  · exact State.entersFault_tick.1 (entersFault_of_perform ((State.tick_mode s).trans hm) hstep ht)
  · exact State.entersFault_tick.1 (entersFault_of_takeCommand ((State.tick_isBusy s).trans hb)
      (by rwa [State.tick_mode]) hstep ht)

/-- Settles O27: the step is a fault entry, whose effects are those of `State.raise`. -/
theorem faultEntrySavesCodeAndInfo : Obligations.FaultEntrySavesCodeAndInfo := by
  intro s t h hs ht
  obtain ⟨u, f, info, rfl, hresp, hsock, hdest, htrace⟩ := entersFault_of_step h hs ht
  have hcode : f.code.toNat ∈ [1, 2, 3, 4, 5, 6, 7] := by
    obtain ⟨hlow, hhigh⟩ := f.code_range
    simp only [List.mem_cons, List.not_mem_nil, or_false]
    omega
  exact ⟨f, info, rfl, congrArg (· ++ [_]) hresp, hsock, hdest, hcode, htrace⟩

/-! ### ENABLE_RAW -/

/-- The exchanges of ENABLE_RAW up to its status read (R161). -/
def enableRawExchanges (c : Params) : List BusOp :=
  [.wr c.addrRmsr c.msrSock0All, .wr c.addrTmsr c.msrSock0All, .wr c.addrS0Mr c.s0MrMacraw, .wr c.addrS0Cr c.cmdOpen,
    .rd c.addrS0Sr]

/-- An internal computation that sets SOCK, in the middle of a command. -/
theorem Continues.compute_setSock {s : State} {i : Instr} {p p' : SeqStep} {x : Regs} {ops : List BusOp}
    {rs : List Reply} {dest : Memory} {src : List Byte} {k : Sock} (hi : p.instr (s.midway p x ops rs dest src) = i)
    (ha : p.action (s.midway p x ops rs dest src) = .compute (((s.midway p x ops rs dest src).setSock k).goto p')) :
    Continues i 1 (s.midway p x ops rs dest src) ((s.setSock k).midway p' x ops rs dest src) :=
  .one (exec_compute p rfl hi ha) rfl

section
variable {s : State} {w0 w1 w2 w3 r : Reply} (hm : s.mode = .idle) (hr : s.repliesWith [w0, w1, w2, w3, r])
include hm hr

/-- ENABLE_RAW up to the check of the status that it has read (R161). -/
theorem Continues.enableRaw_status :
    Continues .enableRaw 6 s (s.midway (.enableRaw .check) { s.x with cmd := opEnableRaw, stat := r.r3 }
      (enableRawExchanges s.cfg) [w0, w1, w2, w3, r] s.dest s.src) := by
  have haccept : Continues .enableRaw 1 s
      (s.midway (.enableRaw .rmsr) { s.x with cmd := opEnableRaw } [] [] s.dest s.src) :=
    .accepted hm rfl (State.accept_eq_midway ..)
  have hrmsr := haccept.append (.write (p' := .enableRaw .tmsr) hr rfl rfl rfl fun _ hu => State.goto_of_x hu)
  have htmsr := hrmsr.append (.write (p' := .enableRaw .sockMode) hr rfl rfl rfl fun _ hu => State.goto_of_x hu)
  have hmode := htmsr.append (.write (p' := .enableRaw .openCmd) hr rfl rfl rfl fun _ hu => State.goto_of_x hu)
  have hopen := hmode.append (.write (p' := .enableRaw .status) hr rfl rfl rfl fun _ hu => State.goto_of_x hu)
  exact hopen.append (.read hr rfl rfl rfl fun _ hu => State.setRegs_goto_of_x hu)

/-- Status 0x42 opens SOCK (R161). -/
theorem Completes.enableRaw_opens (hraw : rawActive r.r3 = true) :
    Completes .enableRaw 7 s { s.afterBus (enableRawExchanges s.cfg) [w0, w1, w2, w3, r] with
      sock := .opened, x := { s.x with cmd := opEnableRaw, stat := r.r3 }
      responses := s.responses ++ [.bool true] } := by
  have hcheck := (Continues.enableRaw_status hm hr).append (.compute_setSock rfl (if_pos hraw))
  exact hcheck.completes
    (.last (exec_respond (.enableRaw .respondTrue) rfl rfl rfl) (State.respond_midway_setSock hm) rfl)

end

/-- Every other status closes the socket once and leaves SOCK closed (R161, R162). -/
theorem Completes.enableRaw_closes {s : State} {w0 w1 w2 w3 r w5 : Reply} (hm : s.mode = .idle)
    (hr : s.repliesWith ([w0, w1, w2, w3, r] ++ [w5])) (hraw : ¬rawActive r.r3 = true) :
    Completes .enableRaw 9 s
      { s.afterBus (enableRawExchanges s.cfg ++ [.wr s.cfg.addrS0Cr s.cfg.cmdClose]) ([w0, w1, w2, w3, r] ++ [w5]) with
        sock := .closed, x := { s.x with cmd := opEnableRaw, stat := r.r3 }
        responses := s.responses ++ [.bool false] } := by
  have hcheck := (Continues.enableRaw_status hm hr.of_append).append
    (.compute (p' := .enableRaw .closeCmd) rfl (if_neg hraw))
  have hclose := hcheck.append (.write (p' := .enableRaw .closed) hr rfl rfl rfl fun _ hu => State.goto_of_x hu)
  have hclosed := hclose.append (.compute_setSock rfl rfl)
  exact hclosed.completes
    (.last (exec_respond (.enableRaw .respondFalse) rfl rfl rfl) (State.respond_midway_setSock hm) rfl)

/-- Settles O45: the two ways on from the check of the status. -/
theorem enableRawCompletes : Obligations.EnableRawCompletes := by
  refine fun s hm => ⟨fun w0 w1 w2 w3 r hr hstat => ?_, fun w0 w1 w2 w3 r w5 hr hstat => ?_⟩
  · exact Completes.enableRaw_opens hm hr ((rawActive_iff _).2 hstat)
  · exact Completes.enableRaw_closes hm hr ((rawActive_iff _).not.2 hstat)

end Sys2Proof.Machine

/-! ## RECEIVE_FRAME's checks

Each check of R183 stands at a position of its own, and a run comes to it with reads alone behind it: the fault is
raised there, so neither the chip's image nor DEST has changed (O33). -/

namespace Sys2Proof.Machine

/-! ### The checks -/

theorem headerTooLong_iff (hdr : U16) : headerTooLong hdr = true ↔ 8192 < hdr.toNat + 2 := decide_eq_true_iff

theorem overflowsDest_iff (hdr cap : U16) : overflowsDest hdr cap = true ↔ cap.toNat < hdr.toNat := decide_eq_true_iff

/-! ### A run that ends at a check -/

section
variable {s : State} {i : Instr} {n : Nat} {p : SeqStep} {x : Regs} {ops : List BusOp} {rs : List Reply}
  {f : BlockFault} {info : U16} {dest : Memory} {src : List Byte}

/-- A run that comes to a check which raises a fault ends there. -/
theorem Continues.completes_raise (hrun : Continues i n s (s.midway p x ops rs dest src))
    (hi : p.instr (s.midway p x ops rs dest src) = i)
    (ha : p.action (s.midway p x ops rs dest src) = .raise f info) :
    Completes i n s ((s.midway p x ops rs dest src).raise f info) :=
  hrun.completes (m := 0) (.last (exec_raise p rfl hi ha) rfl rfl)

/-- A fault raised after exchanges that have stored nothing leaves SOCK, DEST and the chip's image as they were. -/
theorem Continues.halts_after_reads (hrun : Continues i n s (s.midway p x ops rs s.dest src))
    (hi : p.instr (s.midway p x ops rs s.dest src) = i)
    (ha : p.action (s.midway p x ops rs s.dest src) = .raise f info) (hreads : chipWrites s.chip ops = s.chip)
    (hl : ops.length = rs.length) :
    ∃ t, Completes i n s t ∧ t.mode = .halted ∧ t.fault = ⟨f.code, info⟩ ∧
      t.responses = s.responses ++ [.fault f.code info] ∧ t.sock = s.sock ∧ t.dest = s.dest ∧ t.chip = s.chip ∧
      t.trace.length = s.trace.length + rs.length :=
  ⟨_, hrun.completes_raise hi ha, rfl, rfl, rfl, rfl, rfl, hreads, by
    simp [State.midway, State.afterBus, busTrace, hl]⟩

end

/-! ### RECEIVE_FRAME from its acceptance on -/

section
variable {s : State} {cap : U16} (hm : s.mode = .idle) (hs : s.sock = .opened)
include hm hs

/-- With the socket open RECEIVE_FRAME is accepted and latches CAP (R100). -/
theorem Continues.receiveFrame_accepted : Continues (.receiveFrame cap) 1 s
    (s.midway (.receiveFrame .cntHi) { s.x with cmd := opReceiveFrame, cap := cap } [] [] s.dest s.src) :=
  .accepted hm rfl (by rw [acceptedState, State.requireOpen_accept hs, State.accept_eq_midway])

/-- RECEIVE_FRAME comes to its first check with the counter read (R181). -/
theorem Continues.receiveFrame_to_checkEmpty {ch cl : Reply} (hr : s.repliesWith [ch, cl]) :
    Continues (.receiveFrame cap) 3 s (s.midway (.receiveFrame .checkEmpty)
      { s.x with cmd := opReceiveFrame, cap := cap, cnt := join16 ch.r3 cl.r3, hi16 := ch.r3 }
      (read16 s.cfg.addrS0RxRsr) [ch, cl] s.dest s.src) :=
  (Continues.receiveFrame_accepted hm hs).append
    (.reads16 (f := fun v x => { x with cnt := v }) (p' := .receiveFrame .cntLo) hr rfl rfl rfl rfl rfl)

/-- RECEIVE_FRAME comes to its second check with the counter, the pointer and the header read (R181, R182). -/
theorem Continues.receiveFrame_to_checkLength {ch cl ph pl hh hl : Reply} (hcnt : join16 ch.r3 cl.r3 ≠ 0#16)
    (hr : s.repliesWith [ch, cl, ph, pl, hh, hl]) :
    ∃ x, x.cap = cap ∧ x.hdr = headerValue s.cfg hh.r3 hl.r3 ∧
      Continues (.receiveFrame cap) 10 s (s.midway (.receiveFrame .checkLength) x
        (read16 s.cfg.addrS0RxRsr ++ read16 s.cfg.addrS0RxRd ++ rxReads s.cfg (join16 ph.r3 pl.r3).toNat 2)
        [ch, cl, ph, pl, hh, hl] s.dest s.src) := by
  have hcounter := (Continues.receiveFrame_accepted hm hs).append (.receiveFrame_counter (cap := cap) rfl rfl hcnt
    (State.repliesWith.of_append (qs := [ph, pl, hh, hl]) hr))
  have hheader := hcounter.append (.receiveFrame_header (hh := hh) (hlo := hl) (by rfl) (by rfl) rfl hr)
  exact ⟨_, rfl, rfl, hheader⟩

end

/-! ### The obligations: the checks -/

/-- Settles O33: `receiveFrame_to_checkEmpty` and `receiveFrame_to_checkLength` come to the first two checks, and
DEST_OVERFLOW is raised one step after the length check has passed. -/
theorem receiveChecksFault : Obligations.ReceiveChecksFault := by
  refine fun cap s ch cl ph pl hh hl hm hs => ⟨fun hr hcnt => ?_, fun hr hcnt hdr hhdr => ?_⟩
  · have hempty : ¬frameQueued (join16 ch.r3 cl.r3) = true := by simp [frameQueued_eq, hcnt]
    have hrun := (Continues.receiveFrame_to_checkEmpty (cap := cap) hm hs hr).completes_raise rfl (if_neg hempty)
    rw [hcnt] at hrun
    exact hrun
  · obtain ⟨x, rfl, hx, hrun⟩ := Continues.receiveFrame_to_checkLength (cap := cap) hm hs hcnt hr
    obtain rfl : hdr = x.hdr := hhdr.trans hx.symm
    refine ⟨fun hlong => ?_, fun hshort hover => ?_⟩
    · exact hrun.halts_after_reads rfl (if_pos ((headerTooLong_iff _).2 hlong)) rfl rfl
    · have hcapacity := hrun.append (.compute (p' := .receiveFrame .checkCapacity) rfl
        (if_neg ((headerTooLong_iff _).not.2 hshort.not_gt)))
      exact hcapacity.halts_after_reads rfl (if_pos ((overflowsDest_iff _ _).2 hover)) rfl rfl

end Sys2Proof.Machine

/-! ## SEND_FRAME's two waits

A wait makes read exchanges alone and stays at its position: however long it lasts, the command is in progress, nothing
is answered, no fault is latched, and the chip's image is as it was (O52, O53). -/

namespace Sys2Proof.Machine

/-! ### A run of reads that is still in progress -/

theorem chipWrites_of_reads {ops : List BusOp} (h : ∀ o ∈ ops, ∃ a, o = .rd a) (m : Memory) : chipWrites m ops = m := by
  induction ops with
  | nil => rfl
  | cons o ops ih =>
    obtain ⟨a, rfl⟩ := h o List.mem_cons_self
    exact ih fun o ho => h o (List.mem_cons_of_mem _ ho)

/-- A run of reads that has come to a position is still in progress, and has moved nothing but its own trace. -/
theorem Continues.keeps_waiting {s : State} {i : Instr} {n : Nat} {p : SeqStep} {x : Regs} {ops : List BusOp}
    {rs : List Reply} {dest : Memory} {src : List Byte} (hrun : Continues i n s (s.midway p x ops rs dest src))
    (hreads : ∀ o ∈ ops, ∃ a, o = .rd a) :
    ∃ t, Continues i n s t ∧ t.mode = .busy p ∧ t.responses = s.responses ∧ t.fault = s.fault ∧ t.chip = s.chip ∧
      t.trace = s.trace ++ busTrace s.cfg ops rs :=
  ⟨_, hrun, rfl, rfl, rfl, chipWrites_of_reads hreads s.chip, rfl⟩

/-- A command in progress stands at its position before any further exchange. -/
theorem State.eq_midway_of_busy {s : State} {p : SeqStep} (hm : s.mode = .busy p) :
    s = s.midway p s.x [] [] s.dest s.src := by
  apply State.eq_of_fields
  simp [State.midway, State.afterBus, busTrace, chipWrites, hm]

theorem pollReads_are_reads (c : Params) (polls : List (Reply × Reply)) : ∀ o ∈ pollReads c polls, ∃ a, o = .rd a := by
  intro o ho
  obtain ⟨_, _, ho⟩ := List.mem_flatMap.1 ho
  obtain rfl | rfl : o = .rd c.addrS0TxFsr ∨ o = .rd (addrPlus c.addrS0TxFsr 1) := by simpa [read16] using ho
  · exact ⟨_, rfl⟩
  · exact ⟨_, rfl⟩

/-! ### The obligations: the waits -/

/-- Settles O52: acceptance, then the polls, each of which comes back to the first read of the free-size counter. -/
theorem sendFrameKeepsPolling : Obligations.SendFrameKeepsPolling := by
  intro len data s polls hm hs hlen hpolls hr
  obtain ⟨_, _, hrun⟩ := Continues.sendFrame_to_free (data := data) hm hs hlen hpolls hr
  rw [Nat.add_comm] at hrun
  exact hrun.keeps_waiting (pollReads_are_reads s.cfg polls)

/-- Settles O53: each poll that finds the command register busy comes back to the poll. -/
theorem completionWaitKeepsPolling : Obligations.CompletionWaitKeepsPolling := by
  intro s waits hm hbusy hr
  obtain ⟨_, hrun⟩ := Continues.sendFrame_waits (s := s) (x := s.x) (ops := []) (rs := []) (dest := s.dest)
    (src := s.src) rfl rfl waits hbusy hr
  rw [← State.eq_midway_of_busy hm] at hrun
  refine hrun.keeps_waiting fun o ho => ?_
  obtain ⟨_, _, rfl⟩ := List.mem_map.1 ho
  exact ⟨_, rfl⟩

end Sys2Proof.Machine

/-! ## The reset state

The six values of R240's table that the block observes, and the model's two empty records (O15). MODE is IDLE, so SEQ is none
and no exchange is in flight: that is so of every idle block. -/

namespace Sys2Proof.Machine

theorem State.not_isBusy_of_idle {s : State} (hm : s.mode = .idle) : s.isBusy = false := by
  rw [State.isBusy, hm]

theorem State.issued_of_idle {s : State} (hm : s.mode = .idle) : s.issued = none := by
  rw [State.issued, hm]

/-- Settles O15: MODE, SOCK, FAULT and the records are fields of the reset state; SEQ and the bus port follow from MODE. -/
theorem resetStateHasTheStatedValues : Obligations.ResetStateHasTheStatedValues := by
  have hm : State.reset.mode = .idle := rfl
  exact ⟨hm, rfl, rfl, rfl, State.not_isBusy_of_idle hm, State.issued_of_idle hm, rfl, rfl⟩

end Sys2Proof.Machine
